-- ==== Sys2Proof/Word.lean ====
section
/-! DEFINITION. The data the block moves: command words, bit vectors, scalars and complex numbers. -/

namespace Sys2Proof

/-- A command word (`30_encoding.md` R83): 32 bits, taken whole; there is no byte order. -/
abbrev Word := BitVec 32

/-- A bit vector (`00_scope.md` R12), first bit first; `true` is the bit 1. -/
abbrev Bits := List Bool

/-- A scalar as the machine's State holds it: the code of a number of the format `NUM` (`00_scope.md` R10). A code
is plain data; what number it stands for only the operations of the format say (log 1). -/
structure Scalar where
  code : Nat
  deriving DecidableEq, Repr, Inhabited

/-- A complex number over the scalars `σ` (`20_memory.md` R60: real part, imaginary part). -/
structure Cx (σ : Type) where
  re : σ
  im : σ
  deriving DecidableEq, Repr, Inhabited

/-- A sample vector in time order, first sample first (`20_memory.md` R60). -/
abbrev Samples (σ : Type) := List (Cx σ)

end Sys2Proof
end

