-- ==== Sys2Proof/Machine/Bits.lean ====
section
/-! DEFINITION. Vectors and bit vectors (`00_scope.md` R11, R12) and their packing into bytes (`43_frame_validator.md` R212). -/

namespace Sys2Proof

/-- `v[a..b)` (R11). -/
def slice {α : Type} (v : List α) (a b : Nat) : List α := (v.drop a).take (b - a)

/-- `rep(v, k)` (R11). -/
def rep {α : Type} (v : List α) (k : Nat) : List α := (List.replicate k v).flatten

/-- The vector `f 0, f 1, ..., f (k-1)`. -/
def tabulate {α : Type} (k : Nat) (f : Nat → α) : List α := (List.range k).map f

/-- The concatenation `f 0 ++ f 1 ++ ... ++ f (k-1)`. -/
def concatMap {α : Type} (k : Nat) (f : Nat → List α) : List α := (tabulate k f).flatten

/-- `ceil(a/b)` (R12). -/
def ceilDiv (a b : Nat) : Nat := (a + (b - 1)) / b

/-- `b ++ zeros((-len(b)) mod k)`: zero bits up to a multiple of `k` (R131, R113, R212). -/
def padTo (k : Nat) (b : Bits) : Bits := b ++ List.replicate ((k - b.length % k) % k) false

/-- `tobits_k(v)`, MSB-first (R12). -/
def toBits (k v : Nat) : Bits := tabulate k fun t => v.testBit (k - 1 - t)

/-- `toint(b)`, the first bit the most significant (R12). -/
def toInt (b : Bits) : Nat := b.foldl (fun acc bit => 2 * acc + bit.toNat) 0

/-- `pack(bits)` (R212): bytes, MSB-first, the last one zero-filled on the right. -/
def pack (bits : Bits) : List (BitVec 8) :=
  let b := padTo 8 bits
  tabulate (b.length / 8) fun i => BitVec.ofNat 8 (toInt (slice b (8 * i) (8 * (i + 1))))

end Sys2Proof
end

