-- ==== Sys2Proof/Machine/Numeric.lean ====
section
/-! DEFINITION. Scalars, complex numbers and the transforms over a number format `NUM` (`00_scope.md` R10, R13, R14).

Every function takes the format as an argument: the block of the opcode table applies it to `Config.num`, the
reference block to the reals (`Reference.lean`). The order of the operations is log 2. -/

namespace Sys2Proof

/-- The record `NUM` of `00_scope.md` R10 over a scalar type `σ`: its operations, `<` and π, with the format's own
test of equality (log 19), which of its values are finite numbers (`70_reset_and_hazards.md` R290 e), and its number
for a rational literal. -/
structure Num (σ : Type) where
  add : σ → σ → σ
  sub : σ → σ → σ
  mul : σ → σ → σ
  div : σ → σ → σ
  sqrt : σ → σ
  cos : σ → σ
  sin : σ → σ
  /-- `atan2 y x`. -/
  atan2 : σ → σ → σ
  lt : σ → σ → Bool
  eq : σ → σ → Bool
  finite : σ → Bool
  pi : σ
  /-- The literal `q` in the format. -/
  ofRat : Rat → σ
  deriving Inhabited

variable {σ : Type}

/-- The scalar 0. -/
def Num.zero (n : Num σ) : σ := n.ofRat 0

/-- An integer literal. -/
def Num.int (n : Num σ) (k : Int) : σ := n.ofRat k

/-- `-a`. -/
def Num.neg (n : Num σ) (a : σ) : σ := n.sub n.zero a

/-- `a < b`, as a condition. -/
abbrev Num.Lt (n : Num σ) (a b : σ) : Prop := n.lt a b = true

/-- The complex 0. -/
def Num.czero (n : Num σ) : Cx σ := ⟨n.zero, n.zero⟩

/-- `a + b`. -/
def Num.cadd (n : Num σ) (a b : Cx σ) : Cx σ := ⟨n.add a.re b.re, n.add a.im b.im⟩

/-- `a - b`. -/
def Num.csub (n : Num σ) (a b : Cx σ) : Cx σ := ⟨n.sub a.re b.re, n.sub a.im b.im⟩

/-- `a * b`. -/
def Num.cmul (n : Num σ) (a b : Cx σ) : Cx σ :=
  ⟨n.sub (n.mul a.re b.re) (n.mul a.im b.im), n.add (n.mul a.re b.im) (n.mul a.im b.re)⟩

/-- `conj(a)` (R13). -/
def Num.conj (n : Num σ) (a : Cx σ) : Cx σ := ⟨a.re, n.neg a.im⟩

/-- A complex number times a real one. -/
def Num.cscale (n : Num σ) (s : σ) (a : Cx σ) : Cx σ := ⟨n.mul s a.re, n.mul s a.im⟩

/-- `|a|^2`. -/
def Num.normSq (n : Num σ) (a : Cx σ) : σ := n.add (n.mul a.re a.re) (n.mul a.im a.im)

/-- `|a|` (R13). -/
def Num.cabs (n : Num σ) (a : Cx σ) : σ := n.sqrt (n.normSq a)

/-- `a / b`, that is `a * conj(b) / |b|^2`. -/
def Num.cdiv (n : Num σ) (a b : Cx σ) : Cx σ :=
  let p := n.cmul a (n.conj b)
  let d := n.normSq b
  ⟨n.div p.re d, n.div p.im d⟩

/-- `cexp(t) = cos(t) + j*sin(t)` (R13). -/
def Num.cexp (n : Num σ) (t : σ) : Cx σ := ⟨n.cos t, n.sin t⟩

/-- `z = 0`, by the format's own test (log 19). -/
def Num.isZero (n : Num σ) (z : Cx σ) : Bool := n.eq z.re n.zero && n.eq z.im n.zero

/-- Both parts of `z` are finite numbers of the format (R290 e). -/
def Num.isFinite (n : Num σ) (z : Cx σ) : Bool := n.finite z.re && n.finite z.im

/-- `angle(z)`, with `angle(0) = 0` (R13). -/
def Num.angle (n : Num σ) (z : Cx σ) : σ := if n.isZero z then n.zero else n.atan2 z.im z.re

/-- `2π`. -/
def Num.twoPi (n : Num σ) : σ := n.mul (n.int 2) n.pi

/-- `sum over i in [0,k) of f i`, real. -/
def Num.sum (n : Num σ) (f : Nat → σ) : Nat → σ
  | 0 => n.zero
  | k + 1 => n.add (n.sum f k) (f k)

/-- `sum over i in [0,k) of f i`, complex. -/
def Num.csum (n : Num σ) (f : Nat → Cx σ) : Nat → Cx σ
  | 0 => n.czero
  | k + 1 => n.cadd (n.csum f k) (f k)

/-- `cexp(2π*k/64)`, the factor of the transforms; `k` may be negative. -/
def Num.twiddle (n : Num σ) (k : Int) : Cx σ := n.cexp (n.div (n.mul n.twoPi (n.int k)) (n.int 64))

/-- `FFT(x)[k]` for `N = 64` (R14). -/
def Num.fft (n : Num σ) (x : Nat → Cx σ) (k : Nat) : Cx σ :=
  n.csum (fun t => n.cmul (x t) (n.twiddle (-((k * t : Nat) : Int)))) 64

/-- `IFFT(X)[t]` for `N = 64` (R14). -/
def Num.ifft (n : Num σ) (X : Nat → Cx σ) (t : Nat) : Cx σ :=
  n.cscale (n.div (n.int 1) (n.int 64)) (n.csum (fun k => n.cmul (X k) (n.twiddle ((k * t : Nat) : Int))) 64)

/-- `v[i]` of a sample vector; positions outside the vector, which no rule reads, give 0 (log 12). -/
def Num.at (n : Num σ) (v : Samples σ) (i : Nat) : Cx σ := v.getD i n.czero

end Sys2Proof
end

