-- ==== Sys2Proof/Machine/Training.lean ====
section
/-! DEFINITION. The subcarrier sets and the constant tables `ROM` (`10_state.md` R29, `40_plan_config.md` R104 to R106). -/

namespace Sys2Proof

/-- The constant tables of `10_state.md` R29: `tref` and `ltsT` are read at 0 to 63, `sts16` at 0 to 15. -/
structure Rom (σ : Type) where
  tref : Nat → Cx σ
  ltsT : Nat → Cx σ
  sts16 : Nat → Cx σ
  deriving Inhabited

/-- `PILOT_SET` (`00_scope.md` R8, `40_plan_config.md` R104). -/
def pilotSet : List Nat := [7, 21, 43, 57]

/-- `NULL_ALWAYS` (`40_plan_config.md` R105): the DC bin and the guard band 27 to 37. -/
def nullAlways (k : Nat) : Bool := k = 0 || (27 ≤ k && k ≤ 37)

/-- The active subcarriers `[0,64)` less `NULL_ALWAYS` (R106), which a legal `TREF` makes its support. -/
def activeIndices : List Nat := (List.range 64).filter fun k => !nullAlways k

variable {σ : Type}

/-- `ROM.LTS_T[64-2*cpLen..64) ++ ROM.LTS_T ++ ROM.LTS_T` (R108). -/
def longSectionOf (rom : Rom σ) (cpLen : Nat) : Samples σ :=
  let lts := tabulate 64 rom.ltsT
  slice lts (64 - 2 * cpLen) 64 ++ lts ++ lts

/-- The energy of the long section for `cpLen`. -/
def sectionEnergy (n : Num σ) (rom : Rom σ) (cpLen : Nat) : σ :=
  n.sum (fun t => n.normSq (n.at (longSectionOf rom cpLen) t)) (2 * cpLen + 128)

/-- The constraints of `10_state.md` R29 on the tables: (a) `LTS_T = IFFT(TREF)`; (b), (c), (d) `TREF` is
non-zero at exactly the 52 indices outside `NULL_ALWAYS`, the pilots among them; (e) the long section has
positive energy, for every legal `cpLen`. And the entries are finite numbers (`70_reset_and_hazards.md` R290 e). -/
structure Rom.Legal (n : Num σ) (rom : Rom σ) : Prop where
  lts : ∀ t, t < 64 → rom.ltsT t = n.ifft rom.tref t
  support : ∀ k, k < 64 → n.isZero (rom.tref k) = nullAlways k
  energy : ∀ cpLen, cpLen ≤ 32 → n.Lt n.zero (sectionEnergy n rom cpLen)
  finite : ∀ k, k < 64 →
    n.isFinite (rom.tref k) = true ∧ n.isFinite (rom.ltsT k) = true ∧ (k < 16 → n.isFinite (rom.sts16 k) = true)

end Sys2Proof
end

