-- ==== Sys2Proof/Config.lean ====
section
/-! DEFINITION. What an implementation fixes (`00_scope.md` R8): the number format, the constant tables, the
capacities, the options, and the free values. An OPEN parameter is an opaque constant with no body. -/

namespace Sys2Proof

/-- `DEMAP_QAM` (R8): the nearest-point QAM demapper is built in, or refused. -/
inductive DemapQam where
  | nearest
  | refuse
  deriving DecidableEq, Repr, Inhabited

/-- What an implementation over the scalars `σ` fixes (R8): the machine is written over any of these. -/
structure Impl (σ : Type) where
  /-- `NUM` (R10). -/
  num : Num σ
  /-- `ROM` (`10_state.md` R29). -/
  rom : Rom σ
  /-- `QMAX`. -/
  qmax : Nat
  /-- `DEMAP_QAM`. -/
  demapQam : DemapQam
  /-- `DEPTH_MOD_IN`. -/
  depthModIn : Nat
  /-- `DEPTH_MOD_OUT`. -/
  depthModOut : Nat
  /-- `IQ_DEPTH`. -/
  iqDepth : Nat
  /-- `DEPTH_DEM_OUT`. -/
  depthDemOut : Nat
  /-- `DEPTH_FCS_IN`. -/
  depthFcsIn : Nat
  /-- `DEPTH_FCS_OUT`. -/
  depthFcsOut : Nat
  /-- The values behind `any value` (R17): the `k`-th draw (log 7). -/
  freeValue : Nat → Nat

/-- The legal implementations: tables under R29, capacities in the ranges of R8 and `20_memory.md` R56. -/
structure Impl.Legal {σ : Type} (c : Impl σ) : Prop where
  rom : c.rom.Legal c.num
  depthModIn : 1 ≤ c.depthModIn
  depthModOut : 1 ≤ c.depthModOut
  iqDepth : 2 ≤ c.iqDepth
  depthDemOut : 1 ≤ c.depthDemOut
  depthFcsIn : 1 ≤ c.depthFcsIn
  depthFcsOut : 1 ≤ c.depthFcsOut

/-- Some operations on codes, needed only to show that `Format` is not empty. -/
def someNum : Num Scalar where
  add := fun _ _ => ⟨1⟩
  sub := fun _ _ => ⟨0⟩
  mul := fun _ _ => ⟨0⟩
  div := fun _ _ => ⟨0⟩
  sqrt := fun _ => ⟨0⟩
  cos := fun _ => ⟨0⟩
  sin := fun _ => ⟨0⟩
  atan2 := fun _ _ => ⟨0⟩
  lt := fun a b => decide (a.code < b.code)
  eq := fun a b => decide (a = b)
  finite := fun _ => true
  pi := ⟨0⟩
  ofRat := fun _ => ⟨0⟩

/-- Tables that are legal over `someNum`. -/
def someRom : Rom Scalar where
  tref := fun k => if nullAlways k then ⟨⟨0⟩, ⟨0⟩⟩ else ⟨⟨1⟩, ⟨0⟩⟩
  ltsT := someNum.ifft fun k => if nullAlways k then ⟨⟨0⟩, ⟨0⟩⟩ else ⟨⟨1⟩, ⟨0⟩⟩
  sts16 := fun _ => ⟨⟨0⟩, ⟨0⟩⟩

theorem someRom_legal : someRom.Legal someNum where
  lts := fun _ _ => rfl
  support := by decide
  energy := fun _ _ => rfl
  finite := fun _ _ => ⟨rfl, rfl, fun _ => rfl⟩

/-- A number format over codes with constant tables that are legal in it (R10, R29). -/
structure Format where
  num : Num Scalar := someNum
  rom : Rom Scalar := someRom
  legal : rom.Legal num := by exact someRom_legal
  deriving Inhabited

namespace Config

/-- OPEN (R8, R10, R29, U12, U13): the number format and the constant tables, uninterpreted but for the
constraints of R29 (logs 1, 3). -/
opaque format : Format

/-- The machine's `NUM`. -/
def num : Num Scalar := format.num

/-- The machine's `ROM`. -/
def rom : Rom Scalar := format.rom

/-- OPEN (R8, U11): the largest `q` of a QAM order `4^q` (log 4). -/
opaque qmax : Nat

/-- OPEN (R8, U15): whether the QAM demapper is built in (log 6). -/
opaque demapQam : DemapQam

/-- OPEN (R8, U14): the six capacities less their least legal value (log 5). -/
opaque extraModIn : Nat
opaque extraModOut : Nat
opaque extraDemIn : Nat
opaque extraDemOut : Nat
opaque extraFcsIn : Nat
opaque extraFcsOut : Nat

/-- `DEPTH_MOD_IN`, at least 1. -/
def depthModIn : Nat := extraModIn + 1
/-- `DEPTH_MOD_OUT`, at least 1. -/
def depthModOut : Nat := extraModOut + 1
/-- `IQ_DEPTH`, at least 2 (`20_memory.md` R56). -/
def iqDepth : Nat := extraDemIn + 2
/-- `DEPTH_DEM_OUT`, at least 1. -/
def depthDemOut : Nat := extraDemOut + 1
/-- `DEPTH_FCS_IN`, at least 1. -/
def depthFcsIn : Nat := extraFcsIn + 1
/-- `DEPTH_FCS_OUT`, at least 1. -/
def depthFcsOut : Nat := extraFcsOut + 1

/-- The free values behind `any value` (`00_scope.md` R17; U1, U2): the `k`-th draw (log 7). -/
opaque freeValue : Nat → Nat

/-- The machine's implementation. -/
def impl : Impl Scalar where
  num := num
  rom := rom
  qmax := qmax
  demapQam := demapQam
  depthModIn := depthModIn
  depthModOut := depthModOut
  iqDepth := iqDepth
  depthDemOut := depthDemOut
  depthFcsIn := depthFcsIn
  depthFcsOut := depthFcsOut
  freeValue := freeValue

end Config

end Sys2Proof
end

