-- ==== Sys2Proof/Syntax.lean ====
section
/-! DEFINITION. The twelve commands of `30_encoding.md` R85, one constructor per row of the opcode table. -/

namespace Sys2Proof

/-- A command. Register-selecting commands carry the 4-bit index of the word's `sub` field
(`30_encoding.md` R83, R84); which indices are used is `Instr.WellFormed`. -/
inductive Instr where
  /-- `NOP` (R230). -/
  | nop
  /-- `CFG.WR field, value` (R100). -/
  | cfgWr (field : BitVec 4) (value : BitVec 24)
  /-- `PLAN.BUILD` (R102). -/
  | planBuild
  /-- `MOD.RUN pre` (R130). -/
  | modRun (pre : Bool)
  /-- `DEM.RUN` (R160). -/
  | demRun
  /-- `FCS.BUILD seq` (R216). -/
  | fcsBuild (seq : BitVec 16)
  /-- `FCS.CHECK` (R218). -/
  | fcsCheck
  /-- `RES.RD reg` (R234). -/
  | resRd (reg : BitVec 4)
  /-- `CNT.RD cnt` (R235). -/
  | cntRd (cnt : BitVec 4)
  /-- `CNT.CLR` (R236). -/
  | cntClr
  /-- `STAT.RD` (R233). -/
  | statRd
  /-- `SRESET` (R237). -/
  | sreset
  deriving DecidableEq, Repr

end Sys2Proof
end

