-- ==== Sys2Proof/Machine/State.lean ====
section
/-! DEFINITION. The state of the block (`10_state.md`), the host's actions, faults, and the state after reset. -/

namespace Sys2Proof.Machine

/-- `phase` (`10_state.md` R21), the block's one control state. -/
inductive Phase where
  | unconfigured
  | ready
  | fatal
  deriving DecidableEq, Repr

/-- The completion codes a command can return (`60_exceptions.md` R251); 7 to 15 are never returned (R260). -/
inductive Code where
  | ok
  | configError
  | frameIntegrityError
  | noFrameDetected
  | needBlock
  | buffer
  | illegalCommand
  deriving DecidableEq, Repr

/-- The CFG register file (`10_state.md` R24); `none` is the mark UNWRITTEN (R25). -/
structure CfgFile where
  n : Option (BitVec 24)
  cplen : Option (BitVec 24)
  qam : Option (BitVec 24)
  pilot : Option (BitVec 24)
  nsym : Option (BitVec 24)
  payload : Option (BitVec 24)
  arq : Option (BitVec 24)
  block : Option (BitVec 24)
  deriving DecidableEq, Repr

/-- The committed plan (`10_state.md` R26), field by field. -/
structure Plan (σ : Type) where
  /-- `N`. -/
  size : Nat
  cpLen : Nat
  symLen : Nat
  m : Nat
  bps : Nat
  nsym : Nat
  payload : Nat
  arq : Nat
  block : Nat
  pilot : List Nat
  data : List Nat
  null : List Nat
  active : List Nat
  dataCount : Nat
  pilotCount : Nat
  table : List (Cx σ)
  preamble : Samples σ
  longSection : Samples σ
  /-- `LP`. -/
  lp : Nat
  /-- `W`. -/
  window : Nat
  frameBits : Nat
  deriving DecidableEq, Repr

/-- The result registers (`10_state.md` R31). -/
structure ResFile (σ : Type := Scalar) where
  modNsym : BitVec 32
  modLen : BitVec 32
  demOffset : BitVec 32
  demPeak : σ
  demCfo : σ
  fcsSeq : BitVec 16
  deriving DecidableEq, Repr

/-- The counters (`10_state.md` R37), `CNT_W` = 32 bits each. -/
structure CntFile where
  txFrames : BitVec 32
  rxTotal : BitVec 32
  rxOk : BitVec 32
  rxBad : BitVec 32
  deriving DecidableEq, Repr

/-- The value of a response (`30_encoding.md` R86): a 32-bit integer or a real scalar. -/
inductive Value (σ : Type := Scalar) where
  | int (v : BitVec 32)
  | real (x : σ)
  deriving DecidableEq, Repr

/-- The response to a command (R86): a completion code and a value. -/
structure Response (σ : Type := Scalar) where
  code : Code
  value : Value σ
  deriving DecidableEq, Repr

/-- A message as a host pop returns it (`20_memory.md` R57). -/
inductive Message (σ : Type := Scalar) where
  | bits (b : Bits)
  | samples (v : Samples σ)
  deriving DecidableEq, Repr

/-- The FIFOs the host pops (R57). -/
inductive OutFifo where
  | modOut
  | demOut
  | fcsOut
  deriving DecidableEq, Repr

/-- What the host does to the block: a command word at the command port, a move (`45_control_ops.md`
R240), or the reset input (`70_reset_and_hazards.md` R280). -/
inductive HostAction (σ : Type := Scalar) where
  | command (w : Word)
  | pushModIn (b : Bits)
  | pushFcsIn (b : Bits)
  | pushDemIn (v : Samples σ)
  | pop (f : OutFifo)
  | resetInput
  deriving DecidableEq, Repr

/-- Host moves that are no step of the spec (`70_reset_and_hazards.md` R290; U24: stuck). No command
raises a fault. All are safe: the model stops where the spec has no step (log 9). -/
inductive Fault where
  /-- Raised by the host move `push MOD_IN` on a full FIFO (R290 a). Safe. -/
  | pushModInFull
  /-- Raised by the host move `push FCS_IN` on a full FIFO (R290 a). Safe. -/
  | pushFcsInFull
  /-- Raised by the host move `push DEM_IN` outside READY (R290 c). Safe. -/
  | pushDemInNotReady
  /-- Raised by the host move `push DEM_IN` of a message that is not `PLAN.block` samples (R290 c). Safe. -/
  | pushDemInWrongLength
  /-- Raised by the host move `push DEM_IN` of a message with a sample that is no finite number (R290 e). Safe. -/
  | pushDemInNotFinite
  /-- Raised by the host move `pop MOD_OUT` on an empty FIFO (R290 b). Safe. -/
  | popModOutEmpty
  /-- Raised by the host move `pop DEM_OUT` on an empty FIFO (R290 b). Safe. -/
  | popDemOutEmpty
  /-- Raised by the host move `pop FCS_OUT` on an empty FIFO (R290 b). Safe. -/
  | popFcsOutEmpty
  deriving DecidableEq, Repr

/-- Why an instruction has no meaning. -/
inductive Refusal where
  /-- Raised by `exec` for an instruction not modelled yet: by none, every command has its meaning. Safe. -/
  | notModelled (mnemonic : String)
  deriving DecidableEq, Repr

/-- The state of the block (`10_state.md` R39), with the interface (`port`, `response`, `popped`) and the
count of free values drawn (`draws`). The ROM tables are constants (`Impl.rom`). `State` alone is the state of the
machine of the opcode table, over codes; `State ℝ` is that of the reference block (log 1). -/
structure State (σ : Type := Scalar) where
  /-- `phase` (R21); bits 1:0 of STATUS (R23). -/
  phase : Phase
  /-- CFG (R24). -/
  cfg : CfgFile
  /-- PLAN (R26), absent until `PLAN.BUILD` succeeds. -/
  plan : Option (Plan σ)
  /-- `STATUS.DEM_FOUND` (R23). -/
  demFound : Bool
  /-- `STATUS.FCS_OK` (R23). -/
  fcsOk : Bool
  /-- `STATUS.LAST` (R23). -/
  last : Code
  /-- RES (R31). -/
  res : ResFile σ
  /-- CNT (R37). -/
  cnt : CntFile
  /-- FIFO `MOD_IN` (R30), oldest message first, like the five after it. -/
  modIn : List Bits
  /-- FIFO `MOD_OUT` (R30). -/
  modOut : List (Samples σ)
  /-- FIFO `DEM_IN` (R30, R56). -/
  demIn : List (Samples σ)
  /-- FIFO `DEM_OUT` (R30). -/
  demOut : List Bits
  /-- FIFO `FCS_IN` (R30). -/
  fcsIn : List Bits
  /-- FIFO `FCS_OUT` (R30). -/
  fcsOut : List Bits
  /-- What the host will do, next action first (log 8). -/
  port : List (HostAction σ)
  /-- The response of the most recent command (R86; log 10). -/
  response : Option (Response σ)
  /-- The message the most recent host pop returned (R57; log 10). -/
  popped : Option (Message σ)
  /-- How many free values have been drawn (log 7). -/
  draws : Nat
  deriving DecidableEq, Repr

/-- The block right after reset (`10_state.md` R39, `70_reset_and_hazards.md` R280), `zero` being the scalar 0.
`port`, `response`, `popped` and `draws` are the model's (logs 7, 8, 10). -/
def State.init {σ : Type} (zero : σ) : State σ where
  phase := .unconfigured
  cfg := ⟨none, none, none, none, none, none, none, none⟩
  plan := none
  demFound := false
  fcsOk := false
  last := .ok
  res := ⟨0, 0, 0, zero, zero, 0⟩
  cnt := ⟨0, 0, 0, 0⟩
  modIn := []
  modOut := []
  demIn := []
  demOut := []
  fcsIn := []
  fcsOut := []
  port := []
  response := none
  popped := none
  draws := 0

/-- The machine right after reset. -/
def State.reset : State := State.init Config.num.zero

end Sys2Proof.Machine
end

