-- ==== Sys2Proof/Machine/Operands.lean ====
section
/-! DEFINITION. The operand forms: the CFG, RES and CNT files by their 4-bit index (`20_memory.md` R50, R51). -/

namespace Sys2Proof.Machine

/-- `CFG[field] <- value` (`10_state.md` R24); an unused index selects nothing (R51). -/
def CfgFile.write (f : CfgFile) (field : BitVec 4) (value : BitVec 24) : CfgFile :=
  match field.toNat with
  | 0 => { f with n := some value }
  | 1 => { f with cplen := some value }
  | 2 => { f with qam := some value }
  | 3 => { f with pilot := some value }
  | 4 => { f with nsym := some value }
  | 5 => { f with payload := some value }
  | 6 => { f with arq := some value }
  | 7 => { f with block := some value }
  | _ => f

/-- `CFG[field]`, `none` for UNWRITTEN and for an unused index. -/
def CfgFile.read (f : CfgFile) (field : BitVec 4) : Option (BitVec 24) :=
  match field.toNat with
  | 0 => f.n
  | 1 => f.cplen
  | 2 => f.qam
  | 3 => f.pilot
  | 4 => f.nsym
  | 5 => f.payload
  | 6 => f.arq
  | 7 => f.block
  | _ => none

/-- `RES[reg]` as a response value (`10_state.md` R31, `30_encoding.md` R86); `none` for an unused index. -/
def ResFile.read {σ : Type} (f : ResFile σ) (reg : BitVec 4) : Option (Value σ) :=
  match reg.toNat with
  | 0 => some (.int f.modNsym)
  | 1 => some (.int f.modLen)
  | 2 => some (.int f.demOffset)
  | 3 => some (.real f.demPeak)
  | 4 => some (.real f.demCfo)
  | 5 => some (.int (f.fcsSeq.setWidth 32))
  | _ => none

/-- `CNT[cnt]` as a response value (`10_state.md` R37); `none` for an unused index. -/
def CntFile.read {σ : Type} (f : CntFile) (cnt : BitVec 4) : Option (Value σ) :=
  match cnt.toNat with
  | 0 => some (.int f.txFrames)
  | 1 => some (.int f.rxTotal)
  | 2 => some (.int f.rxOk)
  | 3 => some (.int f.rxBad)
  | _ => none

end Sys2Proof.Machine
end

