-- ==== Sys2Proof/Machine/Ops.lean ====
section
/-! DEFINITION. The operations the meanings share: completion, the two exceptions, reset, the plan guard
(`00_scope.md` R17, `60_exceptions.md` R256, R258). -/

namespace Sys2Proof.Machine

variable {σ : Type}

/-- What a meaning answers. -/
abbrev Result (σ : Type := Scalar) := Host.Outcome (State σ) Fault Refusal

/-- The response to the host, without `STATUS.LAST` (`STAT.RD`, `45_control_ops.md` R233). -/
def respond (code : Code) (value : Value σ) (s : State σ) : State σ := { s with response := some ⟨code, value⟩ }

/-- `complete(code, value)` (R17): the response, and `STATUS.LAST` (R23). -/
def completeWith (code : Code) (value : Value σ) (s : State σ) : State σ := respond code value { s with last := code }

/-- `complete(code)`: the value is 0 (R86). -/
def complete (code : Code) (s : State σ) : State σ := completeWith code (.int 0) s

/-- `raise ConfigError` (R17, R258): taking the block's fatal exception. There is no handler and no saved
state: `phase <- FATAL`, `complete(CONFIG_ERROR)`, everything else stays. -/
def raiseConfigError (s : State σ) : State σ := complete .configError { s with phase := .fatal }

/-- `raise FrameIntegrityError` (`43_frame_validator.md` R219). -/
def raiseFrameIntegrityError (s : State σ) : State σ :=
  complete .frameIntegrityError
    { s with
      cnt := { s.cnt with rxTotal := s.cnt.rxTotal + 1, rxBad := s.cnt.rxBad + 1 }
      fcsOk := false }

/-- Reset, by either source (`70_reset_and_hazards.md` R280): the return from `FATAL` (`60_exceptions.md`
R261). The host's actions to come are the host's, and free values already drawn are not drawn again (log 7). -/
def resetBlock (zero : σ) (s : State σ) : State σ := { State.init zero with port := s.port, draws := s.draws }

/-- Checks 2 and 3 of `60_exceptions.md` R256 for the processing commands: in `FATAL` CONFIG_ERROR, with no
plan ConfigError, in `READY` the work on the plan. `READY` without a plan, which no run reaches, counts as
"the plan is invalid" (R130; log 11). -/
def withPlan (s : State σ) (work : Plan σ → State σ) : State σ :=
  match s.phase with
  | .fatal => complete .configError s
  | .unconfigured => raiseConfigError s
  | .ready =>
    match s.plan with
    | none => raiseConfigError s
    | some p => work p

/-- Checks 2 and 3 of R256 for `CFG.WR` and `PLAN.BUILD`: only `UNCONFIGURED` admits the work. -/
def whileUnconfigured (s : State σ) (work : State σ) : State σ :=
  match s.phase with
  | .fatal => complete .configError s
  | .ready => complete .illegalCommand s
  | .unconfigured => work

/-- Checks 5 and 6 of R256: an output FIFO of `capacity` that already holds it (R54; log 13), then an empty
input FIFO, complete `BUFFER`; else the work on the input's head and rest. -/
def withHead {α β : Type} (s : State σ) (capacity : Nat) (out : List α) (input : List β)
    (work : β → List β → State σ) : State σ :=
  if capacity ≤ out.length then complete .buffer s
  else match input with
    | [] => complete .buffer s
    | head :: rest => work head rest

end Sys2Proof.Machine
end

