-- ==== Sys2Proof/Machine/Plan.lean ====
section
/-! DEFINITION. The configuration checks and the plan they build (`40_plan_config.md` R102 to R113, `10_state.md` R26). -/

namespace Sys2Proof.Machine

variable {σ : Type}

/-- The values of the eight CFG registers, all written. -/
structure CfgValues where
  n : Nat
  cplen : Nat
  qam : Nat
  pilot : Nat
  nsym : Nat
  payload : Nat
  arq : Nat
  block : Nat
  deriving DecidableEq, Repr

/-- The CFG registers' values, or `none` where one is UNWRITTEN (R25). -/
def cfgValues (f : CfgFile) : Option CfgValues :=
  match f.n, f.cplen, f.qam, f.pilot, f.nsym, f.payload, f.arq, f.block with
  | some n, some cplen, some qam, some pilot, some nsym, some payload, some arq, some block =>
    some ⟨n.toNat, cplen.toNat, qam.toNat, pilot.toNat, nsym.toNat, payload.toNat, arq.toNat, block.toNat⟩
  | _, _, _, _, _, _, _, _ => none

/-- `m` is in `{2} ∪ {4^q : 1 ≤ q ≤ QMAX}` (R103 d). -/
def legalOrder (qmax m : Nat) : Bool := m = 2 || (List.range qmax).any fun q => m = 4 ^ (q + 1)

/-- The checks of R102 on written values, in its order; any failure is ConfigError. -/
def cfgLegal (qmax : Nat) (v : CfgValues) : Bool :=
  v.n = 64 && v.pilot = 0 && v.cplen ≤ 32 && legalOrder qmax v.qam && v.nsym ≠ 0 && v.payload ≠ 0 &&
    v.arq ≤ 1 && 2 * v.cplen + 128 + v.nsym * (64 + v.cplen) ≤ v.block

/-- The `i`-th word of the reflected binary Gray code (R111). -/
def gray (i : Nat) : Nat := i ^^^ (i >>> 1)

/-- The `i`-th cell of the serpentine traversal of an `s` by `s` grid, normalised (R111). -/
def gridPoint (n : Num σ) (s i : Nat) : Cx σ :=
  let r := i / s
  let c0 := i % s
  let c := if r % 2 = 0 then c0 else s - 1 - c0
  let axis (x : Nat) : σ := n.div (n.int (2 * (x : Int) - ((s : Int) - 1))) (n.int ((s : Int) - 1))
  ⟨axis c, axis r⟩

/-- The table of R111 for `m = s*s` points: `table[g]` for the Gray word `g` of each `i`. -/
def qamTable (n : Num σ) (m s : Nat) : List (Cx σ) :=
  (List.range m).foldl (fun table i => table.set (gray i) (gridPoint n s i)) (List.replicate m n.czero)

/-- The BPSK table of R110. -/
def bpskTable (n : Num σ) : List (Cx σ) := [⟨n.int (-1), n.zero⟩, ⟨n.int 1, n.zero⟩]

/-- Bits per symbol (R109): 1 for `m = 2`, else `log2(m)`. -/
def bitsPerSymbol (m : Nat) : Nat := if m = 2 then 1 else Nat.log2 m

/-- The constellation table of `m` points (R110, R111); the grid side is `2^(bps/2)` (R109). -/
def constellation (n : Num σ) (m : Nat) : List (Cx σ) :=
  if m = 2 then bpskTable n else qamTable n m (2 ^ (bitsPerSymbol m / 2))

/-- `PLAN.preamble` (R108): ten short repetitions, then the long section. -/
def preambleOf (rom : Rom σ) (cpLen : Nat) : Samples σ :=
  rep (tabulate 16 rom.sts16) 10 ++ longSectionOf rom cpLen

/-- The indices with `ROM.TREF[k] ≠ 0` (R106). -/
def activeOf (n : Num σ) (rom : Rom σ) : List Nat :=
  (List.range 64).filter fun k => !n.isZero (rom.tref k)

/-- `active` less `pilot` less `NULL_ALWAYS`, ascending (R106). -/
def dataOf (active : List Nat) : List Nat :=
  active.filter fun k => !pilotSet.contains k && !nullAlways k

/-- `[0,64)` less `data` less `pilot` (R106). -/
def nullOf (data : List Nat) : List Nat :=
  (List.range 64).filter fun k => !data.contains k && !pilotSet.contains k

/-- The record of `10_state.md` R26, built by R104 to R111. -/
def buildPlan (n : Num σ) (rom : Rom σ) (v : CfgValues) : Plan σ :=
  let active := activeOf n rom
  let data := dataOf active
  { size := v.n
    cpLen := v.cplen
    symLen := v.n + v.cplen
    m := v.qam
    bps := bitsPerSymbol v.qam
    nsym := v.nsym
    payload := v.payload
    arq := v.arq
    block := v.block
    pilot := pilotSet
    data := data
    null := nullOf data
    active := active
    dataCount := data.length
    pilotCount := pilotSet.length
    table := constellation n v.qam
    preamble := preambleOf rom v.cplen
    longSection := longSectionOf rom v.cplen
    lp := 2 * v.cplen + 128
    window := 2 * v.n + v.nsym * (v.n + v.cplen) - 1
    frameBits := (if v.arq = 1 then 16 else 0) + v.payload + 32 }

/-- `symbolsNeeded(dataPointCount)` (R107). -/
def symbolsNeeded (p : Plan σ) (points : Nat) : Nat := ceilDiv points p.dataCount

/-- `qam_map(bits)` (R113): groups of `bps` bits, MSB-first, through the table. -/
def qamMap (n : Num σ) (p : Plan σ) (bits : Bits) : List (Cx σ) :=
  let b := padTo p.bps bits
  tabulate (b.length / p.bps) fun u => n.at p.table (toInt (slice b (u * p.bps) ((u + 1) * p.bps)))

end Sys2Proof.Machine
end

