-- ==== Sys2Proof/Machine/Configure.lean ====
section
/-! DEFINITION. `CFG.WR` and `PLAN.BUILD` (`40_plan_config.md` R100, R102). -/

namespace Sys2Proof.Machine

variable {σ : Type}

/-- `CFG.WR field, value` (R100); an unused index is an illegal command in every phase (R51, R90). -/
def execCfgWr (field : BitVec 4) (value : BitVec 24) (s : State σ) : Result σ :=
  .next <|
    if field.toNat < 8 then
      whileUnconfigured s (complete .ok { s with cfg := s.cfg.write field value })
    else complete .illegalCommand s

/-- `PLAN.BUILD` (R102), over any implementation. -/
def planBuildOf (c : Impl σ) (s : State σ) : Result σ :=
  .next <| whileUnconfigured s <|
    match cfgValues s.cfg with
    | none => raiseConfigError s
    | some v =>
      if cfgLegal c.qmax v then
        complete .ok { s with plan := some (buildPlan c.num c.rom v), phase := .ready }
      else raiseConfigError s

/-- `PLAN.BUILD` of the machine. -/
def execPlanBuild (s : State) : Result := planBuildOf Config.impl s

end Sys2Proof.Machine
end

