-- ==== Sys2Proof/Machine/Flags.lean ====
section
/-! DEFINITION. The STATUS register (`10_state.md` R23) and the numbers of its codes (`60_exceptions.md` R251). -/

namespace Sys2Proof.Machine

/-- `STATUS.PHASE` (R23). -/
def Phase.toBits : Phase → BitVec 2
  | .unconfigured => 0
  | .ready => 1
  | .fatal => 2

/-- The number of a completion code (R251). -/
def Code.toBits : Code → BitVec 4
  | .ok => 0
  | .configError => 1
  | .frameIntegrityError => 2
  | .noFrameDetected => 3
  | .needBlock => 4
  | .buffer => 5
  | .illegalCommand => 6

/-- STATUS (R23): bits 31:8 read as 0, `LAST` 7:4, `FCS_OK` 3, `DEM_FOUND` 2, `PHASE` 1:0. -/
def statusWord {σ : Type} (s : State σ) : BitVec 32 :=
  0#24 ++ s.last.toBits ++ BitVec.ofBool s.fcsOk ++ BitVec.ofBool s.demFound ++ s.phase.toBits

end Sys2Proof.Machine
end

