-- ==== Sys2Proof/Machine/Control.lean ====
section
/-! DEFINITION. The control and read-out commands (`45_control_ops.md` R230 to R237). -/

namespace Sys2Proof.Machine

variable {σ : Type}

/-- `NOP` (R230). -/
def execNop (s : State σ) : Result σ := .next (complete .ok s)

/-- `STAT.RD` (R233): the one command that does not write `STATUS.LAST`. -/
def execStatRd (s : State σ) : Result σ := .next (respond .ok (.int (statusWord s)) s)

/-- A read-out: the value, or ILLEGAL_COMMAND for an unused index (R51). -/
def readOut (value : Option (Value σ)) (s : State σ) : State σ :=
  match value with
  | some v => completeWith .ok v s
  | none => complete .illegalCommand s

/-- `RES.RD reg` (R234). -/
def execResRd (reg : BitVec 4) (s : State σ) : Result σ := .next (readOut (s.res.read reg) s)

/-- `CNT.RD cnt` (R235). -/
def execCntRd (cnt : BitVec 4) (s : State σ) : Result σ := .next (readOut (s.cnt.read cnt) s)

/-- `CNT.CLR` (R236). -/
def execCntClr (s : State σ) : Result σ :=
  .next <|
    match s.phase with
    | .fatal => complete .configError s
    | .unconfigured => complete .ok { s with cnt := ⟨0, 0, 0, 0⟩ }
    | .ready => complete .ok { s with cnt := ⟨0, 0, 0, 0⟩ }

/-- `SRESET` (R237): reset, then the response `OK`; over any implementation. -/
def sresetOf (c : Impl σ) (s : State σ) : Result σ := .next (complete .ok (resetBlock c.num.zero s))

/-- `SRESET` of the machine. -/
def execSreset (s : State) : Result := sresetOf Config.impl s

end Sys2Proof.Machine
end

