-- ==== Sys2Proof/Machine/Crc.lean ====
section
/-! DEFINITION. CRC-32 (`43_frame_validator.md` R210, R215). -/

namespace Sys2Proof

/-- One turn of the inner loop of R210. -/
def crcShift (crc : BitVec 32) : BitVec 32 :=
  if crc.getLsbD 0 then (crc >>> 1) ^^^ 0xEDB88320#32 else crc >>> 1

/-- `repeat k times` of `crcShift`. -/
def crcShifts : Nat → BitVec 32 → BitVec 32
  | 0, crc => crc
  | k + 1, crc => crcShifts k (crcShift crc)

/-- One byte: into the low 8 bits, then eight turns (R210). -/
def crcByte (crc : BitVec 32) (b : BitVec 8) : BitVec 32 := crcShifts 8 (crc ^^^ b.setWidth 32)

/-- `CRC32(bytes)` (R210). -/
def crc32 (bytes : List (BitVec 8)) : BitVec 32 := bytes.foldl crcByte 0xFFFFFFFF#32 ^^^ 0xFFFFFFFF#32

/-- `frame_crc(head) = CRC32(pack(head))` (R215). -/
def frameCrc (head : Bits) : BitVec 32 := crc32 (pack head)

end Sys2Proof
end

