-- ==== Sys2Proof/Machine/FrameValidator.lean ====
section
/-! DEFINITION. `FCS.BUILD` and `FCS.CHECK` (`43_frame_validator.md` R216, R218). -/

namespace Sys2Proof.Machine

variable {σ : Type}

/-- The bits before the trailer (R215, `30_encoding.md` R70, R71): the sequence number in stop-and-wait
mode, then the payload. -/
def frameHead (p : Plan σ) (seq : Nat) (payload : Bits) : Bits :=
  (if p.arq = 1 then toBits 16 seq else []) ++ payload

/-- The LLC frame `head ++ tobits_32(frame_crc(head))` (R214, R216). -/
def buildFrame (p : Plan σ) (seq : Nat) (payload : Bits) : Bits :=
  let head := frameHead p seq payload
  head ++ toBits 32 (frameCrc head).toNat

/-- The head of the frame at the start of a message (R218). -/
def checkedHead (p : Plan σ) (msg : Bits) : Bits := slice msg 0 (p.frameBits - 32)

/-- `got`, the carried CRC (R218). -/
def carriedCrc (p : Plan σ) (msg : Bits) : Nat := toInt (slice msg (p.frameBits - 32) p.frameBits)

/-- The CRC test of R218. -/
def frameIntact (p : Plan σ) (msg : Bits) : Bool := (frameCrc (checkedHead p msg)).toNat = carriedCrc p msg

/-- `FCS.BUILD seq` (R216), over any implementation. -/
def fcsBuildOf (c : Impl σ) (seq : BitVec 16) (s : State σ) : Result σ :=
  .next <| withPlan s fun p => withHead s c.depthFcsOut s.fcsOut s.fcsIn fun payload rest =>
    if payload.length ≠ p.payload then complete .buffer s
    else complete .ok { s with fcsIn := rest, fcsOut := s.fcsOut ++ [buildFrame p seq.toNat payload] }

/-- `FCS.BUILD seq` of the machine. -/
def execFcsBuild (seq : BitVec 16) (s : State) : Result := fcsBuildOf Config.impl seq s

/-- The work of `FCS.CHECK` on a popped message that passed the CRC test (R218). -/
def acceptFrame (p : Plan σ) (msg : Bits) (rest : List Bits) (s : State σ) : State σ :=
  let head := checkedHead p msg
  let payload := if p.arq = 1 then head.drop 16 else head
  complete .ok
    { s with
      fcsIn := rest
      fcsOut := s.fcsOut ++ [payload]
      cnt := { s.cnt with rxTotal := s.cnt.rxTotal + 1, rxOk := s.cnt.rxOk + 1 }
      res := if p.arq = 1 then { s.res with fcsSeq := BitVec.ofNat 16 (toInt (slice head 0 16)) } else s.res
      fcsOk := true }

/-- `FCS.CHECK` (R218, R219), over any implementation. -/
def fcsCheckOf (c : Impl σ) (s : State σ) : Result σ :=
  .next <| withPlan s fun p => withHead s c.depthFcsOut s.fcsOut s.fcsIn fun msg rest =>
    if msg.length < p.frameBits then complete .buffer s
    else if frameIntact p msg then acceptFrame p msg rest s
    else raiseFrameIntegrityError { s with fcsIn := rest }

/-- `FCS.CHECK` of the machine. -/
def execFcsCheck (s : State) : Result := fcsCheckOf Config.impl s

end Sys2Proof.Machine
end

