-- ==== Sys2Proof/Machine/Demodulator.lean ====
section
/-! DEFINITION. The steps of the demodulator (`42_demodulator.md` R165 to R203). -/

namespace Sys2Proof.Machine

variable {σ : Type}

/-- `DET_THRESHOLD` (`00_scope.md` R8). -/
def detThreshold (n : Num σ) : σ := n.ofRat (7 / 10)

/-- `CFO_DIV` (`00_scope.md` R8, `90_conflicts.md` C2). -/
def cfoDiv : Nat := 63

/-! ### Step 1: preamble detection -/

/-- `c[i]` (R166). -/
def correlation (n : Num σ) (p : Plan σ) (r : Samples σ) (i : Nat) : Cx σ :=
  n.csum (fun t => n.cmul (n.at r (i + t)) (n.conj (n.at p.longSection t))) p.lp

/-- `EP` (R167). -/
def templateEnergy (n : Num σ) (p : Plan σ) : σ := n.sum (fun t => n.normSq (n.at p.longSection t)) p.lp

/-- `e[i]` (R167). -/
def localEnergy (n : Num σ) (p : Plan σ) (r : Samples σ) (i : Nat) : σ :=
  n.sum (fun t => n.normSq (n.at r (i + t))) p.lp

/-- `m[i]` (R169). -/
def metric (n : Num σ) (p : Plan σ) (r : Samples σ) (i : Nat) : σ :=
  let e := localEnergy n p r i
  if n.Lt n.zero e then
    n.div (n.cabs (correlation n p r i)) (n.sqrt (n.mul (templateEnergy n p) e))
  else n.zero

/-- A position and its metric. -/
structure Candidate (σ : Type) where
  pos : Nat
  peak : σ
  deriving DecidableEq, Repr

/-- The least position of the greatest value of `f` at `0 .. k` (R171). -/
def argmax (n : Num σ) (f : Nat → σ) : Nat → Candidate σ
  | 0 => ⟨0, f 0⟩
  | k + 1 =>
    let best := argmax n f k
    let v := f (k + 1)
    if n.Lt best.peak v then ⟨k + 1, v⟩ else best

/-- `detect(r)` (R168, R171): positions 0 to `B - LP`. -/
def detect (n : Num σ) (p : Plan σ) (r : Samples σ) : Candidate σ := argmax n (metric n p r) (p.block - p.lp)

/-! ### Steps 2 and 3: window -/

/-- Window start `s` for a candidate (R173). -/
def windowStart (p : Plan σ) (istar : Nat) : Nat := istar + 2 * p.cpLen + 1

/-! ### Step 4: carrier-frequency offset -/

/-- `acc` (R181). -/
def cfoSum (n : Num σ) (w : Samples σ) : Cx σ :=
  n.csum (fun t => n.cmul (n.conj (n.at w t)) (n.at w (64 + t))) 63

/-- `cfo`, in cycles per sample (R181). -/
def estimateCfo (n : Num σ) (w : Samples σ) : σ :=
  n.div (n.angle (cfoSum n w)) (n.mul n.twoPi (n.int cfoDiv))

/-- `w'` (R182), over the `window` samples of the plan. -/
def compensate (n : Num σ) (p : Plan σ) (w : Samples σ) (cfo : σ) : Samples σ :=
  tabulate p.window fun t => n.cmul (n.at w t) (n.cexp (n.neg (n.mul (n.mul n.twoPi cfo) (n.int t))))

/-! ### Step 5: channel estimate -/

/-- `v` (R186). -/
def trainingEstimate (n : Num σ) (w' : Samples σ) (t : Nat) : Cx σ :=
  if t = 0 then n.at w' 63
  else n.cscale (n.div (n.int 1) (n.int 2)) (n.cadd (n.at w' (t - 1)) (n.at w' (63 + t)))

/-- `h` (R187, R188), 64 entries. -/
def estimateChannel (n : Num σ) (rom : Rom σ) (p : Plan σ) (w' : Samples σ) : List (Cx σ) :=
  let v := tabulate 64 (trainingEstimate n w')
  tabulate 64 fun k => if p.active.contains k then n.cdiv (n.fft (n.at v) k) (rom.tref k) else n.czero

/-! ### Step 6: per-symbol demodulation -/

/-- The body of symbol `i` (R190). -/
def symbolBody (n : Num σ) (p : Plan σ) (w' : Samples σ) (i t : Nat) : Cx σ :=
  n.at w' (127 + i * p.symLen + p.cpLen + t)

/-- `y` (R191, R192), 64 entries. -/
def equalise (n : Num σ) (p : Plan σ) (h : List (Cx σ)) (x : Nat → Cx σ) : List (Cx σ) :=
  let body := tabulate 64 x
  tabulate 64 fun k =>
    if p.active.contains k && !n.isZero (n.at h k) then n.cdiv (n.fft (n.at body) k) (n.at h k) else n.czero

/-- `phi` (R193), one phase per pilot. -/
def pilotPhases (n : Num σ) (rom : Rom σ) (p : Plan σ) (y : List (Cx σ)) : List σ :=
  p.pilot.map fun k => n.angle (n.cmul (n.at y k) (n.conj (rom.tref k)))

/-- One unwrapped step: `d` brought back by a turn where it lies beyond `π` or `-π` (R194). -/
def unwrapStep (n : Num σ) (d : σ) : σ :=
  let d := if n.Lt n.pi d then n.sub d n.twoPi else d
  if n.Lt d (n.neg n.pi) then n.add d n.twoPi else d

/-- The rest of `u` after the phase `prev`, whose unwrapped value is `u` (R194). -/
def unwrapFrom (n : Num σ) (prev u : σ) : List σ → List σ
  | [] => []
  | phi :: rest =>
    let next := n.add u (unwrapStep n (n.sub phi prev))
    next :: unwrapFrom n phi next rest

/-- `u` (R194). -/
def unwrap (n : Num σ) : List σ → List σ
  | [] => []
  | phi :: rest => phi :: unwrapFrom n phi phi rest

/-- A line `a*k + b`. -/
structure Line (σ : Type) where
  slope : σ
  intercept : σ
  deriving DecidableEq, Repr

/-- The least-squares line through the unwrapped pilot phases (R195): `xbar = 32`, divisor 1492. -/
def fitLine (n : Num σ) (p : Plan σ) (u : List σ) : Line σ :=
  let at' (t : Nat) : σ := u.getD t n.zero
  let ubar := n.div (n.sum at' 4) (n.int 4)
  let a := n.div
    (n.sum (fun t => n.mul (n.sub (n.int (p.pilot.getD t 0)) (n.int 32)) (n.sub (at' t) ubar)) 4) (n.int 1492)
  ⟨a, n.sub ubar (n.mul a (n.int 32))⟩

/-- `z[k]` (R196). -/
def phaseCorrect (n : Num σ) (l : Line σ) (y : List (Cx σ)) (k : Nat) : Cx σ :=
  n.cmul (n.at y k) (n.cexp (n.neg (n.add (n.mul l.slope (n.int k)) l.intercept)))

/-- The corrected subcarriers of one symbol body (R191 to R196). -/
def correctedSymbol (n : Num σ) (rom : Rom σ) (p : Plan σ) (h : List (Cx σ)) (x : Nat → Cx σ) :
    Nat → Cx σ :=
  let y := equalise n p h x
  let line := fitLine n p (unwrap n (pilotPhases n rom p y))
  phaseCorrect n line y

/-- BPSK slicer (R199); where the real part is 0 the bit is the free value `draw` (U1). -/
def slicer (n : Num σ) (draw : Nat) (z : Cx σ) : Bool :=
  if n.Lt n.zero z.re then true else if n.Lt z.re n.zero then false else draw % 2 = 1

/-- The indices whose points attain the least distance from `z` (R201). -/
def nearestSet (n : Num σ) (table : List (Cx σ)) (z : Cx σ) : List Nat :=
  let dist (q : Nat) : σ := n.normSq (n.csub z (n.at table q))
  (List.range table.length).filter fun q => (List.range table.length).all fun q' => !n.lt (dist q') (dist q)

/-- QAM demapper (R201): an index of `nearestSet`; among several the free value `draw` chooses (U2). -/
def demapIndex (n : Num σ) (table : List (Cx σ)) (draw : Nat) (z : Cx σ) : Nat :=
  let tied := nearestSet n table z
  tied.getD (draw % tied.length) 0

/-- The decided bits of one data subcarrier (R199, R201). -/
def decideBits (n : Num σ) (p : Plan σ) (draw : Nat) (z : Cx σ) : Bits :=
  if p.m = 2 then [slicer n draw z] else toBits p.bps (demapIndex n p.table draw z)

/-- `demod_symbol(w', h, i)` (R190 to R203); decision `t` of symbol `i` has the free value
`draw (i*dataCount + t)` (log 7). -/
def demodSymbol (n : Num σ) (rom : Rom σ) (p : Plan σ) (draw : Nat → Nat) (w' : Samples σ)
    (h : List (Cx σ)) (i : Nat) : Bits :=
  let z := correctedSymbol n rom p h (symbolBody n p w' i)
  concatMap p.dataCount fun t => decideBits n p (draw (i * p.dataCount + t)) (z (p.data.getD t 0))

/-- What the window decodes to. -/
structure Decoded (σ : Type) where
  bits : Bits
  cfo : σ
  deriving DecidableEq, Repr

/-- Steps 4 to 6 on one window (R160, R203). -/
def decodeWindow (n : Num σ) (rom : Rom σ) (p : Plan σ) (draw : Nat → Nat) (w : Samples σ) :
    Decoded σ :=
  let cfo := estimateCfo n w
  let w' := compensate n p w cfo
  let h := estimateChannel n rom p w'
  ⟨concatMap p.nsym (demodSymbol n rom p draw w' h), cfo⟩

/-- What `DEM.RUN` finds in the oldest block (R161): no frame; a frame that needs the next block; or a
window and how many blocks it consumes. -/
inductive Found (σ : Type) where
  | noFrame
  | needBlock
  | window (w : Samples σ) (blocks : Nat)
  deriving DecidableEq, Repr

/-- The threshold and the window of R160, R171, R174 and R175: `r` is the oldest block, `next?` the one after it. -/
def findWindow (n : Num σ) (p : Plan σ) (cand : Candidate σ) (r : Samples σ) (next? : Option (Samples σ)) : Found σ :=
  if n.Lt (detThreshold n) cand.peak then
    let s := windowStart p cand.pos
    if s + p.window ≤ p.block then .window (slice r s (s + p.window)) 1
    else match next? with
      | none => .needBlock
      | some r2 => .window (slice r s p.block ++ slice r2 0 (s + p.window - p.block)) 2
  else .noFrame

end Sys2Proof.Machine
end

