-- ==== Sys2Proof/Machine/Modulator.lean ====
section
/-! DEFINITION. The stages of the modulator (`41_modulator.md` R131 to R139). -/

namespace Sys2Proof.Machine

variable {σ : Type}

/-- Stages 1 and 2: `qam_map(pad_bits(bits))` (R131, R132); the padding counts `dataCount` bits for every order. -/
def modPoints (n : Num σ) (p : Plan σ) (bits : Bits) : List (Cx σ) := qamMap n p (padTo p.dataCount bits)

/-- Stage 4, `X_i[k]` (R134): the pilot reference, the data point of `k`'s ordinal (0 past the last), or 0. -/
def assemble (n : Num σ) (rom : Rom σ) (p : Plan σ) (points : List (Cx σ)) (i k : Nat) : Cx σ :=
  if p.pilot.contains k then rom.tref k
  else match p.data.idxOf? k with
    | some t => n.at points (i * p.dataCount + t)
    | none => n.czero

/-- Stage 5, `t_i` (R135, R136): the inverse transform behind its own last `cpLen` samples. -/
def symbolSamples (n : Num σ) (p : Plan σ) (X : Nat → Cx σ) : Samples σ :=
  let x := tabulate 64 (n.ifft X)
  slice x (64 - p.cpLen) 64 ++ x

/-- What `MOD.RUN` computes (R130). -/
structure ModResult (σ : Type) where
  /-- `nsymTx` (R133). -/
  symbols : Nat
  frame : Samples σ
  deriving DecidableEq, Repr

/-- The work of `MOD.RUN pre` on one message (R130, R133, R137, R138). -/
def modulate (n : Num σ) (rom : Rom σ) (p : Plan σ) (bits : Bits) (pre : Bool) : ModResult σ :=
  let points := modPoints n p bits
  let nsymTx := symbolsNeeded p points.length
  let frame := concatMap nsymTx fun i => symbolSamples n p (assemble n rom p points i)
  { symbols := nsymTx
    frame := if pre then p.preamble ++ frame else frame }

end Sys2Proof.Machine
end

