-- ==== Sys2Proof/Machine/Signal.lean ====
section
/-! DEFINITION. `MOD.RUN` and `DEM.RUN` (`41_modulator.md` R130, `42_demodulator.md` R160). -/

namespace Sys2Proof.Machine

variable {σ : Type}

/-- The work of `MOD.RUN pre` on the popped message `bits` (R130); `rest` is what stays in `MOD_IN`. -/
def modRunOn (c : Impl σ) (pre : Bool) (s : State σ) (p : Plan σ) (bits : Bits) (rest : List Bits) : State σ :=
  if bits.length = 0 then raiseConfigError { s with modIn := rest }
  else
    let out := modulate c.num c.rom p bits pre
    complete .ok
      { s with
        modIn := rest
        modOut := s.modOut ++ [out.frame]
        res := { s.res with modNsym := BitVec.ofNat 32 out.symbols, modLen := BitVec.ofNat 32 out.frame.length }
        cnt := { s.cnt with txFrames := s.cnt.txFrames + 1 } }

/-- `MOD.RUN pre` (R130), over any implementation. -/
def modRunOf (c : Impl σ) (pre : Bool) (s : State σ) : Result σ :=
  .next <| withPlan s fun p => withHead s c.depthModOut s.modOut s.modIn (modRunOn c pre s p)

/-- `MOD.RUN pre` of the machine. -/
def execModRun (pre : Bool) (s : State) : Result := modRunOf Config.impl pre s

/-- The free values of one `DEM.RUN`: its `k`-th draw is the block's next `k`-th (log 7). -/
def drawsFrom (c : Impl σ) (s : State σ) (k : Nat) : Nat := c.freeValue (s.draws + k)

/-- `RES[DEM_OFFSET] <- istar ; RES[DEM_PEAK] <- peak` (R160, R32). -/
def noteDetection (cand : Candidate σ) (s : State σ) : State σ :=
  { s with res := { s.res with demOffset := BitVec.ofNat 32 cand.pos, demPeak := cand.peak } }

/-- The work of `DEM.RUN` on the oldest block `r`, `rest` being the blocks after it (R160, R161). A decoded
frame has made `nsym*dataCount` decisions, each with a free value of its own. -/
def demRunOn (c : Impl σ) (s : State σ) (p : Plan σ) (r : Samples σ) (rest : List (Samples σ)) : State σ :=
  let cand := detect c.num p r
  let s1 := noteDetection cand s
  match findWindow c.num p cand r rest.head? with
  | .noFrame => complete .noFrameDetected { s1 with demIn := rest, demFound := false }
  | .needBlock => complete .needBlock s1
  | .window w blocks =>
    let out := decodeWindow c.num c.rom p (drawsFrom c s) w
    complete .ok
      { s1 with
        demIn := s.demIn.drop blocks
        demOut := s.demOut ++ [out.bits]
        res := { s1.res with demCfo := out.cfo }
        demFound := true
        draws := s.draws + p.nsym * p.dataCount }

/-- `DEM.RUN` (R160), over any implementation. -/
def demRunOf (c : Impl σ) (s : State σ) : Result σ :=
  .next <| withPlan s fun p =>
    if 2 < p.m ∧ c.demapQam = .refuse then raiseConfigError s
    else withHead s c.depthDemOut s.demOut s.demIn (demRunOn c s p)

/-- `DEM.RUN` of the machine. -/
def execDemRun (s : State) : Result := demRunOf Config.impl s

end Sys2Proof.Machine
end

