-- ==== Sys2Proof/Machine/Dispatch.lean ====
section
/-! DEFINITION. Which meaning each command has (`30_encoding.md` R85). -/

namespace Sys2Proof.Machine

def exec (i : Instr) (s : State) : Host.Outcome State Fault Refusal :=
  match i with
  | .nop => Sys2Proof.Machine.execNop s
  | .cfgWr field value => Sys2Proof.Machine.execCfgWr field value s
  | .planBuild => Sys2Proof.Machine.execPlanBuild s
  | .modRun pre => Sys2Proof.Machine.execModRun pre s
  | .demRun => Sys2Proof.Machine.execDemRun s
  | .fcsBuild seq => Sys2Proof.Machine.execFcsBuild seq s
  | .fcsCheck => Sys2Proof.Machine.execFcsCheck s
  | .resRd reg => Sys2Proof.Machine.execResRd reg s
  | .cntRd cnt => Sys2Proof.Machine.execCntRd cnt s
  | .cntClr => Sys2Proof.Machine.execCntClr s
  | .statRd => Sys2Proof.Machine.execStatRd s
  | .sreset => Sys2Proof.Machine.execSreset s

end Sys2Proof.Machine
end

