-- ==== Sys2Proof/WellFormed.lean ====
section
/-! DEFINITION. Which commands have a legal word: the index selects a used register (`30_encoding.md` R90). -/

namespace Sys2Proof

/-- The indices in use (`10_state.md` R24, R31, R37): CFG 0 to 7, RES 0 to 5, CNT 0 to 3. The other
operands (`value`, `pre`, `seq`) fill their fields and are legal at every value (R84). -/
def Instr.wellFormed : Instr → Bool
  | .cfgWr field _ => field.toNat < 8
  | .resRd reg => reg.toNat < 6
  | .cntRd cnt => cnt.toNat < 4
  | .nop => true
  | .planBuild => true
  | .modRun _ => true
  | .demRun => true
  | .fcsBuild _ => true
  | .fcsCheck => true
  | .cntClr => true
  | .statRd => true
  | .sreset => true

/-- A command whose index, where it has one, is in use. -/
abbrev Instr.WellFormed (i : Instr) : Prop := i.wellFormed = true

end Sys2Proof
end

