-- ==== Sys2Proof/Decode.lean ====
section
/-! DEFINITION. The command word: fields, decoder, encoder, opcode table (`30_encoding.md` R83 to R93). -/

namespace Sys2Proof

/-- Field `op`, bits 31:28 (R83). -/
def opField (w : Word) : BitVec 4 := w.extractLsb' 28 4

/-- Field `sub`, bits 27:24 (R83). -/
def subField (w : Word) : BitVec 4 := w.extractLsb' 24 4

/-- Field `imm`, bits 23:0 (R83). -/
def immField (w : Word) : BitVec 24 := w.extractLsb' 0 24

/-- Why a word is illegal (R90). -/
inductive Illegal where
  /-- `op` is 0x2, 0xD, 0xE or 0xF. -/
  | reservedOpcode
  /-- A field that R84 says must be 0 is not. -/
  | mustBeZero
  /-- `sub` selects an unused index (R51). -/
  | unusedIndex
  deriving DecidableEq, Repr

/-- Where every bit under `rest` must be 0 (R84), the command `i`. -/
def whenZero {k : Nat} (rest : BitVec k) (i : Instr) : Except Illegal Instr :=
  if rest = 0 then .ok i else .error .mustBeZero

/-- Where `sub` selects an index in use and `imm` is 0, the read-out command `i` (R84, R90). -/
def whenIndex (used : Nat) (sub : BitVec 4) (imm : BitVec 24) (i : Instr) : Except Illegal Instr :=
  if sub.toNat < used then whenZero imm i else .error .unusedIndex

/-- The decoder, total on words: a command, or the reason of R90. -/
def decode (w : Word) : Except Illegal Instr :=
  let sub := subField w
  let imm := immField w
  match (opField w).toNat with
  | 0x0 => whenZero (sub ++ imm) .nop
  | 0x1 => if sub.toNat < 8 then .ok (.cfgWr sub imm) else .error .unusedIndex
  | 0x3 => whenZero (sub ++ imm) .planBuild
  | 0x4 => whenZero (sub.extractLsb' 1 3 ++ imm) (.modRun (sub.getLsbD 0))
  | 0x5 => whenZero (sub ++ imm) .demRun
  | 0x6 => whenZero (sub ++ imm.extractLsb' 16 8) (.fcsBuild (imm.extractLsb' 0 16))
  | 0x7 => whenZero (sub ++ imm) .fcsCheck
  | 0x8 => whenIndex 6 sub imm (.resRd sub)
  | 0x9 => whenIndex 4 sub imm (.cntRd sub)
  | 0xA => whenZero (sub ++ imm) .cntClr
  | 0xB => whenZero (sub ++ imm) .statRd
  | 0xC => whenZero (sub ++ imm) .sreset
  | _ => .error .reservedOpcode

/-- A word from its three fields (R83). -/
def packWord (op sub : BitVec 4) (imm : BitVec 24) : Word := op ++ sub ++ imm

/-- The word of a command (R85, R93). -/
def encode : Instr → Word
  | .nop => packWord 0x0 0 0
  | .cfgWr field value => packWord 0x1 field value
  | .planBuild => packWord 0x3 0 0
  | .modRun pre => packWord 0x4 (0b000#3 ++ BitVec.ofBool pre) 0
  | .demRun => packWord 0x5 0 0
  | .fcsBuild seq => packWord 0x6 0 (0x00#8 ++ seq)
  | .fcsCheck => packWord 0x7 0 0
  | .resRd reg => packWord 0x8 reg 0
  | .cntRd cnt => packWord 0x9 cnt 0
  | .cntClr => packWord 0xA 0 0
  | .statRd => packWord 0xB 0 0
  | .sreset => packWord 0xC 0 0

/-- The command a word of the opcode table stands for. The table's rows have 32 bits (R92), numbered
as the word's own bits; a number that is no 32-bit word is no command. -/
def decodeTableWord (nbits w : Nat) : Option Instr :=
  if nbits ≤ 32 ∧ w < 2 ^ 32 then (decode (BitVec.ofNat 32 w)).toOption else none

/-- A row's mask and match of `opcode_table.json`: a word of the row has the bits `bits` under `mask`. -/
structure OpcodeRow where
  mask : Word
  bits : Word
  deriving DecidableEq, Repr

/-- The row of a command in `opcode_table.json`. -/
def opcodeRow : Instr → OpcodeRow
  | .nop => ⟨0xFFFFFFFF, 0x00000000⟩
  | .cfgWr _ _ => ⟨0xF8000000, 0x10000000⟩
  | .planBuild => ⟨0xFFFFFFFF, 0x30000000⟩
  | .modRun _ => ⟨0xFEFFFFFF, 0x40000000⟩
  | .demRun => ⟨0xFFFFFFFF, 0x50000000⟩
  | .fcsBuild _ => ⟨0xFFFF0000, 0x60000000⟩
  | .fcsCheck => ⟨0xFFFFFFFF, 0x70000000⟩
  | .resRd _ => ⟨0xF0FFFFFF, 0x80000000⟩
  | .cntRd _ => ⟨0xFCFFFFFF, 0x90000000⟩
  | .cntClr => ⟨0xFFFFFFFF, 0xA0000000⟩
  | .statRd => ⟨0xFFFFFFFF, 0xB0000000⟩
  | .sreset => ⟨0xFFFFFFFF, 0xC0000000⟩

/-- The twelve rows of `opcode_table.json`, in its order. -/
def opcodeTable : List OpcodeRow :=
  [.nop, .cfgWr 0 0, .planBuild, .modRun false, .demRun, .fcsBuild 0, .fcsCheck, .resRd 0, .cntRd 0,
   .cntClr, .statRd, .sreset].map opcodeRow

/-- A word is of a row. -/
def OpcodeRow.matchesWord (r : OpcodeRow) (w : Word) : Bool := w &&& r.mask = r.bits

end Sys2Proof
end

