-- ==== Sys2Proof/Machine/HostMoves.lean ====
section
/-! DEFINITION. The host's moves (`45_control_ops.md` R240, `20_memory.md` R53 to R57). A move writes no register. -/

namespace Sys2Proof.Machine

variable {σ : Type}

/-- `push MOD_IN, b` (R53). -/
def pushModIn (c : Impl σ) (b : Bits) (s : State σ) : Result σ :=
  if s.modIn.length < c.depthModIn then .next { s with modIn := s.modIn ++ [b] } else .fault .pushModInFull

/-- `push FCS_IN, b` (R53). -/
def pushFcsIn (c : Impl σ) (b : Bits) (s : State σ) : Result σ :=
  if s.fcsIn.length < c.depthFcsIn then .next { s with fcsIn := s.fcsIn ++ [b] } else .fault .pushFcsInFull

/-- A push to a drop-oldest FIFO (R56): when it is full the oldest message goes first. -/
def pushDropOldest {α : Type} (capacity : Nat) (fifo : List α) (msg : α) : List α :=
  if capacity ≤ fifo.length then fifo.tail ++ [msg] else fifo ++ [msg]

/-- `push DEM_IN, v` (R55, R56): only in `READY`, only of `PLAN.block` samples, all finite numbers
(`70_reset_and_hazards.md` R290). -/
def pushDemIn (c : Impl σ) (v : Samples σ) (s : State σ) : Result σ :=
  match s.phase, s.plan with
  | .ready, some p =>
    if v.length = p.block then
      if v.all c.num.isFinite then .next { s with demIn := pushDropOldest c.iqDepth s.demIn v }
      else .fault .pushDemInNotFinite
    else .fault .pushDemInWrongLength
  | _, _ => .fault .pushDemInNotReady

/-- `pop MOD_OUT` (R57). -/
def popModOut (s : State σ) : Result σ :=
  match s.modOut with
  | [] => .fault .popModOutEmpty
  | v :: rest => .next { s with modOut := rest, popped := some (.samples v) }

/-- `pop DEM_OUT` (R57). -/
def popDemOut (s : State σ) : Result σ :=
  match s.demOut with
  | [] => .fault .popDemOutEmpty
  | b :: rest => .next { s with demOut := rest, popped := some (.bits b) }

/-- `pop FCS_OUT` (R57). -/
def popFcsOut (s : State σ) : Result σ :=
  match s.fcsOut with
  | [] => .fault .popFcsOutEmpty
  | b :: rest => .next { s with fcsOut := rest, popped := some (.bits b) }

/-- `pop F` (R57). -/
def popOut (f : OutFifo) (s : State σ) : Result σ :=
  match f with
  | .modOut => popModOut s
  | .demOut => popDemOut s
  | .fcsOut => popFcsOut s

end Sys2Proof.Machine
end

