-- ==== Sys2Proof/Machine/Issue.lean ====
section
/-! DEFINITION. Taking one host action: a command word is decoded and executed, a move is made (`00_scope.md` R19).
`run` is what executes a command. -/

namespace Sys2Proof.Machine

variable {σ : Type}

/-- A command word at the command port: legality first (`60_exceptions.md` R256), an illegal word completes
ILLEGAL_COMMAND in every phase and changes nothing else (`30_encoding.md` R90). -/
def issueWord (run : Instr → State σ → Result σ) (w : Word) (s : State σ) : Result σ :=
  match decode w with
  | .ok i => run i s
  | .error _ => .next (complete .illegalCommand s)

/-- One host action (R19, R240, R280). -/
def takeAction (c : Impl σ) (run : Instr → State σ → Result σ) (a : HostAction σ) (s : State σ) : Result σ :=
  match a with
  | .command w => issueWord run w s
  | .pushModIn b => pushModIn c b s
  | .pushFcsIn b => pushFcsIn c b s
  | .pushDemIn v => pushDemIn c v s
  | .pop f => popOut f s
  | .resetInput => .next (resetBlock c.num.zero s)

/-- The next action of the port, taken away from it; with none the block keeps its state (`60_exceptions.md` R275). -/
def takeNext (c : Impl σ) (run : Instr → State σ → Result σ) (s : State σ) : Result σ :=
  match s.port with
  | [] => .next s
  | a :: rest => takeAction c run a { s with port := rest }

/-- A command word put in front of the port, so that it is the next action (log 8). -/
def offerWord (w : Word) (s : State σ) : State σ := { s with port := .command w :: s.port }

end Sys2Proof.Machine
end

