-- ==== Sys2Proof/Machine/Step.lean ====
section
/-! DEFINITION. One step: the block takes the next host action (`00_scope.md` R19). -/

namespace Sys2Proof.Machine

/-- One step of the block and its host. -/
def step (s : State) : Host.Outcome State Fault Refusal := takeNext Config.impl exec s

/-- `s` with the word `w` of the opcode table where the next step takes its command: at the head of the
command port. A command is one 32-bit word (R92), so `nbits` adds nothing. -/
def State.withFetchWord (s : State) (nbits w : Nat) : State :=
  let _ := nbits
  offerWord (BitVec.ofNat 32 w) s

end Sys2Proof.Machine
end

