-- ==== Sys2Proof/Machine/Block.lean ====
section
/-! DEFINITION. The whole block over any implementation, its number format included (`00_scope.md` R8, R10): the
machine of the opcode table is the block over `Config.impl`, the reference block one over the real numbers. -/

namespace Sys2Proof.Machine

variable {σ : Type}

/-- Every command (`30_encoding.md` R85), over any implementation. -/
def execOf (c : Impl σ) (i : Instr) (s : State σ) : Result σ :=
  match i with
  | .nop => execNop s
  | .cfgWr field value => execCfgWr field value s
  | .planBuild => planBuildOf c s
  | .modRun pre => modRunOf c pre s
  | .demRun => demRunOf c s
  | .fcsBuild seq => fcsBuildOf c seq s
  | .fcsCheck => fcsCheckOf c s
  | .resRd reg => execResRd reg s
  | .cntRd cnt => execCntRd cnt s
  | .cntClr => execCntClr s
  | .statRd => execStatRd s
  | .sreset => sresetOf c s

/-- One step of the block and its host, over any implementation. -/
def stepOf (c : Impl σ) (s : State σ) : Result σ := takeNext c (execOf c) s

end Sys2Proof.Machine
end

