-- ==== Sys2Proof/Machine/Reference.lean ====
section
/-! DEFINITION. The reference instance of `NUM`, exact real arithmetic (`00_scope.md` R10), the default constant
tables (`93_implementation_defined.md` G1, G2), and the reference implementation over them. -/

namespace Sys2Proof

/-- The reference instance: the real numbers (R10). `atan2 y x` is the argument in `(-π, π]` (R13). -/
noncomputable def realNum : Num ℝ where
  add := fun a b => a + b
  sub := fun a b => a - b
  mul := fun a b => a * b
  div := fun a b => a / b
  sqrt := Real.sqrt
  cos := Real.cos
  sin := Real.sin
  atan2 := fun y x => Complex.arg ⟨x, y⟩
  lt := fun a b => decide (a < b)
  eq := fun a b => decide (a = b)
  finite := fun _ => true
  pi := Real.pi
  ofRat := fun q => (q : ℝ)

/-- A complex number of the reference instance as a Mathlib complex number. -/
def Cx.toComplex (z : Cx ℝ) : ℂ := ⟨z.re, z.im⟩

variable {σ : Type}

/-- `L` of G1 at the indices 0 to 63. -/
def defaultTrefValues : List Int :=
  [0, 1, -1, -1, 1, 1, -1, 1, -1, 1, -1, -1, -1, -1, -1, 1,
   1, -1, -1, 1, -1, 1, -1, 1, 1, 1, 1, 0, 0, 0, 0, 0,
   0, 0, 0, 0, 0, 0, 1, 1, -1, -1, 1, 1, -1, 1, -1, 1,
   1, 1, 1, 1, 1, -1, -1, 1, 1, -1, 1, -1, 1, 1, 1, 1]

/-- The default `TREF` (G1). -/
def defaultTref (n : Num σ) (k : Nat) : Cx σ := ⟨n.int (defaultTrefValues.getD k 0), n.zero⟩

/-- The signs of `S` in G2 at the indices of `[0,64)`; `S(k) = sign * sqrt(13/6) * (1+j)`. -/
def defaultShortSign (k : Nat) : Int :=
  if k ∈ [12, 16, 20, 24, 40, 48, 60] then 1
  else if k ∈ [4, 8, 44, 52, 56] then -1
  else 0

/-- The short training symbol of G2 in the frequency domain. -/
def defaultShort (n : Num σ) (k : Nat) : Cx σ :=
  let v := n.mul (n.int (defaultShortSign k)) (n.sqrt (n.ofRat (13 / 6)))
  ⟨v, v⟩

/-- The default tables (G1, G2): `LTS_T = IFFT(TREF)`, `STS16` the first period of the short symbol. -/
def defaultRom (n : Num σ) : Rom σ :=
  { tref := defaultTref n
    ltsT := n.ifft (defaultTref n)
    sts16 := n.ifft (defaultShort n) }

/-- The reference implementation: exact real arithmetic, the default tables, and the capacities, options and free
values of the machine. `State ℝ`, `execOf realImpl` and `stepOf realImpl` are the reference block (R10, log 1). -/
noncomputable def realImpl : Impl ℝ where
  num := realNum
  rom := defaultRom realNum
  qmax := Config.qmax
  demapQam := Config.demapQam
  depthModIn := Config.depthModIn
  depthModOut := Config.depthModOut
  iqDepth := Config.iqDepth
  depthDemOut := Config.depthDemOut
  depthFcsIn := Config.depthFcsIn
  depthFcsOut := Config.depthFcsOut
  freeValue := Config.freeValue

end Sys2Proof
end

