-- ==== Sys2Proof/Safety.lean ====
section
/-! DEFINITION. What claims are stated in: a sound plan (`10_state.md` R26, R27), the invariant of the block, and
the words for what a command leaves alone. -/

namespace Sys2Proof.Machine

/-- The data subcarriers in order (`30_encoding.md` R75, `40_plan_config.md` R106). -/
def dataIndices : List Nat :=
  [1, 2, 3, 4, 5, 6, 8, 9, 10, 11, 12, 13, 14, 15, 16, 17, 18, 19, 20, 22, 23, 24, 25, 26,
   38, 39, 40, 41, 42, 44, 45, 46, 47, 48, 49, 50, 51, 52, 53, 54, 55, 56, 58, 59, 60, 61, 62, 63]

/-- The null subcarriers in order (R75, R105, R106). -/
def nullIndices : List Nat := [0, 27, 28, 29, 30, 31, 32, 33, 34, 35, 36, 37]

/-- What R26 and R102 say of every committed plan, the numbers of its tables apart. -/
structure Plan.Sound {σ : Type} (p : Plan σ) : Prop where
  size_eq : p.size = 64
  cpLen_le : p.cpLen ≤ 32
  symLen_eq : p.symLen = 64 + p.cpLen
  order : (p.m = 2 ∧ p.bps = 1) ∨ ∃ q, 1 ≤ q ∧ p.m = 4 ^ q ∧ p.bps = 2 * q
  nsym_pos : 1 ≤ p.nsym
  payload_pos : 1 ≤ p.payload
  arq_le : p.arq ≤ 1
  lp_eq : p.lp = 2 * p.cpLen + 128
  window_eq : p.window = 2 * 64 + p.nsym * p.symLen - 1
  frameBits_eq : p.frameBits = (if p.arq = 1 then 16 else 0) + p.payload + 32
  block_ge : p.lp + p.nsym * p.symLen ≤ p.block
  block_lt : p.block < 2 ^ 24
  pilot_eq : p.pilot = [7, 21, 43, 57]
  data_eq : p.data = dataIndices
  null_eq : p.null = nullIndices
  active_eq : p.active = activeIndices
  dataCount_eq : p.dataCount = 48
  pilotCount_eq : p.pilotCount = 4
  table_length : p.table.length = p.m
  preamble_length : p.preamble.length = 160 + p.lp
  longSection_eq : p.longSection = p.preamble.drop 160

/-- The messages of the FIFOs have the lengths their commands and moves give them (`10_state.md` R30,
`20_memory.md` R55, `41_modulator.md` R140, `42_demodulator.md` R203, `43_frame_validator.md` R216, R218). -/
structure State.MessagesFit (s : State) (p : Plan Scalar) : Prop where
  demIn : ∀ v ∈ s.demIn, v.length = p.block
  demOut : ∀ b ∈ s.demOut, b.length = p.nsym * 48 * p.bps
  fcsOut : ∀ b ∈ s.fcsOut, b.length = p.frameBits ∨ b.length = p.payload
  modOut : ∀ v ∈ s.modOut, ∃ k, v.length = k * p.symLen ∨ v.length = (160 + p.lp) + k * p.symLen

/-- The invariant of the block: phase and plan agree (R21), a plan is sound, no FIFO is over its
capacity (R52 to R56), without a plan the FIFOs that need one are empty, messages fit the plan, and the
receive counters add up modulo 2^32 (R37). -/
structure State.Inv (s : State) : Prop where
  ready_plan : s.phase = .ready → s.plan ≠ none
  unconfigured_plan : s.phase = .unconfigured → s.plan = none
  plan_sound : ∀ p, s.plan = some p → p.Sound
  modIn_le : s.modIn.length ≤ Config.depthModIn
  modOut_le : s.modOut.length ≤ Config.depthModOut
  demIn_le : s.demIn.length ≤ Config.iqDepth
  demOut_le : s.demOut.length ≤ Config.depthDemOut
  fcsIn_le : s.fcsIn.length ≤ Config.depthFcsIn
  fcsOut_le : s.fcsOut.length ≤ Config.depthFcsOut
  no_plan_empty : s.plan = none → s.demIn = [] ∧ s.modOut = [] ∧ s.demOut = [] ∧ s.fcsOut = []
  messages_fit : ∀ p, s.plan = some p → s.MessagesFit p
  counters_add : s.cnt.rxTotal = s.cnt.rxOk + s.cnt.rxBad

/-- `s` after a completion that does nothing else: `code`, value 0, `STATUS.LAST`. -/
def State.completed {σ : Type} (s : State σ) (code : Code) : State σ :=
  { s with last := code, response := some ⟨code, .int 0⟩ }

/-- Every piece of state at the reset value the spec gives it (`10_state.md` R39, `70_reset_and_hazards.md` R280). -/
structure State.AtResetValues (s : State) : Prop where
  phase : s.phase = .unconfigured
  cfg : s.cfg = ⟨none, none, none, none, none, none, none, none⟩
  plan : s.plan = none
  status : statusWord s = 0
  res : s.res = ⟨0, 0, 0, Config.num.zero, Config.num.zero, 0⟩
  cnt : s.cnt = ⟨0, 0, 0, 0⟩
  modIn : s.modIn = []
  modOut : s.modOut = []
  demIn : s.demIn = []
  demOut : s.demOut = []
  fcsIn : s.fcsIn = []
  fcsOut : s.fcsOut = []

/-- The four commands that work on the plan (`20_memory.md` R66). -/
def processing : Instr → Bool
  | .modRun _ => true
  | .demRun => true
  | .fcsBuild _ => true
  | .fcsCheck => true
  | .nop => false
  | .cfgWr _ _ => false
  | .planBuild => false
  | .resRd _ => false
  | .cntRd _ => false
  | .cntClr => false
  | .statRd => false
  | .sreset => false

/-- The rows of `60_exceptions.md` R257: which codes a command can return. -/
def allowedCodes : Instr → List Code
  | .nop => [.ok]
  | .cfgWr _ _ => [.ok, .configError, .illegalCommand]
  | .planBuild => [.ok, .configError, .illegalCommand]
  | .modRun _ => [.ok, .configError, .buffer]
  | .demRun => [.ok, .configError, .noFrameDetected, .needBlock, .buffer]
  | .fcsBuild _ => [.ok, .configError, .buffer]
  | .fcsCheck => [.ok, .configError, .frameIntegrityError, .buffer]
  | .resRd _ => [.ok, .illegalCommand]
  | .cntRd _ => [.ok, .illegalCommand]
  | .cntClr => [.ok, .configError]
  | .statRd => [.ok]
  | .sreset => [.ok]

/-- The conditions of `40_plan_config.md` R102 on written registers, as the rule writes them. -/
def CfgValues.Legal (qmax : Nat) (v : CfgValues) : Prop :=
  v.n = 64 ∧ v.pilot = 0 ∧ v.cplen ≤ 32 ∧ (v.qam = 2 ∨ ∃ q, 1 ≤ q ∧ q ≤ qmax ∧ v.qam = 4 ^ q) ∧
    v.nsym ≠ 0 ∧ v.payload ≠ 0 ∧ v.arq ≤ 1 ∧
    2 * v.cplen + 128 + v.nsym * (64 + v.cplen) ≤ v.block

end Sys2Proof.Machine
end

