-- ==== Sys2Proof/Certificates/Slice0/Obligations.lean ====
section
/-! DEFINITION. The statements about the model, for the provers. Machine states range over every state; numbers
are stated in exact arithmetic (`realNum`, the reference instance of `00_scope.md` R10) or for every format. -/

open Sys2Proof Sys2Proof.Machine

/-! ### The command word -/

/-- R83, R84, R85: the decoder reads every well-formed command back from its word, with every operand. -/
def Obligations.DecodeOfEncodeGivesTheCommand : Prop :=
  ∀ i : Instr, i.WellFormed → decode (encode i) = .ok i

/-- R83, R84, R85: a word that decodes is the one word of its command, and its index is in use. -/
def Obligations.EncodeOfDecodeGivesTheWord : Prop :=
  ∀ (w : Word) (i : Instr), decode w = .ok i → i.WellFormed ∧ encode i = w

/-- R90, R51: exactly which words are illegal, and all that an illegal word does, in every phase. -/
def Obligations.IllegalWordsAndTheirEffect : Prop :=
  ∀ (w : Word) (s : State) (rest : List HostAction),
    let op := (opField w).toNat
    let sub := (subField w).toNat
    let imm := (immField w).toNat
    let illegal :=
      op ∈ [0x2, 0xD, 0xE, 0xF] ∨
      (op ∈ [0x0, 0x3, 0x5, 0x7, 0xA, 0xB, 0xC] ∧ (sub ≠ 0 ∨ imm ≠ 0)) ∨
      (op = 0x1 ∧ 8 ≤ sub) ∨
      (op = 0x4 ∧ (2 ≤ sub ∨ imm ≠ 0)) ∨
      (op = 0x6 ∧ (sub ≠ 0 ∨ 65536 ≤ imm)) ∨
      (op = 0x8 ∧ (6 ≤ sub ∨ imm ≠ 0)) ∨
      (op = 0x9 ∧ (4 ≤ sub ∨ imm ≠ 0))
    ((decode w).toOption = none ↔ illegal) ∧
    (illegal → step { s with port := .command w :: rest } =
      .next { s with port := rest, last := .illegalCommand, response := some ⟨.illegalCommand, .int 0⟩ })

/-- R93 and the words E1 to E35 of `95_test_vectors.md`: words written out from the encoding. -/
def Obligations.ListedWordsDecodeAsListed : Prop :=
  decode 0x00000000 = .ok .nop ∧
  decode 0x11000010 = .ok (.cfgWr 1 16) ∧
  decode 0x17FFFFFF = .ok (.cfgWr 7 16777215) ∧
  decode 0x30000000 = .ok .planBuild ∧
  decode 0x40000000 = .ok (.modRun false) ∧
  decode 0x41000000 = .ok (.modRun true) ∧
  decode 0x50000000 = .ok .demRun ∧
  decode 0x6000FFFF = .ok (.fcsBuild 65535) ∧
  decode 0x70000000 = .ok .fcsCheck ∧
  decode 0x83000000 = .ok (.resRd 3) ∧
  decode 0x93000000 = .ok (.cntRd 3) ∧
  decode 0xA0000000 = .ok .cntClr ∧
  decode 0xB0000000 = .ok .statRd ∧
  decode 0xC0000000 = .ok .sreset ∧
  decode 0x18000000 = .error .unusedIndex ∧
  decode 0x42000000 = .error .mustBeZero ∧
  decode 0x60010000 = .error .mustBeZero ∧
  decode 0x94000000 = .error .unusedIndex ∧
  decode 0xD0000000 = .error .reservedOpcode

/-! ### The step -/

/-- R19, R22: a step takes the next host action; a word that decodes runs its command; with no action the block keeps
its state (R275). That the host's actions stand in a queue of State is the model's choice (log 8). The machine is the
block over its own implementation (R8, R10; log 1), as the reference block is the same block over the real numbers. -/
def Obligations.StepRunsTheDecodedCommand : Prop :=
  (∀ (s : State) (rest : List HostAction) (w : Word) (i : Instr), decode w = .ok i →
    step { s with port := .command w :: rest } = exec i { s with port := rest }) ∧
  (∀ s : State, s.port = [] → step s = .next s) ∧
  (∀ (i : Instr) (s : State), exec i s = execOf Config.impl i s) ∧
  ∀ s : State, step s = stepOf Config.impl s

/-! ### Control and read-out commands -/

/-- R230. -/
def Obligations.NopCompletes : Prop :=
  ∀ s : State, exec .nop s = .next { s with last := .ok, response := some ⟨.ok, .int 0⟩ }

/-- R233, with the fields of R23: the value read, and nothing written but the response. -/
def Obligations.StatRdReturnsTheStatusFields : Prop :=
  ∀ s : State, ∃ v : BitVec 32, exec .statRd s = .next { s with response := some ⟨.ok, .int v⟩ } ∧
    v.extractLsb' 0 2 = (match s.phase with | .unconfigured => 0#2 | .ready => 1#2 | .fatal => 2#2) ∧
    v.getLsbD 2 = s.demFound ∧
    v.getLsbD 3 = s.fcsOk ∧
    v.extractLsb' 4 4 = (match s.last with
      | .ok => 0#4 | .configError => 1#4 | .frameIntegrityError => 2#4 | .noFrameDetected => 3#4
      | .needBlock => 4#4 | .buffer => 5#4 | .illegalCommand => 6#4) ∧
    v.extractLsb' 8 24 = 0#24

/-- R234: the six registers by index; an unused index is an illegal command. -/
def Obligations.ResRdReturnsTheRegister : Prop :=
  ∀ (s : State) (reg : BitVec 4),
    let ok (v : Value) : Result := .next { s with last := .ok, response := some ⟨.ok, v⟩ }
    exec (.resRd reg) s =
      if reg = 0 then ok (.int s.res.modNsym)
      else if reg = 1 then ok (.int s.res.modLen)
      else if reg = 2 then ok (.int s.res.demOffset)
      else if reg = 3 then ok (.real s.res.demPeak)
      else if reg = 4 then ok (.real s.res.demCfo)
      else if reg = 5 then ok (.int (s.res.fcsSeq.setWidth 32))
      else .next (s.completed .illegalCommand)

/-- R235: the four counters by index; an unused index is an illegal command. -/
def Obligations.CntRdReturnsTheCounter : Prop :=
  ∀ (s : State) (cnt : BitVec 4),
    let ok (v : BitVec 32) : Result := .next { s with last := .ok, response := some ⟨.ok, .int v⟩ }
    exec (.cntRd cnt) s =
      if cnt = 0 then ok s.cnt.txFrames
      else if cnt = 1 then ok s.cnt.rxTotal
      else if cnt = 2 then ok s.cnt.rxOk
      else if cnt = 3 then ok s.cnt.rxBad
      else .next (s.completed .illegalCommand)

/-- R236. -/
def Obligations.CntClrClearsTheCounters : Prop :=
  ∀ s : State,
    (s.phase = .fatal → exec .cntClr s = .next (s.completed .configError)) ∧
    (s.phase ≠ .fatal → exec .cntClr s = .next { s.completed .ok with cnt := ⟨0, 0, 0, 0⟩ })

/-- R237, R280, R39: the reset state; `SRESET`, from every phase; and the reset input. Each leaves every piece of
the spec's state at its reset value. -/
def Obligations.BothResetsGiveTheResetValues : Prop :=
  State.reset.AtResetValues ∧
  (∀ s : State, ∃ t, exec .sreset s = .next t ∧ t.AtResetValues ∧ t.response = some ⟨.ok, .int 0⟩) ∧
  ∀ (s : State) (rest : List HostAction), ∃ t, step { s with port := .resetInput :: rest } = .next t ∧ t.AtResetValues

/-- What the control and read-out commands leave alone. That `SRESET` keeps the host's actions to come and the
count of free values is the model's choice (logs 7 and 8). -/
def Obligations.ControlCommandsFrame : Prop :=
  ∀ (i : Instr) (s t : State), exec i s = .next t →
    ((i = .nop ∨ (∃ reg, i = .resRd reg) ∨ ∃ cnt, i = .cntRd cnt) →
      t = { s with last := t.last, response := t.response }) ∧
    (i = .statRd → t = { s with response := t.response }) ∧
    (i = .cntClr → t = { s with cnt := t.cnt, last := t.last, response := t.response }) ∧
    (i = .sreset → t.port = s.port ∧ t.draws = s.draws)

/-! ### Configuration -/

/-- R100. -/
def Obligations.CfgWrFollowsItsRule : Prop :=
  ∀ (field : BitVec 4) (value : BitVec 24) (s : State),
    (8 ≤ field.toNat → exec (.cfgWr field value) s = .next (s.completed .illegalCommand)) ∧
    (field.toNat < 8 → s.phase = .fatal → exec (.cfgWr field value) s = .next (s.completed .configError)) ∧
    (field.toNat < 8 → s.phase = .ready → exec (.cfgWr field value) s = .next (s.completed .illegalCommand)) ∧
    (field.toNat < 8 → s.phase = .unconfigured → ∃ cfg : CfgFile,
      exec (.cfgWr field value) s = .next { s.completed .ok with cfg := cfg } ∧
      cfg.read field = some value ∧ ∀ f : BitVec 4, f ≠ field → cfg.read f = s.cfg.read f)

/-- R102 with the record of R26: in `UNCONFIGURED`, a legal configuration gives the plan and `READY`, any other
raises ConfigError; in the other phases the command is turned away. -/
def Obligations.PlanBuildFollowsItsRule : Prop :=
  ∀ s : State,
    (s.phase = .fatal → exec .planBuild s = .next (s.completed .configError)) ∧
    (s.phase = .ready → exec .planBuild s = .next (s.completed .illegalCommand)) ∧
    (s.phase = .unconfigured →
      (∃ f : BitVec 4, f.toNat < 8 ∧ s.cfg.read f = none) →
      exec .planBuild s = .next { s.completed .configError with phase := .fatal }) ∧
    (s.phase = .unconfigured → ∀ n cplen qam pilot nsym payload arq block : BitVec 24,
      s.cfg = ⟨some n, some cplen, some qam, some pilot, some nsym, some payload, some arq, some block⟩ →
      let v : CfgValues := ⟨n.toNat, cplen.toNat, qam.toNat, pilot.toNat, nsym.toNat, payload.toNat, arq.toNat,
        block.toNat⟩
      (¬ v.Legal Config.qmax → exec .planBuild s = .next { s.completed .configError with phase := .fatal }) ∧
      (v.Legal Config.qmax → ∃ p : Plan Scalar,
        exec .planBuild s = .next { s.completed .ok with plan := some p, phase := .ready } ∧
        p.Sound ∧ p.cpLen = v.cplen ∧ p.m = v.qam ∧ p.nsym = v.nsym ∧ p.payload = v.payload ∧ p.arq = v.arq ∧
        p.block = v.block ∧ p.table = constellation Config.num v.qam ∧
        p.preamble = rep (tabulate 16 Config.rom.sts16) 10 ++
          tabulate (2 * v.cplen) (fun t => Config.rom.ltsT (64 - 2 * v.cplen + t)) ++
          tabulate 64 Config.rom.ltsT ++ tabulate 64 Config.rom.ltsT ∧
        ∀ k < 64, k ∈ p.active ↔ Config.num.isZero (Config.rom.tref k) = false))

/-- What the configuration commands leave alone. -/
def Obligations.ConfigurationCommandsFrame : Prop :=
  ∀ (s t : State),
    (∀ (field : BitVec 4) (value : BitVec 24), exec (.cfgWr field value) s = .next t →
      t = { s with cfg := t.cfg, last := t.last, response := t.response } ∧
      ∀ f : BitVec 4, f ≠ field → t.cfg.read f = s.cfg.read f) ∧
    (exec .planBuild s = .next t →
      t = { s with phase := t.phase, plan := t.plan, last := t.last, response := t.response } ∧
      (t.last ≠ .ok → t.plan = s.plan))

/-- R27, for every number format, table and configuration: pilot, data and null subcarriers are each of
`[0,64)` once, and the counts are those of the plan. -/
def Obligations.PlanPartitionsTheSubcarriers : Prop :=
  ∀ (σ : Type) (n : Num σ) (rom : Rom σ) (v : CfgValues),
    let p := buildPlan n rom v
    (p.pilot ++ p.data ++ p.null).Perm (List.range 64) ∧
    p.pilotCount = p.pilot.length ∧ p.dataCount = p.data.length

/-- R110, R111, R28: the BPSK table, and for `m = 4^q` the point of the `i`-th cell of the traversal at the
`i`-th Gray word. -/
def Obligations.ConstellationFollowsTheTraversal : Prop :=
  ∀ (σ : Type) (n : Num σ),
    constellation n 2 = [⟨n.int (-1), n.zero⟩, ⟨n.int 1, n.zero⟩] ∧
    ∀ q : Nat, 1 ≤ q →
      let s : Nat := 2 ^ q
      (constellation n (4 ^ q)).length = 4 ^ q ∧
      ∀ i < 4 ^ q,
        let r : Nat := i / s
        let c : Nat := if r % 2 = 0 then i % s else s - 1 - i % s
        (constellation n (4 ^ q))[i ^^^ (i >>> 1)]? = some
          ⟨n.div (n.int (2 * (c : Int) - ((s : Int) - 1))) (n.int ((s : Int) - 1)),
           n.div (n.int (2 * (r : Int) - ((s : Int) - 1))) (n.int ((s : Int) - 1))⟩

/-- Nearest neighbours on the grid, in a row or in a column, have indices that differ in one bit: R112, which the
spec marks as derived from R111. -/
def Obligations.GridNeighboursDifferInOneBit : Prop :=
  ∀ q i i' : Nat, 1 ≤ q → i < 4 ^ q → i' < 4 ^ q →
    let s : Nat := 2 ^ q
    let row (x : Nat) := x / s
    let col (x : Nat) := if x / s % 2 = 0 then x % s else s - 1 - x % s
    ((row i = row i' ∧ col i + 1 = col i') ∨ (col i = col i' ∧ row i + 1 = row i')) →
    ∃ b < 2 * q, gray i ^^^ gray i' = 2 ^ b

/-- R113, R74: the points of `qam_map`, one per group of `bps` bits, the bits past the end being 0; for BPSK
`2*bit - 1`. -/
def Obligations.QamMapGroupsTheBits : Prop :=
  ∀ (σ : Type) (n : Num σ) (p : Plan σ) (bits : Bits), 1 ≤ p.bps →
    (qamMap n p bits).length = (bits.length + p.bps - 1) / p.bps ∧
    ∀ u < (bits.length + p.bps - 1) / p.bps,
      n.at (qamMap n p bits) u =
        n.at p.table (∑ t ∈ Finset.range p.bps, (bits.getD (u * p.bps + t) false).toNat * 2 ^ (p.bps - 1 - t)) ∧
      (p.bps = 1 → p.table = [⟨n.int (-1), n.zero⟩, ⟨n.int 1, n.zero⟩] →
        n.at (qamMap n p bits) u = ⟨n.int (2 * ((bits.getD u false).toNat : Int) - 1), n.zero⟩)

/-! ### Modulator -/

/-- R130: the checks in order, and the next state of each outcome. -/
def Obligations.ModRunFollowsItsRule : Prop :=
  ∀ (pre : Bool) (s : State),
    (s.phase = .fatal → exec (.modRun pre) s = .next (s.completed .configError)) ∧
    (s.phase = .unconfigured → exec (.modRun pre) s = .next { s.completed .configError with phase := .fatal }) ∧
    ∀ p, s.phase = .ready → s.plan = some p →
      ((Config.depthModOut ≤ s.modOut.length ∨ s.modIn = []) →
        exec (.modRun pre) s = .next (s.completed .buffer)) ∧
      ∀ bits rest, s.modOut.length < Config.depthModOut → s.modIn = bits :: rest →
        (bits = [] →
          exec (.modRun pre) s = .next { s.completed .configError with phase := .fatal, modIn := rest }) ∧
        (bits ≠ [] →
          let out := modulate Config.num Config.rom p bits pre
          exec (.modRun pre) s = .next
            { s.completed .ok with
              modIn := rest
              modOut := s.modOut ++ [out.frame]
              res := { s.res with modNsym := BitVec.ofNat 32 out.symbols
                                  modLen := BitVec.ofNat 32 out.frame.length }
              cnt := { s.cnt with txFrames := s.cnt.txFrames + 1 } })

/-- R131, R133, R136, R137, R138: number of symbols and every sample of the frame, for every format. The length is
R140, which the spec marks as derived from them. -/
def Obligations.FrameSamplesFollowTheStages : Prop :=
  ∀ (σ : Type) (n : Num σ) (rom : Rom σ) (p : Plan σ) (bits : Bits) (pre : Bool), p.Sound →
    let padded := bits ++ List.replicate ((48 - bits.length % 48) % 48) false
    let points := qamMap n p padded
    let symbols := (points.length + 47) / 48
    let head := if pre then 160 + p.lp else 0
    let out := modulate n rom p bits pre
    out.symbols = symbols ∧
    out.frame.length = head + symbols * (64 + p.cpLen) ∧
    (∀ j < head, n.at out.frame j = n.at p.preamble j) ∧
    ∀ i < symbols, ∀ t < 64 + p.cpLen,
      n.at out.frame (head + i * (64 + p.cpLen) + t) =
        n.ifft (assemble n rom p points i) ((t + 64 - p.cpLen) % 64)

/-- R134: pilots carry the reference, data subcarriers their points or 0 past the last, all others 0. -/
def Obligations.SymbolAssemblyPlacesPilotsAndData : Prop :=
  ∀ (σ : Type) (n : Num σ) (rom : Rom σ) (p : Plan σ) (points : List (Cx σ)) (i : Nat), p.Sound →
    (∀ k ∈ [7, 21, 43, 57], assemble n rom p points i k = rom.tref k) ∧
    (∀ t < 48, assemble n rom p points i (dataIndices.getD t 0) =
      if i * 48 + t < points.length then n.at points (i * 48 + t) else n.czero) ∧
    (∀ k ∈ nullIndices, assemble n rom p points i k = n.czero)

/-- R14, in exact arithmetic: the two transforms as sums, and `FFT(IFFT(X)) = X`. -/
def Obligations.TransformsAreInverse : Prop :=
  ∀ X : Nat → Cx ℝ,
    (∀ k, (realNum.fft X k).toComplex =
      ∑ t ∈ Finset.range 64, (X t).toComplex * Complex.exp (-2 * Real.pi * k * t / 64 * Complex.I)) ∧
    (∀ t, (realNum.ifft X t).toComplex =
      (1 / 64) * ∑ k ∈ Finset.range 64, (X k).toComplex * Complex.exp (2 * Real.pi * k * t / 64 * Complex.I)) ∧
    ∀ k < 64, realNum.fft (realNum.ifft X) k = X k

/-- R142, which the spec marks as derived from R135: the first body sample, and its value for one BPSK symbol of 48 ones and of 48 zeros under the default
`TREF`. -/
def Obligations.FirstBodySampleIsTheMean : Prop :=
  (∀ X : Nat → Cx ℝ,
    (realNum.ifft X 0).toComplex = (1 / 64) * ∑ k ∈ Finset.range 64, (X k).toComplex) ∧
  ∀ (qmax : Nat) (v : CfgValues), v.Legal qmax → v.qam = 2 →
    let rom := defaultRom realNum
    let p := buildPlan realNum rom v
    realNum.at (modulate realNum rom p (List.replicate 48 true) false).frame p.cpLen = ⟨25 / 32, 0⟩ ∧
    realNum.at (modulate realNum rom p (List.replicate 48 false) false).frame p.cpLen = ⟨-(23 / 32), 0⟩

/-- R143, which the spec marks as derived from R135: Parseval's relation for one symbol body; 52/64 for a full BPSK symbol with pilots of modulus 1, the
energy of the default `LTS_T`. -/
def Obligations.SymbolEnergyIsParseval : Prop :=
  (∀ X : Nat → Cx ℝ, realNum.sum (fun t => realNum.normSq (realNum.ifft X t)) 64 =
    (1 / 64) * realNum.sum (fun k => realNum.normSq (X k)) 64) ∧
  (∀ (rom : Rom ℝ) (p : Plan ℝ) (points : List (Cx ℝ)) (i : Nat), p.Sound →
    (∀ k ∈ p.pilot, realNum.normSq (rom.tref k) = 1) → (i + 1) * 48 ≤ points.length →
    (∀ z ∈ points, z = ⟨-1, 0⟩ ∨ z = ⟨1, 0⟩) →
    realNum.sum (fun t => realNum.normSq (realNum.ifft (assemble realNum rom p points i) t)) 64 = 52 / 64) ∧
  realNum.sum (fun t => realNum.normSq ((defaultRom realNum).ltsT t)) 64 = 52 / 64

/-- What `MOD.RUN` leaves alone, and how its two FIFOs move. -/
def Obligations.ModRunFrame : Prop :=
  ∀ (pre : Bool) (s t : State), exec (.modRun pre) s = .next t →
    t = { s with
          phase := t.phase, modIn := t.modIn, modOut := t.modOut
          res := { s.res with modNsym := t.res.modNsym, modLen := t.res.modLen }
          cnt := { s.cnt with txFrames := t.cnt.txFrames }
          last := t.last, response := t.response } ∧
    (t.modIn = s.modIn ∨ ∃ bits, s.modIn = bits :: t.modIn) ∧
    (t.last = .ok → ∃ frame, t.modOut = s.modOut ++ [frame]) ∧
    (t.last ≠ .ok → t.modOut = s.modOut ∧ t.res = s.res ∧ t.cnt = s.cnt)

/-! ### Demodulator -/

/-- R160: the checks in order, then detection and its ends. `draw` gives the decisions that R199 and R201 leave
open; how many free values have been drawn is the model's own count (log 7). -/
def Obligations.DemRunFollowsItsRule : Prop :=
  ∀ s : State,
    (s.phase = .fatal → exec .demRun s = .next (s.completed .configError)) ∧
    (s.phase = .unconfigured → exec .demRun s = .next { s.completed .configError with phase := .fatal }) ∧
    ∀ p, s.phase = .ready → s.plan = some p → ∃ (draw : Nat → Nat) (drawn : Nat),
      exec .demRun s = .next (
        if 2 < p.m ∧ Config.demapQam = .refuse then { s.completed .configError with phase := .fatal }
        else if Config.depthDemOut ≤ s.demOut.length then s.completed .buffer
        else match s.demIn with
          | [] => s.completed .buffer
          | r :: rest =>
            let c := detect Config.num p r
            let start := c.pos + 2 * p.cpLen + 1
            let noted : State :=
              { s with res := { s.res with demOffset := BitVec.ofNat 32 c.pos, demPeak := c.peak } }
            let found (w : Samples Scalar) (left : List (Samples Scalar)) : State :=
              let out := decodeWindow Config.num Config.rom p draw w
              { noted.completed .ok with
                demIn := left
                demOut := s.demOut ++ [out.bits]
                res := { noted.res with demCfo := out.cfo }
                demFound := true
                draws := drawn }
            if Config.num.Lt (Config.num.ofRat (7 / 10)) c.peak then
              if start + p.window ≤ p.block then found (slice r start (start + p.window)) rest
              else match rest with
                | [] => noted.completed .needBlock
                | r2 :: rest2 =>
                  found (slice r start p.block ++ slice r2 0 (start + p.window - p.block)) rest2
            else { noted.completed .noFrameDetected with demIn := rest, demFound := false })

/-- What `DEM.RUN` leaves alone, and how its two FIFOs move. That the count of free values stays unless the command
completes `OK` is the model's own counting (log 7). -/
def Obligations.DemRunFrame : Prop :=
  ∀ s t : State, exec .demRun s = .next t →
    t = { s with
          phase := t.phase, demIn := t.demIn, demOut := t.demOut, demFound := t.demFound, draws := t.draws
          res := { s.res with demOffset := t.res.demOffset, demPeak := t.res.demPeak, demCfo := t.res.demCfo }
          last := t.last, response := t.response } ∧
    (∃ k ≤ 2, t.demIn = s.demIn.drop k) ∧
    (t.last = .ok → t.phase = s.phase ∧ t.demFound = true ∧ ∃ bits, t.demOut = s.demOut ++ [bits]) ∧
    (t.last ≠ .ok → t.demOut = s.demOut ∧ t.res.demCfo = s.res.demCfo ∧ t.draws = s.draws) ∧
    (t.last ≠ .ok → t.last ≠ .noFrameDetected → t.demIn = s.demIn ∧ t.demFound = s.demFound) ∧
    (t.last ≠ .ok → t.last ≠ .noFrameDetected → t.last ≠ .needBlock → t.res = s.res)

/-- R168, R171, for every format whose `<` is a linear order: the candidate is the first position of the greatest
metric, and a frame is found exactly when the peak is above 0.7. -/
def Obligations.DetectionIsTheFirstMaximum : Prop :=
  ∀ (σ : Type) [LinearOrder σ] (n : Num σ), (∀ a b : σ, n.Lt a b ↔ a < b) →
    ∀ (p : Plan σ) (r : Samples σ) (next? : Option (Samples σ)),
      let c := detect n p r
      c.pos ≤ p.block - p.lp ∧
      c.peak = metric n p r c.pos ∧
      (∀ i ≤ p.block - p.lp, metric n p r i ≤ c.peak) ∧
      (∀ i < c.pos, metric n p r i < c.peak) ∧
      (findWindow n p c r next? ≠ .noFrame ↔ n.ofRat (7 / 10) < c.peak)

/-- R166, R167, R169, in exact arithmetic: the metric as the normalised correlation; and R170, which the spec marks
as derived from them: it lies between 0 and 1, is 1 exactly on a multiple of the template, and is the same for every
non-zero multiple of the block. -/
def Obligations.MetricIsANormalisedCorrelation : Prop :=
  ∀ (p : Plan ℝ) (r : Samples ℝ) (i : Nat),
    let x (t : Nat) : ℂ := (realNum.at r (i + t)).toComplex
    let P (t : Nat) : ℂ := (realNum.at p.longSection t).toComplex
    let e := ∑ t ∈ Finset.range p.lp, Complex.normSq (x t)
    let EP := ∑ t ∈ Finset.range p.lp, Complex.normSq (P t)
    let m := metric realNum p r i
    (0 < e → m = ‖∑ t ∈ Finset.range p.lp, x t * (starRingEnd ℂ) (P t)‖ / Real.sqrt (EP * e)) ∧
    (e = 0 → m = 0) ∧
    0 ≤ m ∧ m ≤ 1 ∧
    (0 < EP → (m = 1 ↔ ∃ g : ℂ, g ≠ 0 ∧ ∀ t < p.lp, x t = g * P t)) ∧
    ∀ g : Cx ℝ, g ≠ ⟨0, 0⟩ → metric realNum p (r.map (realNum.cmul g)) i = m

/-- R173, R174, R175: where the window lies, sample by sample, and that one further block always suffices, which the
spec marks as derived from R168, R173 and R102. -/
def Obligations.WindowIsCutFromOneOrTwoBlocks : Prop :=
  ∀ (σ : Type) (n : Num σ) (p : Plan σ) (c : Candidate σ) (r r2 : Samples σ), p.Sound →
    c.pos ≤ p.block - p.lp → r.length = p.block → r2.length = p.block → n.Lt (n.ofRat (7 / 10)) c.peak →
    let start := c.pos + 2 * p.cpLen + 1
    start + p.window - p.block ≤ p.nsym * p.symLen ∧ p.nsym * p.symLen ≤ p.block ∧
    (p.block < start + p.window → findWindow n p c r none = .needBlock) ∧
    ∃ w, findWindow n p c r (some r2) = .window w (if start + p.window ≤ p.block then 1 else 2) ∧
      (start + p.window ≤ p.block → findWindow n p c r none = .window w 1) ∧
      w.length = p.window ∧
      ∀ j < p.window, n.at w j =
        if start + j < p.block then n.at r (start + j) else n.at r2 (start + j - p.block)

/-- R181, R182, in exact arithmetic: the estimate, its range, and the compensated window. -/
def Obligations.CfoEstimateAndCompensation : Prop :=
  ∀ (p : Plan ℝ) (w : Samples ℝ),
    let acc : ℂ := ∑ t ∈ Finset.range 63,
      (starRingEnd ℂ) (realNum.at w t).toComplex * (realNum.at w (64 + t)).toComplex
    let cfo := estimateCfo realNum w
    cfo = acc.arg / (2 * Real.pi * 63) ∧ -(1 / 126) < cfo ∧ cfo ≤ 1 / 126 ∧ (acc = 0 → cfo = 0) ∧
    ∀ f : ℝ, (compensate realNum p w f).length = p.window ∧
      ∀ t < p.window, (realNum.at (compensate realNum p w f) t).toComplex =
        (realNum.at w t).toComplex * Complex.exp (-2 * Real.pi * f * t * Complex.I)

/-- R183, which the spec marks as derived from R180 and R181: on an undistorted window rotated by `f` cycles per sample the estimate is `f*64/63` below `1/128`, and
off by a multiple of `1/63` beyond. -/
def Obligations.CfoEstimateHasTheStatedBias : Prop :=
  ∀ (w : Samples ℝ) (u : Nat → ℂ) (g : ℂ) (f : ℝ), g ≠ 0 →
    (∀ t < 63, u (64 + t) = u t) → (∃ t < 63, u t ≠ 0) →
    (∀ t < 127, (realNum.at w t).toComplex = g * Complex.exp (2 * Real.pi * f * t * Complex.I) * u t) →
    (cfoSum realNum w).toComplex = Complex.normSq g * Complex.exp (2 * Real.pi * f * 64 * Complex.I) *
      ∑ t ∈ Finset.range 63, (Complex.normSq (u t) : ℂ) ∧
    (|f| < 1 / 128 → realNum.angle (cfoSum realNum w) = 2 * Real.pi * 64 * f ∧
      estimateCfo realNum w = f * (64 / 63)) ∧
    ∃ j : ℤ, estimateCfo realNum w = f * (64 / 63) - j / 63

/-- R186, R187, R188, in exact arithmetic: the gain is the transform of the averaged halves over the reference on
every active subcarrier, and 0 on the others; on a window that is `g` times an undistorted one it is `g`. -/
def Obligations.ChannelEstimateRecoversTheGain : Prop :=
  ∀ (rom : Rom ℝ) (p : Plan ℝ) (w : Samples ℝ), rom.Legal realNum → p.Sound →
    let h := estimateChannel realNum rom p w
    let x (t : Nat) : ℂ := (realNum.at w t).toComplex
    let v (t : Nat) : ℂ := if t = 0 then x 63 else (x (t - 1) + x (63 + t)) / 2
    h.length = 64 ∧
    (∀ k ∈ p.active, (realNum.at h k).toComplex =
      (∑ t ∈ Finset.range 64, v t * Complex.exp (-2 * Real.pi * k * t / 64 * Complex.I)) / (rom.tref k).toComplex) ∧
    (∀ k < 64, k ∉ p.active → realNum.at h k = realNum.czero) ∧
    ∀ g : Cx ℝ, realNum.at w 63 = realNum.cmul g (rom.ltsT 0) →
      (∀ t < 63, realNum.at w t = realNum.cmul g (rom.ltsT (t + 1)) ∧
        realNum.at w (64 + t) = realNum.cmul g (rom.ltsT (t + 1))) →
      ∀ k ∈ p.active, realNum.at h k = g

/-- R191, R192, for every format: zero-forcing on the active subcarriers, 0 where the gain is 0. -/
def Obligations.EqualiserDividesByTheGain : Prop :=
  ∀ (σ : Type) (n : Num σ) (p : Plan σ) (h : List (Cx σ)) (x : Nat → Cx σ) (k : Nat),
    k < 64 → k ∈ p.active →
    n.at (equalise n p h x) k = if n.isZero (n.at h k) then n.czero else n.cdiv (n.fft x k) (n.at h k)

/-- R193 to R196, in exact arithmetic: unwrapping step by step, a step of exactly a half turn being left as it is;
the line through the four pilot phases, which is the least-squares line; and the correction of every subcarrier by the
line fitted to the phases of the pilots against their reference. So a symbol whose active subcarriers are turned by
`a*k + b`, the slope below what unwrapping can follow, comes back (vector D19 is one of these). -/
def Obligations.PilotPhaseFitIsLeastSquares : Prop :=
  (∀ phi : List ℝ,
    let u := unwrap realNum phi
    u.length = phi.length ∧ u.getD 0 0 = phi.getD 0 0 ∧
    ∀ t, t + 1 < phi.length →
      let d := phi.getD (t + 1) 0 - phi.getD t 0
      u.getD (t + 1) 0 = u.getD t 0 +
        if Real.pi < d then d - 2 * Real.pi else if d < -Real.pi then d + 2 * Real.pi else d) ∧
  (∀ phi : List ℝ, (∀ a ∈ phi, -Real.pi < a ∧ a ≤ Real.pi) →
    (∀ t < phi.length, ∃ j : ℤ, (unwrap realNum phi).getD t 0 = phi.getD t 0 + 2 * Real.pi * j) ∧
    (∀ t, t + 1 < phi.length →
      |(unwrap realNum phi).getD (t + 1) 0 - (unwrap realNum phi).getD t 0| ≤ Real.pi)) ∧
  (∀ (p : Plan ℝ) (u0 u1 u2 u3 : ℝ), p.pilot = [7, 21, 43, 57] →
    let l := fitLine realNum p [u0, u1, u2, u3]
    let ubar := (u0 + u1 + u2 + u3) / 4
    let cost (a b : ℝ) := (u0 - (a * 7 + b)) ^ 2 + (u1 - (a * 21 + b)) ^ 2 + (u2 - (a * 43 + b)) ^ 2 +
      (u3 - (a * 57 + b)) ^ 2
    l.slope = ((7 - 32) * (u0 - ubar) + (21 - 32) * (u1 - ubar) + (43 - 32) * (u2 - ubar) +
      (57 - 32) * (u3 - ubar)) / 1492 ∧
    l.intercept = ubar - l.slope * 32 ∧
    ∀ a b : ℝ, cost l.slope l.intercept ≤ cost a b ∧
      (cost a b = cost l.slope l.intercept → a = l.slope ∧ b = l.intercept)) ∧
  (∀ (rom : Rom ℝ) (p : Plan ℝ) (h : List (Cx ℝ)) (x : Nat → Cx ℝ), p.pilot = [7, 21, 43, 57] →
    let y (k : Nat) : ℂ := (realNum.at (equalise realNum p h x) k).toComplex
    let phi (k : Nat) : ℝ := (y k * (starRingEnd ℂ) (rom.tref k).toComplex).arg
    let l := fitLine realNum p (unwrap realNum [phi 7, phi 21, phi 43, phi 57])
    ∀ k, (correctedSymbol realNum rom p h x k).toComplex =
      y k * Complex.exp (-((l.slope * k + l.intercept : ℝ) : ℂ) * Complex.I)) ∧
  ∀ (rom : Rom ℝ) (p : Plan ℝ) (h : List (Cx ℝ)) (x : Nat → Cx ℝ) (sent : Nat → ℂ) (a b : ℝ),
    rom.Legal realNum → p.Sound → |a| < Real.pi / 22 →
    (∀ k ∈ p.pilot, sent k = (rom.tref k).toComplex) →
    (∀ k ∈ p.active, (realNum.at (equalise realNum p h x) k).toComplex =
      sent k * Complex.exp (((a * k + b : ℝ) : ℂ) * Complex.I)) →
    ∀ k ∈ p.active, (correctedSymbol realNum rom p h x k).toComplex = sent k

/-- R199, for every format whose `<` is a linear order: the sign of the real part decides; at 0 either bit can be
drawn. -/
def Obligations.BpskSlicerDecidesBySign : Prop :=
  ∀ (σ : Type) [LinearOrder σ] (n : Num σ), (∀ a b : σ, n.Lt a b ↔ a < b) →
    ∀ z : Cx σ,
      (n.zero < z.re → ∀ draw, slicer n draw z = true) ∧
      (z.re < n.zero → ∀ draw, slicer n draw z = false) ∧
      (z.re = n.zero → ∀ bit, ∃ draw, slicer n draw z = bit)

/-- R201, for every format whose `<` is a linear order: the decision attains the least distance, and every index
that attains it can be drawn. -/
def Obligations.QamDecisionIsANearestPoint : Prop :=
  ∀ (σ : Type) [LinearOrder σ] (n : Num σ), (∀ a b : σ, n.Lt a b ↔ a < b) →
    ∀ (table : List (Cx σ)) (z : Cx σ), table ≠ [] →
      let dist (q : Nat) : σ := n.normSq (n.csub z (n.at table q))
      (∀ draw, demapIndex n table draw z < table.length ∧
        ∀ q < table.length, dist (demapIndex n table draw z) ≤ dist q) ∧
      ∀ best < table.length, (∀ q < table.length, dist best ≤ dist q) → ∃ draw, demapIndex n table draw z = best

/-- R201 with R111, in exact arithmetic: the demapper is the inverse of the mapper's table. -/
def Obligations.DemapperInvertsTheMapper : Prop :=
  ∀ q : Nat, 1 ≤ q → ∀ idx < 4 ^ q, ∀ draw,
    let table := constellation realNum (4 ^ q)
    demapIndex realNum table draw (realNum.at table idx) = idx

/-- R203, R80, with R190 and the decisions of R199 and R201, for every format: the length of a decoded message, and
each of its bits. Bit `b` of the group of data subcarrier `t` of symbol `i` is the slicer's bit for `m = 2`, and bit
`bps-1-b` of the decided index for `m > 2` (MSB-first), taken on the corrected value of that subcarrier. -/
def Obligations.DecodedBitsAreInOrder : Prop :=
  ∀ (σ : Type) (n : Num σ) (rom : Rom σ) (p : Plan σ) (draw : Nat → Nat) (w : Samples σ), p.Sound →
    let cfo := estimateCfo n w
    let w' := compensate n p w cfo
    let h := estimateChannel n rom p w'
    let out := decodeWindow n rom p draw w
    out.cfo = cfo ∧
    out.bits.length = p.nsym * 48 * p.bps ∧
    ∀ i < p.nsym, ∀ t < 48, ∃ drawn : Nat,
      let body (j : Nat) := n.at w' (127 + i * p.symLen + p.cpLen + j)
      let z := correctedSymbol n rom p h body (dataIndices.getD t 0)
      ∀ b < p.bps, out.bits.getD ((i * 48 + t) * p.bps + b) false =
        if p.m = 2 then slicer n drawn z else (demapIndex n p.table drawn z).testBit (p.bps - 1 - b)

/-- R205, which the spec marks as derived from R130 and R160 to R203: over a perfect path (any lead, any non-zero
complex gain) the metric at the long section is 1 and is the peak, the window there lies in the block, and it decodes
to the padded bits with no carrier offset. If no earlier position reaches 1, detection finds that position, and
`DEM.RUN` of a block in exact arithmetic completes `OK` with those bits. -/
def Obligations.PerfectPathRoundTrip : Prop :=
  ∀ (c : Impl ℝ) (v : CfgValues) (bits : Bits) (lead tail : Nat) (g : Cx ℝ) (draw : Nat → Nat),
    c.Legal → c.num = realNum → v.Legal c.qmax → v.qam = 2 → (bits.length + 47) / 48 = v.nsym → g ≠ ⟨0, 0⟩ →
    let p := buildPlan realNum c.rom v
    let frame := (modulate realNum c.rom p bits true).frame
    let silence (k : Nat) : Samples ℝ := List.replicate k ⟨0, 0⟩
    let r := (silence lead ++ frame ++ silence tail).map (realNum.cmul g)
    let start := lead + 160 + 2 * p.cpLen + 1
    let w := slice r start (start + p.window)
    let padded := bits ++ List.replicate ((48 - bits.length % 48) % 48) false
    r.length = p.block →
      metric realNum p r (lead + 160) = 1 ∧
      (detect realNum p r).peak = 1 ∧
      findWindow realNum p ⟨lead + 160, 1⟩ r none = .window w 1 ∧
      decodeWindow realNum c.rom p draw w = ⟨padded, 0⟩ ∧
      ((∀ i < lead + 160, metric realNum p r i ≠ 1) →
        detect realNum p r = ⟨lead + 160, 1⟩ ∧
        ∀ (s : State ℝ) (rest : List (Samples ℝ)), s.phase = .ready → s.plan = some p → s.demIn = r :: rest →
          s.demOut.length < c.depthDemOut →
          ∃ t, execOf c .demRun s = .next t ∧ t.last = .ok ∧ t.demIn = rest ∧ t.demOut = s.demOut ++ [padded] ∧
            t.demFound = true ∧
            t.res = { s.res with demOffset := BitVec.ofNat 32 (lead + 160), demPeak := 1, demCfo := 0 })

/-! ### Frame validator -/

/-- R210: the check values of the rule, with F3 and F4 of `95_test_vectors.md`. -/
def Obligations.CrcCheckValues : Prop :=
  crc32 [0x31, 0x32, 0x33, 0x34, 0x35, 0x36, 0x37, 0x38, 0x39] = 0xCBF43926 ∧
  crc32 [] = 0x00000000 ∧
  crc32 [0x00] = 0xD202EF8D ∧
  crc32 [0x80] = 0x3FBA6CAD ∧
  frameCrc [true, false, true, true] = 0x19635C01

/-- R12, R212: integers and bit vectors, MSB-first, and the packing into bytes, bit by bit. -/
def Obligations.BitVectorsAreMsbFirst : Prop :=
  (∀ k v : Nat, v < 2 ^ k → toInt (toBits k v) = v) ∧
  (∀ b : Bits, toInt b < 2 ^ b.length ∧ toBits b.length (toInt b) = b) ∧
  (∀ b : Bits, (pack b).length = (b.length + 7) / 8 ∧
    ∀ i < (b.length + 7) / 8, ∀ j < 8, ((pack b).getD i 0).getLsbD (7 - j) = b.getD (8 * i + j) false)

/-- R216: the checks in order, and the frame that is pushed. -/
def Obligations.FcsBuildFollowsItsRule : Prop :=
  ∀ (seq : BitVec 16) (s : State),
    (s.phase = .fatal → exec (.fcsBuild seq) s = .next (s.completed .configError)) ∧
    (s.phase = .unconfigured →
      exec (.fcsBuild seq) s = .next { s.completed .configError with phase := .fatal }) ∧
    ∀ p, s.phase = .ready → s.plan = some p →
      ((Config.depthFcsOut ≤ s.fcsOut.length ∨ s.fcsIn = []) →
        exec (.fcsBuild seq) s = .next (s.completed .buffer)) ∧
      ∀ payload rest, s.fcsOut.length < Config.depthFcsOut → s.fcsIn = payload :: rest →
        (payload.length ≠ p.payload → exec (.fcsBuild seq) s = .next (s.completed .buffer)) ∧
        (payload.length = p.payload →
          let head := (if p.arq = 1 then toBits 16 seq.toNat else []) ++ payload
          exec (.fcsBuild seq) s = .next
            { s.completed .ok with
              fcsIn := rest
              fcsOut := s.fcsOut ++ [head ++ toBits 32 (crc32 (pack head)).toNat] })

/-- R218, R219: the checks in order, an intact frame, and a FrameIntegrityError. -/
def Obligations.FcsCheckFollowsItsRule : Prop :=
  ∀ s : State,
    (s.phase = .fatal → exec .fcsCheck s = .next (s.completed .configError)) ∧
    (s.phase = .unconfigured → exec .fcsCheck s = .next { s.completed .configError with phase := .fatal }) ∧
    ∀ p, s.phase = .ready → s.plan = some p →
      ((Config.depthFcsOut ≤ s.fcsOut.length ∨ s.fcsIn = []) →
        exec .fcsCheck s = .next (s.completed .buffer)) ∧
      ∀ msg rest, s.fcsOut.length < Config.depthFcsOut → s.fcsIn = msg :: rest →
        let f := msg.take p.frameBits
        let head := f.take (p.frameBits - 32)
        let got := toInt (f.drop (p.frameBits - 32))
        let intact := (crc32 (pack head)).toNat = got
        (msg.length < p.frameBits → exec .fcsCheck s = .next (s.completed .buffer)) ∧
        (p.frameBits ≤ msg.length → intact → exec .fcsCheck s = .next
          { s.completed .ok with
            fcsIn := rest
            fcsOut := s.fcsOut ++ [if p.arq = 1 then head.drop 16 else head]
            cnt := { s.cnt with rxTotal := s.cnt.rxTotal + 1, rxOk := s.cnt.rxOk + 1 }
            res := { s.res with
              fcsSeq := if p.arq = 1 then BitVec.ofNat 16 (toInt (head.take 16)) else s.res.fcsSeq }
            fcsOk := true }) ∧
        (p.frameBits ≤ msg.length → ¬ intact → exec .fcsCheck s = .next
          { s.completed .frameIntegrityError with
            fcsIn := rest
            cnt := { s.cnt with rxTotal := s.cnt.rxTotal + 1, rxBad := s.cnt.rxBad + 1 }
            fcsOk := false })

/-- What the two `FCS` commands leave alone. -/
def Obligations.FcsCommandsFrame : Prop :=
  ∀ s t : State,
    (∀ seq, exec (.fcsBuild seq) s = .next t →
      t = { s with phase := t.phase, fcsIn := t.fcsIn, fcsOut := t.fcsOut, last := t.last, response := t.response } ∧
      (t.last ≠ .ok → t.fcsIn = s.fcsIn ∧ t.fcsOut = s.fcsOut)) ∧
    (exec .fcsCheck s = .next t →
      t = { s with
            phase := t.phase, fcsIn := t.fcsIn, fcsOut := t.fcsOut, fcsOk := t.fcsOk
            cnt := { s.cnt with rxTotal := t.cnt.rxTotal, rxOk := t.cnt.rxOk, rxBad := t.cnt.rxBad }
            res := { s.res with fcsSeq := t.res.fcsSeq }
            last := t.last, response := t.response } ∧
      (t.last ≠ .ok → t.fcsOut = s.fcsOut ∧ t.res = s.res) ∧
      (t.last ≠ .ok → t.last ≠ .frameIntegrityError →
        t.fcsIn = s.fcsIn ∧ t.cnt = s.cnt ∧ t.fcsOk = s.fcsOk))

/-- R221, which the spec marks as derived from R216 and R218: `FCS.CHECK` on what `FCS.BUILD` pushed, with any bits appended, in any `READY` state of the same plan,
gives back the payload and the sequence number. -/
def Obligations.FcsRoundTrip : Prop :=
  ∀ (s t : State) (p : Plan Scalar) (seq : BitVec 16) (payload : Bits) (rest : List Bits),
    p.Sound → s.phase = .ready → s.plan = some p → s.fcsOut.length < Config.depthFcsOut →
    s.fcsIn = payload :: rest → payload.length = p.payload → exec (.fcsBuild seq) s = .next t →
    ∃ frame, t.fcsOut = s.fcsOut ++ [frame] ∧
      ∀ (u : State) (extra : Bits) (more : List Bits),
        u.phase = .ready → u.plan = some p → u.fcsOut.length < Config.depthFcsOut →
        u.fcsIn = (frame ++ extra) :: more →
        ∃ u', exec .fcsCheck u = .next u' ∧ u'.last = .ok ∧ u'.fcsOut = u.fcsOut ++ [payload] ∧
          u'.fcsIn = more ∧ (p.arq = 1 → u'.res.fcsSeq = seq)

/-- R222: one inverted bit among the first `frameBits` of a built frame makes `FCS.CHECK` fail; a change after them
changes nothing. -/
def Obligations.OneInvertedBitIsDetected : Prop :=
  ∀ (s : State) (p : Plan Scalar) (seq : BitVec 16) (payload extra : Bits) (rest : List Bits),
    p.Sound → s.phase = .ready → s.plan = some p → s.fcsOut.length < Config.depthFcsOut →
    payload.length = p.payload →
    let frame := buildFrame p seq.toNat payload
    frame.length = p.frameBits ∧
    (∀ j < p.frameBits, ∃ t,
      exec .fcsCheck { s with fcsIn := (frame.set j (!(frame.getD j false)) ++ extra) :: rest } = .next t ∧
      t.last = .frameIntegrityError ∧ t.fcsOut = s.fcsOut ∧ t.fcsIn = rest) ∧
    ∀ extra', exec .fcsCheck { s with fcsIn := (frame ++ extra) :: rest } =
      exec .fcsCheck { s with fcsIn := (frame ++ extra') :: rest }

/-- R288: once a plan exists, a message of fewer than `frameBits` bits and not `payload` bits stays at the head of
`FCS_IN` in every step, whatever the host does, but for a reset. Phase and plan are then again as before, so it stays
there for every number of steps until reset. -/
def Obligations.UnfitMessageBlocksFcsIn : Prop :=
  ∀ (s t : State) (p : Plan Scalar) (msg : Bits) (rest : List Bits),
    (s.phase = .ready ∨ s.phase = .fatal) → s.plan = some p → s.fcsIn = msg :: rest → msg.length < p.frameBits →
    msg.length ≠ p.payload → (∀ later, s.port ≠ .command (encode .sreset) :: later) →
    (∀ later, s.port ≠ .resetInput :: later) → step s = .next t →
    (∃ pushed, t.fcsIn = msg :: (rest ++ pushed)) ∧ (t.phase = .ready ∨ t.phase = .fatal) ∧ t.plan = some p

/-! ### Exceptions, phases and the whole machine -/

/-- R253: exactly which commands raise ConfigError, in exactly which cases, in states whose phase and plan agree. -/
def Obligations.ConfigErrorCauses : Prop :=
  ∀ (i : Instr) (s t : State), s.phase ≠ .fatal → (s.phase = .ready → s.plan ≠ none) → exec i s = .next t →
    (t.phase = .fatal ↔
      (i = .planBuild ∧ s.phase = .unconfigured ∧ ∀ v, cfgValues s.cfg = some v → ¬ v.Legal Config.qmax) ∨
      (processing i = true ∧ s.phase = .unconfigured) ∨
      (i = .demRun ∧ s.phase = .ready ∧ Config.demapQam = .refuse ∧ ∃ p, s.plan = some p ∧ 2 < p.m) ∨
      (∃ pre rest, i = .modRun pre ∧ s.phase = .ready ∧ s.modOut.length < Config.depthModOut ∧
        s.modIn = [] :: rest))

/-- R258: raising ConfigError sets the phase and the code, and everything else stays, but for the empty message
that `MOD.RUN` has popped. -/
def Obligations.ConfigErrorLeavesTheRest : Prop :=
  ∀ (i : Instr) (s t : State), s.phase ≠ .fatal → exec i s = .next t → t.phase = .fatal →
    t = { s with
          phase := .fatal, last := .configError, response := some ⟨.configError, .int 0⟩
          modIn := t.modIn } ∧
    (t.modIn = s.modIn ∨ ∃ pre, i = .modRun pre ∧ s.modIn = [] :: t.modIn)

/-- R259: what each command, each illegal word and each host move does in `FATAL`. -/
def Obligations.FatalAnswers : Prop :=
  ∀ (s : State) (rest : List HostAction), s.phase = .fatal →
    (∀ i : Instr, i.WellFormed → (processing i = true ∨ i = .planBuild ∨ i = .cntClr ∨ ∃ f v, i = .cfgWr f v) →
      exec i s = .next (s.completed .configError)) ∧
    exec .nop s = .next (s.completed .ok) ∧
    (∃ v, exec .statRd s = .next { s with response := some ⟨.ok, .int v⟩ }) ∧
    (∀ reg : BitVec 4, reg.toNat < 6 → ∃ v, s.res.read reg = some v ∧
      exec (.resRd reg) s = .next { s with last := .ok, response := some ⟨.ok, v⟩ }) ∧
    (∀ cnt : BitVec 4, cnt.toNat < 4 → ∃ v, s.cnt.read cnt = some v ∧
      exec (.cntRd cnt) s = .next { s with last := .ok, response := some ⟨.ok, v⟩ }) ∧
    (∃ t, exec .sreset s = .next t ∧ t.AtResetValues) ∧
    (∀ w : Word, (decode w).toOption = none → step { s with port := .command w :: rest } =
      .next { s.completed .illegalCommand with port := rest }) ∧
    (∀ v t, step { s with port := .pushDemIn v :: rest } ≠ .next t) ∧
    (∀ b, s.modIn.length < Config.depthModIn → ∃ t, step { s with port := .pushModIn b :: rest } = .next t ∧
      t.modIn = s.modIn ++ [b]) ∧
    (∀ b, s.fcsIn.length < Config.depthFcsIn → ∃ t, step { s with port := .pushFcsIn b :: rest } = .next t ∧
      t.fcsIn = s.fcsIn ++ [b]) ∧
    (∀ v more, s.modOut = v :: more → ∃ t, step { s with port := .pop .modOut :: rest } = .next t ∧ t.modOut = more) ∧
    (∀ v more, s.demOut = v :: more → ∃ t, step { s with port := .pop .demOut :: rest } = .next t ∧ t.demOut = more) ∧
    (∀ v more, s.fcsOut = v :: more → ∃ t, step { s with port := .pop .fcsOut :: rest } = .next t ∧ t.fcsOut = more)

/-- R257, which the spec marks as derived from the command rules, and R86: the codes each command can return, that the code stands in `STATUS.LAST` but after `STAT.RD`, and
that the value is 0 for every other command and every other code. -/
def Obligations.CodesPerCommand : Prop :=
  ∀ (i : Instr) (s t : State), exec i s = .next t →
    ∃ code value, t.response = some ⟨code, value⟩ ∧ code ∈ allowedCodes i ∧
      (i.WellFormed → (∀ reg, i = .resRd reg → code = .ok) ∧ (∀ cnt, i = .cntRd cnt → code = .ok)) ∧
      (i ≠ .statRd → t.last = code) ∧
      ((i ≠ .statRd ∧ (∀ reg, i ≠ .resRd reg) ∧ (∀ cnt, i ≠ .cntRd cnt)) ∨ code ≠ .ok → value = .int 0)

/-- R21, R281: the only moves of the phase, over every step, and what makes each. -/
def Obligations.PhaseMovesOnlyAsStated : Prop :=
  ∀ s t : State, step s = .next t → t.phase ≠ s.phase →
    (s.phase = .unconfigured ∧ t.phase = .ready ∧ t.last = .ok ∧
      ∃ rest, s.port = .command (encode .planBuild) :: rest) ∨
    (t.phase = .fatal ∧ t.last = .configError) ∨
    (t.phase = .unconfigured ∧
      ((∃ rest, s.port = .command (encode .sreset) :: rest) ∨ ∃ rest, s.port = .resetInput :: rest))

/-- R66, R281: a committed plan changes only by reset. -/
def Obligations.PlanChangesOnlyByReset : Prop :=
  ∀ (s t : State) (p : Plan Scalar), s.phase ≠ .unconfigured → s.plan = some p → step s = .next t →
    t.plan = some p ∨
    (t.plan = none ∧ ((∃ rest, s.port = .command (encode .sreset) :: rest) ∨ ∃ rest, s.port = .resetInput :: rest))

/-- R66: the processing commands read the plan and never the CFG registers. -/
def Obligations.ProcessingNeverReadsCfg : Prop :=
  ∀ (i : Instr) (s t : State) (cfg : CfgFile), processing i = true → exec i s = .next t →
    exec i { s with cfg := cfg } = .next { t with cfg := cfg }

/-- The invariant of the block holds after reset. -/
def Obligations.InvariantHoldsAtReset : Prop := State.reset.Inv

/-- Every step of the block and its host keeps the invariant, from every state that has it. -/
def Obligations.EveryStepKeepsTheInvariant : Prop :=
  ∀ s t : State, s.Inv → step s = .next t → t.Inv

/-! ### Host moves -/

/-- R53, R57: pushes to `MOD_IN` and `FCS_IN` and pops, in every phase, each with its precondition and whole effect;
where the precondition fails there is no next state. `popped` is where the model shows the message that a pop returns
(log 10). -/
def Obligations.HostMovesFollowTheirRules : Prop :=
  ∀ (s : State) (rest : List HostAction),
    (∀ b, s.modIn.length < Config.depthModIn →
      step { s with port := .pushModIn b :: rest } = .next { s with port := rest, modIn := s.modIn ++ [b] }) ∧
    (∀ b t, Config.depthModIn ≤ s.modIn.length → step { s with port := .pushModIn b :: rest } ≠ .next t) ∧
    (∀ b, s.fcsIn.length < Config.depthFcsIn →
      step { s with port := .pushFcsIn b :: rest } = .next { s with port := rest, fcsIn := s.fcsIn ++ [b] }) ∧
    (∀ b t, Config.depthFcsIn ≤ s.fcsIn.length → step { s with port := .pushFcsIn b :: rest } ≠ .next t) ∧
    (∀ m more, s.modOut = m :: more → step { s with port := .pop .modOut :: rest } =
      .next { s with port := rest, modOut := more, popped := some (.samples m) }) ∧
    (∀ m more, s.demOut = m :: more → step { s with port := .pop .demOut :: rest } =
      .next { s with port := rest, demOut := more, popped := some (.bits m) }) ∧
    (∀ m more, s.fcsOut = m :: more → step { s with port := .pop .fcsOut :: rest } =
      .next { s with port := rest, fcsOut := more, popped := some (.bits m) }) ∧
    (∀ t, s.modOut = [] → step { s with port := .pop .modOut :: rest } ≠ .next t) ∧
    (∀ t, s.demOut = [] → step { s with port := .pop .demOut :: rest } ≠ .next t) ∧
    (∀ t, s.fcsOut = [] → step { s with port := .pop .fcsOut :: rest } ≠ .next t)

/-- R55, R56, for the block over every implementation: when a push to `DEM_IN` is a move, that it drops the oldest
message of a full FIFO, and that after more pushes than a capacity `C` the FIFO holds exactly the last `C` messages in
order. That the samples are finite numbers is R290 (e). -/
def Obligations.DemInKeepsTheLastBlocks : Prop :=
  (∀ (σ : Type) (c : Impl σ) (s : State σ) (rest : List (HostAction σ)) (v : Samples σ),
    (∀ p, s.phase = .ready → s.plan = some p → v.length = p.block → (∀ z ∈ v, c.num.isFinite z = true) →
      stepOf c { s with port := .pushDemIn v :: rest } = .next
        { s with
          port := rest
          demIn := if c.iqDepth ≤ s.demIn.length then s.demIn.tail ++ [v] else s.demIn ++ [v] }) ∧
    ((s.phase ≠ .ready ∨ (∃ p, s.plan = some p ∧ v.length ≠ p.block) ∨ ∃ z ∈ v, c.num.isFinite z = false) →
      ∀ t, stepOf c { s with port := .pushDemIn v :: rest } ≠ .next t)) ∧
  (∀ (σ : Type) (capacity : Nat) (held pushed : List (Samples σ)),
    1 ≤ capacity → held.length ≤ capacity → capacity ≤ pushed.length →
    pushed.foldl (pushDropOldest capacity) held = pushed.drop (pushed.length - capacity))
end

