-- ==== Sys2Proof/Laws/Bits.lean ====
section
/-! SUPPORT. Lengths and entries of the vector operations. -/

namespace Sys2Proof

variable {α : Type}

@[simp] theorem tabulate_length (k : Nat) (f : Nat → α) : (tabulate k f).length = k := by
  simp [tabulate]

@[simp] theorem tabulate_zero (f : Nat → α) : tabulate 0 f = [] := rfl

theorem tabulate_getD (k : Nat) (f : Nat → α) (d : α) {i : Nat} (h : i < k) :
    (tabulate k f).getD i d = f i := by
  simp [tabulate, List.getD, h]

theorem tabulate_getElem (k : Nat) (f : Nat → α) (i : Nat) (h : i < (tabulate k f).length) :
    (tabulate k f)[i] = f i := by
  simp [tabulate]

theorem slice_length (v : List α) (a b : Nat) : (slice v a b).length = min (b - a) (v.length - a) := by
  simp [slice]

theorem slice_length_of_le (v : List α) {a b : Nat} (h : b ≤ v.length) : (slice v a b).length = b - a := by
  rw [slice_length]; omega

theorem slice_getD (v : List α) (d : α) {a b i : Nat} (h : i < b - a) :
    (slice v a b).getD i d = v.getD (a + i) d := by
  simp [slice, List.getD, h]

@[simp] theorem slice_zero (v : List α) (b : Nat) : slice v 0 b = v.take b := by simp [slice]

@[simp] theorem rep_length (v : List α) (k : Nat) : (rep v k).length = k * v.length := by
  simp [rep]

@[simp] theorem toBits_length (k v : Nat) : (toBits k v).length = k := by simp [toBits]

theorem padTo_length (k : Nat) (b : Bits) : (padTo k b).length = b.length + (k - b.length % k) % k := by
  simp [padTo]

/-- Padding reaches a multiple of `k`. -/
theorem padTo_length_mod (k : Nat) (b : Bits) (hk : 0 < k) : (padTo k b).length % k = 0 := by
  rw [padTo_length, Nat.add_mod, Nat.mod_mod]
  have hr : b.length % k < k := Nat.mod_lt _ hk
  rcases Nat.eq_zero_or_pos (b.length % k) with h | h
  · simp [h]
  · rw [Nat.mod_eq_of_lt (by omega : k - b.length % k < k)]
    have : b.length % k + (k - b.length % k) = k := by omega
    rw [this, Nat.mod_self]

/-- Blocks of one length lie one after another in a concatenation. -/
theorem concatMap_length_of (k c : Nat) (f : Nat → List α) (h : ∀ i < k, (f i).length = c) :
    (concatMap k f).length = k * c := by
  induction k with
  | zero => simp [concatMap]
  | succ k ih =>
    have ih' := ih fun i hi => h i (by omega)
    have hk := h k (by omega)
    simp only [concatMap, tabulate, List.range_succ, List.map_append, List.flatten_append,
      List.length_append] at ih' ⊢
    simp [ih', hk, Nat.succ_mul]

end Sys2Proof
end

