-- ==== Sys2Proof/Laws/Decode.lean ====
section
/-! SUPPORT. The fields of a packed word, and a word from its fields. -/

namespace Sys2Proof

/-- The bits of a packed word, field by field (`30_encoding.md` R83). -/
theorem packWord_getLsbD (op sub : BitVec 4) (imm : BitVec 24) (i : Nat) :
    (packWord op sub imm).getLsbD i =
      if i < 24 then imm.getLsbD i else if i - 24 < 4 then sub.getLsbD (i - 24) else op.getLsbD (i - 24 - 4) := by
  show ((op ++ sub) ++ imm : BitVec ((4 + 4) + 24)).getLsbD i = _
  rw [BitVec.getLsbD_append, BitVec.getLsbD_append]

@[simp] theorem opField_packWord (op sub : BitVec 4) (imm : BitVec 24) : opField (packWord op sub imm) = op := by
  refine BitVec.eq_of_getLsbD_eq fun i hi => ?_
  rw [opField, BitVec.getLsbD_extractLsb', packWord_getLsbD]
  have h : ¬ 28 + i < 24 := by omega
  have h' : ¬ 28 + i - 24 < 4 := by omega
  have e : 28 + i - 24 - 4 = i := by omega
  simp only [h, h', e, hi, if_false, decide_true, Bool.true_and]

@[simp] theorem subField_packWord (op sub : BitVec 4) (imm : BitVec 24) : subField (packWord op sub imm) = sub := by
  refine BitVec.eq_of_getLsbD_eq fun i hi => ?_
  rw [subField, BitVec.getLsbD_extractLsb', packWord_getLsbD]
  have h : ¬ 24 + i < 24 := by omega
  have h' : 24 + i - 24 < 4 := by omega
  have e : 24 + i - 24 = i := by omega
  simp only [h, e, hi, if_false, if_true, decide_true, Bool.true_and]

@[simp] theorem immField_packWord (op sub : BitVec 4) (imm : BitVec 24) : immField (packWord op sub imm) = imm := by
  refine BitVec.eq_of_getLsbD_eq fun i hi => ?_
  rw [immField, BitVec.getLsbD_extractLsb', packWord_getLsbD]
  simp [hi]

/-- A word is its three fields. -/
theorem packWord_fields (w : Word) : packWord (opField w) (subField w) (immField w) = w := by
  refine BitVec.eq_of_getLsbD_eq fun i hi => ?_
  rw [packWord_getLsbD, opField, subField, immField]
  simp only [BitVec.getLsbD_extractLsb']
  split
  · rename_i h; simp [h]
  · split
    · rename_i h h'
      rw [show 24 + (i - 24) = i by omega]; simp [h']
    · rename_i h h'
      rw [show 28 + (i - 24 - 4) = i by omega]
      simp [show i - 24 - 4 < 4 by omega]

end Sys2Proof
end

