-- ==== Sys2Proof/Laws/Numeric.lean ====
section
/-! SUPPORT. The reference instance read as Mathlib's real and complex numbers, and entries of sample vectors. -/

namespace Sys2Proof

section RealScalars

@[simp] theorem realNum_add (a b : ℝ) : realNum.add a b = a + b := rfl
@[simp] theorem realNum_sub (a b : ℝ) : realNum.sub a b = a - b := rfl
@[simp] theorem realNum_mul (a b : ℝ) : realNum.mul a b = a * b := rfl
@[simp] theorem realNum_div (a b : ℝ) : realNum.div a b = a / b := rfl
@[simp] theorem realNum_sqrt (a : ℝ) : realNum.sqrt a = Real.sqrt a := rfl
@[simp] theorem realNum_cos (a : ℝ) : realNum.cos a = Real.cos a := rfl
@[simp] theorem realNum_sin (a : ℝ) : realNum.sin a = Real.sin a := rfl
@[simp] theorem realNum_pi : realNum.pi = Real.pi := rfl
@[simp] theorem realNum_ofRat (q : ℚ) : realNum.ofRat q = (q : ℝ) := rfl
@[simp] theorem realNum_atan2 (y x : ℝ) : realNum.atan2 y x = Complex.arg ⟨x, y⟩ := rfl
@[simp] theorem realNum_lt (a b : ℝ) : realNum.Lt a b ↔ a < b := by simp [Num.Lt, realNum]
@[simp] theorem realNum_eq (a b : ℝ) : realNum.eq a b = true ↔ a = b := by simp [realNum]
@[simp] theorem realNum_zero : realNum.zero = 0 := by simp [Num.zero]
@[simp] theorem realNum_int (k : Int) : realNum.int k = (k : ℝ) := by simp [Num.int]
@[simp] theorem realNum_neg (a : ℝ) : realNum.neg a = -a := by simp [Num.neg]
@[simp] theorem realNum_twoPi : realNum.twoPi = 2 * Real.pi := by simp [Num.twoPi]

end RealScalars

section RealComplex

theorem Cx.toComplex_injective : Function.Injective Cx.toComplex := by
  rintro ⟨a, b⟩ ⟨c, d⟩ h
  simpa [Cx.toComplex, Complex.ext_iff] using h

@[simp] theorem realNum_czero : realNum.czero.toComplex = 0 := by
  simp [Num.czero, Cx.toComplex, Complex.ext_iff]

@[simp] theorem realNum_cadd (a b : Cx ℝ) : (realNum.cadd a b).toComplex = a.toComplex + b.toComplex := by
  simp [Num.cadd, Cx.toComplex, Complex.ext_iff]

@[simp] theorem realNum_csub (a b : Cx ℝ) : (realNum.csub a b).toComplex = a.toComplex - b.toComplex := by
  simp [Num.csub, Cx.toComplex, Complex.ext_iff]

@[simp] theorem realNum_cmul (a b : Cx ℝ) : (realNum.cmul a b).toComplex = a.toComplex * b.toComplex := by
  simp [Num.cmul, Cx.toComplex, Complex.ext_iff]

@[simp] theorem realNum_conj (a : Cx ℝ) : (realNum.conj a).toComplex = starRingEnd ℂ a.toComplex := by
  simp [Num.conj, Cx.toComplex, Complex.ext_iff]

@[simp] theorem realNum_cscale (s : ℝ) (a : Cx ℝ) : (realNum.cscale s a).toComplex = s * a.toComplex := by
  simp [Num.cscale, Cx.toComplex, Complex.ext_iff]

@[simp] theorem realNum_normSq (a : Cx ℝ) : realNum.normSq a = Complex.normSq a.toComplex := by
  simp [Num.normSq, Cx.toComplex, Complex.normSq_apply]

@[simp] theorem realNum_cabs (a : Cx ℝ) : realNum.cabs a = ‖a.toComplex‖ := by
  simp [Num.cabs, Complex.norm_def]

@[simp] theorem realNum_cexp (t : ℝ) : (realNum.cexp t).toComplex = Complex.exp (t * Complex.I) := by
  simp [Num.cexp, Cx.toComplex, Complex.ext_iff, Complex.exp_re, Complex.exp_im]

@[simp] theorem realNum_cdiv (a b : Cx ℝ) : (realNum.cdiv a b).toComplex = a.toComplex / b.toComplex := by
  simp only [Num.cdiv, Num.cmul, Num.conj, realNum_normSq, Cx.toComplex, Complex.ext_iff, Complex.div_re,
    Complex.div_im, realNum_add, realNum_sub, realNum_mul, realNum_div, realNum_neg]
  constructor <;> ring

/-- A complex number of the reference instance is 0 when both its parts are. -/
@[simp] theorem realNum_isZero (z : Cx ℝ) : realNum.isZero z = true ↔ z.toComplex = 0 := by
  simp [Num.isZero, Cx.toComplex, Complex.ext_iff]

/-- The angle of R13 is Mathlib's argument. -/
@[simp] theorem realNum_angle (z : Cx ℝ) : realNum.angle z = z.toComplex.arg := by
  unfold Num.angle
  split
  · rename_i h; rw [(realNum_isZero z).1 h]; simp
  · rfl

/-- Real sums are Mathlib's. -/
theorem realNum_sum (f : Nat → ℝ) (k : Nat) : realNum.sum f k = ∑ i ∈ Finset.range k, f i := by
  induction k with
  | zero => simp [Num.sum]
  | succ k ih => simp [Num.sum, ih, Finset.sum_range_succ]

/-- Complex sums are Mathlib's. -/
theorem realNum_csum (f : Nat → Cx ℝ) (k : Nat) :
    (realNum.csum f k).toComplex = ∑ i ∈ Finset.range k, (f i).toComplex := by
  induction k with
  | zero => simp [Num.csum]
  | succ k ih => simp [Num.csum, ih, Finset.sum_range_succ]

end RealComplex

section Vectors

variable {σ : Type}

/-- Entry of a tabulated vector. -/
theorem at_tabulate (n : Num σ) (k : Nat) (f : Nat → Cx σ) {i : Nat} (h : i < k) : n.at (tabulate k f) i = f i :=
  tabulate_getD k f n.czero h

/-- Entry of a slice. -/
theorem at_slice (n : Num σ) (v : Samples σ) {a b i : Nat} (h : i < b - a) : n.at (slice v a b) i = n.at v (a + i) :=
  slice_getD v n.czero h

/-- Outside a vector the entry is 0 (log 12). -/
theorem at_of_ge (n : Num σ) (v : Samples σ) {i : Nat} (h : v.length ≤ i) : n.at v i = n.czero := by
  simp [Num.at, List.getD, h]

end Vectors

end Sys2Proof
end

