-- ==== Sys2Proof/Laws/State.lean ====
section
/-! SUPPORT. What each shared update of State does to each field, field by field. -/

namespace Sys2Proof.Machine

variable {σ : Type} (s : State σ) (code : Code) (value : Value σ) (cand : Candidate σ) (zero : σ)

@[simp] theorem respond_phase : (respond code value s).phase = s.phase := rfl
@[simp] theorem respond_cfg : (respond code value s).cfg = s.cfg := rfl
@[simp] theorem respond_plan : (respond code value s).plan = s.plan := rfl
@[simp] theorem respond_demFound : (respond code value s).demFound = s.demFound := rfl
@[simp] theorem respond_fcsOk : (respond code value s).fcsOk = s.fcsOk := rfl
@[simp] theorem respond_last : (respond code value s).last = s.last := rfl
@[simp] theorem respond_res : (respond code value s).res = s.res := rfl
@[simp] theorem respond_cnt : (respond code value s).cnt = s.cnt := rfl
@[simp] theorem respond_modIn : (respond code value s).modIn = s.modIn := rfl
@[simp] theorem respond_modOut : (respond code value s).modOut = s.modOut := rfl
@[simp] theorem respond_demIn : (respond code value s).demIn = s.demIn := rfl
@[simp] theorem respond_demOut : (respond code value s).demOut = s.demOut := rfl
@[simp] theorem respond_fcsIn : (respond code value s).fcsIn = s.fcsIn := rfl
@[simp] theorem respond_fcsOut : (respond code value s).fcsOut = s.fcsOut := rfl
@[simp] theorem respond_port : (respond code value s).port = s.port := rfl
@[simp] theorem respond_response : (respond code value s).response = some ⟨code, value⟩ := rfl
@[simp] theorem respond_popped : (respond code value s).popped = s.popped := rfl
@[simp] theorem respond_draws : (respond code value s).draws = s.draws := rfl

@[simp] theorem completeWith_phase : (completeWith code value s).phase = s.phase := rfl
@[simp] theorem completeWith_cfg : (completeWith code value s).cfg = s.cfg := rfl
@[simp] theorem completeWith_plan : (completeWith code value s).plan = s.plan := rfl
@[simp] theorem completeWith_demFound : (completeWith code value s).demFound = s.demFound := rfl
@[simp] theorem completeWith_fcsOk : (completeWith code value s).fcsOk = s.fcsOk := rfl
@[simp] theorem completeWith_last : (completeWith code value s).last = code := rfl
@[simp] theorem completeWith_res : (completeWith code value s).res = s.res := rfl
@[simp] theorem completeWith_cnt : (completeWith code value s).cnt = s.cnt := rfl
@[simp] theorem completeWith_modIn : (completeWith code value s).modIn = s.modIn := rfl
@[simp] theorem completeWith_modOut : (completeWith code value s).modOut = s.modOut := rfl
@[simp] theorem completeWith_demIn : (completeWith code value s).demIn = s.demIn := rfl
@[simp] theorem completeWith_demOut : (completeWith code value s).demOut = s.demOut := rfl
@[simp] theorem completeWith_fcsIn : (completeWith code value s).fcsIn = s.fcsIn := rfl
@[simp] theorem completeWith_fcsOut : (completeWith code value s).fcsOut = s.fcsOut := rfl
@[simp] theorem completeWith_port : (completeWith code value s).port = s.port := rfl
@[simp] theorem completeWith_response : (completeWith code value s).response = some ⟨code, value⟩ := rfl
@[simp] theorem completeWith_popped : (completeWith code value s).popped = s.popped := rfl
@[simp] theorem completeWith_draws : (completeWith code value s).draws = s.draws := rfl

@[simp] theorem complete_phase : (complete code s).phase = s.phase := rfl
@[simp] theorem complete_cfg : (complete code s).cfg = s.cfg := rfl
@[simp] theorem complete_plan : (complete code s).plan = s.plan := rfl
@[simp] theorem complete_demFound : (complete code s).demFound = s.demFound := rfl
@[simp] theorem complete_fcsOk : (complete code s).fcsOk = s.fcsOk := rfl
@[simp] theorem complete_last : (complete code s).last = code := rfl
@[simp] theorem complete_res : (complete code s).res = s.res := rfl
@[simp] theorem complete_cnt : (complete code s).cnt = s.cnt := rfl
@[simp] theorem complete_modIn : (complete code s).modIn = s.modIn := rfl
@[simp] theorem complete_modOut : (complete code s).modOut = s.modOut := rfl
@[simp] theorem complete_demIn : (complete code s).demIn = s.demIn := rfl
@[simp] theorem complete_demOut : (complete code s).demOut = s.demOut := rfl
@[simp] theorem complete_fcsIn : (complete code s).fcsIn = s.fcsIn := rfl
@[simp] theorem complete_fcsOut : (complete code s).fcsOut = s.fcsOut := rfl
@[simp] theorem complete_port : (complete code s).port = s.port := rfl
@[simp] theorem complete_response : (complete code s).response = some ⟨code, .int 0⟩ := rfl
@[simp] theorem complete_popped : (complete code s).popped = s.popped := rfl
@[simp] theorem complete_draws : (complete code s).draws = s.draws := rfl

@[simp] theorem raiseConfigError_phase : (raiseConfigError s).phase = .fatal := rfl
@[simp] theorem raiseConfigError_cfg : (raiseConfigError s).cfg = s.cfg := rfl
@[simp] theorem raiseConfigError_plan : (raiseConfigError s).plan = s.plan := rfl
@[simp] theorem raiseConfigError_demFound : (raiseConfigError s).demFound = s.demFound := rfl
@[simp] theorem raiseConfigError_fcsOk : (raiseConfigError s).fcsOk = s.fcsOk := rfl
@[simp] theorem raiseConfigError_last : (raiseConfigError s).last = .configError := rfl
@[simp] theorem raiseConfigError_res : (raiseConfigError s).res = s.res := rfl
@[simp] theorem raiseConfigError_cnt : (raiseConfigError s).cnt = s.cnt := rfl
@[simp] theorem raiseConfigError_modIn : (raiseConfigError s).modIn = s.modIn := rfl
@[simp] theorem raiseConfigError_modOut : (raiseConfigError s).modOut = s.modOut := rfl
@[simp] theorem raiseConfigError_demIn : (raiseConfigError s).demIn = s.demIn := rfl
@[simp] theorem raiseConfigError_demOut : (raiseConfigError s).demOut = s.demOut := rfl
@[simp] theorem raiseConfigError_fcsIn : (raiseConfigError s).fcsIn = s.fcsIn := rfl
@[simp] theorem raiseConfigError_fcsOut : (raiseConfigError s).fcsOut = s.fcsOut := rfl
@[simp] theorem raiseConfigError_port : (raiseConfigError s).port = s.port := rfl
@[simp] theorem raiseConfigError_response : (raiseConfigError s).response = some ⟨.configError, .int 0⟩ := rfl
@[simp] theorem raiseConfigError_popped : (raiseConfigError s).popped = s.popped := rfl
@[simp] theorem raiseConfigError_draws : (raiseConfigError s).draws = s.draws := rfl

@[simp] theorem raiseFrameIntegrityError_phase : (raiseFrameIntegrityError s).phase = s.phase := rfl
@[simp] theorem raiseFrameIntegrityError_cfg : (raiseFrameIntegrityError s).cfg = s.cfg := rfl
@[simp] theorem raiseFrameIntegrityError_plan : (raiseFrameIntegrityError s).plan = s.plan := rfl
@[simp] theorem raiseFrameIntegrityError_demFound : (raiseFrameIntegrityError s).demFound = s.demFound := rfl
@[simp] theorem raiseFrameIntegrityError_fcsOk : (raiseFrameIntegrityError s).fcsOk = false := rfl
@[simp] theorem raiseFrameIntegrityError_last : (raiseFrameIntegrityError s).last = .frameIntegrityError := rfl
@[simp] theorem raiseFrameIntegrityError_res : (raiseFrameIntegrityError s).res = s.res := rfl
@[simp] theorem raiseFrameIntegrityError_cnt : (raiseFrameIntegrityError s).cnt = { s.cnt with rxTotal := s.cnt.rxTotal + 1, rxBad := s.cnt.rxBad + 1 } := rfl
@[simp] theorem raiseFrameIntegrityError_modIn : (raiseFrameIntegrityError s).modIn = s.modIn := rfl
@[simp] theorem raiseFrameIntegrityError_modOut : (raiseFrameIntegrityError s).modOut = s.modOut := rfl
@[simp] theorem raiseFrameIntegrityError_demIn : (raiseFrameIntegrityError s).demIn = s.demIn := rfl
@[simp] theorem raiseFrameIntegrityError_demOut : (raiseFrameIntegrityError s).demOut = s.demOut := rfl
@[simp] theorem raiseFrameIntegrityError_fcsIn : (raiseFrameIntegrityError s).fcsIn = s.fcsIn := rfl
@[simp] theorem raiseFrameIntegrityError_fcsOut : (raiseFrameIntegrityError s).fcsOut = s.fcsOut := rfl
@[simp] theorem raiseFrameIntegrityError_port : (raiseFrameIntegrityError s).port = s.port := rfl
@[simp] theorem raiseFrameIntegrityError_response : (raiseFrameIntegrityError s).response = some ⟨.frameIntegrityError, .int 0⟩ := rfl
@[simp] theorem raiseFrameIntegrityError_popped : (raiseFrameIntegrityError s).popped = s.popped := rfl
@[simp] theorem raiseFrameIntegrityError_draws : (raiseFrameIntegrityError s).draws = s.draws := rfl

@[simp] theorem noteDetection_phase : (noteDetection cand s).phase = s.phase := rfl
@[simp] theorem noteDetection_cfg : (noteDetection cand s).cfg = s.cfg := rfl
@[simp] theorem noteDetection_plan : (noteDetection cand s).plan = s.plan := rfl
@[simp] theorem noteDetection_demFound : (noteDetection cand s).demFound = s.demFound := rfl
@[simp] theorem noteDetection_fcsOk : (noteDetection cand s).fcsOk = s.fcsOk := rfl
@[simp] theorem noteDetection_last : (noteDetection cand s).last = s.last := rfl
@[simp] theorem noteDetection_res : (noteDetection cand s).res = { s.res with demOffset := BitVec.ofNat 32 cand.pos, demPeak := cand.peak } := rfl
@[simp] theorem noteDetection_cnt : (noteDetection cand s).cnt = s.cnt := rfl
@[simp] theorem noteDetection_modIn : (noteDetection cand s).modIn = s.modIn := rfl
@[simp] theorem noteDetection_modOut : (noteDetection cand s).modOut = s.modOut := rfl
@[simp] theorem noteDetection_demIn : (noteDetection cand s).demIn = s.demIn := rfl
@[simp] theorem noteDetection_demOut : (noteDetection cand s).demOut = s.demOut := rfl
@[simp] theorem noteDetection_fcsIn : (noteDetection cand s).fcsIn = s.fcsIn := rfl
@[simp] theorem noteDetection_fcsOut : (noteDetection cand s).fcsOut = s.fcsOut := rfl
@[simp] theorem noteDetection_port : (noteDetection cand s).port = s.port := rfl
@[simp] theorem noteDetection_response : (noteDetection cand s).response = s.response := rfl
@[simp] theorem noteDetection_popped : (noteDetection cand s).popped = s.popped := rfl
@[simp] theorem noteDetection_draws : (noteDetection cand s).draws = s.draws := rfl

@[simp] theorem resetBlock_phase : (resetBlock zero s).phase = (State.init zero).phase := rfl
@[simp] theorem resetBlock_cfg : (resetBlock zero s).cfg = (State.init zero).cfg := rfl
@[simp] theorem resetBlock_plan : (resetBlock zero s).plan = (State.init zero).plan := rfl
@[simp] theorem resetBlock_demFound : (resetBlock zero s).demFound = (State.init zero).demFound := rfl
@[simp] theorem resetBlock_fcsOk : (resetBlock zero s).fcsOk = (State.init zero).fcsOk := rfl
@[simp] theorem resetBlock_last : (resetBlock zero s).last = (State.init zero).last := rfl
@[simp] theorem resetBlock_res : (resetBlock zero s).res = (State.init zero).res := rfl
@[simp] theorem resetBlock_cnt : (resetBlock zero s).cnt = (State.init zero).cnt := rfl
@[simp] theorem resetBlock_modIn : (resetBlock zero s).modIn = (State.init zero).modIn := rfl
@[simp] theorem resetBlock_modOut : (resetBlock zero s).modOut = (State.init zero).modOut := rfl
@[simp] theorem resetBlock_demIn : (resetBlock zero s).demIn = (State.init zero).demIn := rfl
@[simp] theorem resetBlock_demOut : (resetBlock zero s).demOut = (State.init zero).demOut := rfl
@[simp] theorem resetBlock_fcsIn : (resetBlock zero s).fcsIn = (State.init zero).fcsIn := rfl
@[simp] theorem resetBlock_fcsOut : (resetBlock zero s).fcsOut = (State.init zero).fcsOut := rfl
@[simp] theorem resetBlock_port : (resetBlock zero s).port = s.port := rfl
@[simp] theorem resetBlock_response : (resetBlock zero s).response = (State.init zero).response := rfl
@[simp] theorem resetBlock_popped : (resetBlock zero s).popped = (State.init zero).popped := rfl
@[simp] theorem resetBlock_draws : (resetBlock zero s).draws = s.draws := rfl

end Sys2Proof.Machine
end

