-- ==== Sys2Proof/Laws/Ops.lean ====
section
/-! SUPPORT. Everything the shared operations and the meanings can do, said once per operation. -/

namespace Sys2Proof.Machine

variable {σ : Type}

/-- The three answers of the plan guard. -/
theorem withPlan_cases (s : State σ) (work : Plan σ → State σ) :
    (s.phase = .fatal ∧ withPlan s work = complete .configError s) ∨
    ((s.phase = .unconfigured ∨ s.phase = .ready ∧ s.plan = none) ∧ withPlan s work = raiseConfigError s) ∨
    (s.phase = .ready ∧ ∃ p, s.plan = some p ∧ withPlan s work = work p) := by
  unfold withPlan
  cases hp : s.phase with
  | fatal => simp
  | unconfigured => simp
  | ready => cases hq : s.plan <;> simp

theorem withPlan_ready {s : State σ} {p : Plan σ} (work : Plan σ → State σ)
    (hr : s.phase = .ready) (hp : s.plan = some p) : withPlan s work = work p := by
  simp [withPlan, hr, hp]

/-- The two answers of the FIFO checks. -/
theorem withHead_cases {α β : Type} (s : State σ) (capacity : Nat) (out : List α) (input : List β)
    (work : β → List β → State σ) :
    ((capacity ≤ out.length ∨ input = []) ∧ withHead s capacity out input work = complete .buffer s) ∨
    (out.length < capacity ∧ ∃ head rest, input = head :: rest ∧
      withHead s capacity out input work = work head rest) := by
  unfold withHead
  by_cases h : capacity ≤ out.length
  · exact .inl ⟨.inl h, by simp [h]⟩
  · cases input with
    | nil => exact .inl ⟨.inr rfl, by simp [h]⟩
    | cons a l => exact .inr ⟨by omega, a, l, rfl, by simp [h]⟩

theorem withHead_cons {α β : Type} {s : State σ} {capacity : Nat} {out : List α} {input rest : List β} {head : β}
    (work : β → List β → State σ) (ho : out.length < capacity) (hi : input = head :: rest) :
    withHead s capacity out input work = work head rest := by
  simp [withHead, hi, Nat.not_le.mpr ho]

/-- The three answers of the configuration guard. -/
theorem whileUnconfigured_cases (s work : State σ) :
    (s.phase = .fatal ∧ whileUnconfigured s work = complete .configError s) ∨
    (s.phase = .ready ∧ whileUnconfigured s work = complete .illegalCommand s) ∨
    (s.phase = .unconfigured ∧ whileUnconfigured s work = work) := by
  unfold whileUnconfigured
  cases s.phase <;> simp

/-- What `CFG.WR` can do. -/
theorem execCfgWr_cases {field : BitVec 4} {value : BitVec 24} {s t : State σ} (h : execCfgWr field value s = .next t) :
    t = complete .illegalCommand s ∨ t = complete .configError s ∨
    (field.toNat < 8 ∧ s.phase = .unconfigured ∧
      t = complete .ok { s with cfg := s.cfg.write field value }) := by
  simp only [execCfgWr, Host.Outcome.next.injEq] at h
  split at h
  · rename_i hf
    rcases whileUnconfigured_cases s (complete .ok { s with cfg := s.cfg.write field value })
      with ⟨_, e⟩ | ⟨_, e⟩ | ⟨hu, e⟩
    · exact .inr (.inl (by rw [← h, e]))
    · exact .inl (by rw [← h, e])
    · exact .inr (.inr ⟨hf, hu, by rw [← h, e]⟩)
  · exact .inl h.symm

/-- What `PLAN.BUILD` can do. -/
theorem planBuildOf_cases {c : Impl σ} {s t : State σ} (h : planBuildOf c s = .next t) :
    t = complete .illegalCommand s ∨ t = complete .configError s ∨
    (s.phase = .unconfigured ∧ t = raiseConfigError s) ∨
    (s.phase = .unconfigured ∧ ∃ v, cfgValues s.cfg = some v ∧ cfgLegal c.qmax v = true ∧
      t = complete .ok { s with plan := some (buildPlan c.num c.rom v), phase := .ready }) := by
  simp only [planBuildOf, Host.Outcome.next.injEq] at h
  rcases whileUnconfigured_cases s _ with ⟨_, e⟩ | ⟨_, e⟩ | ⟨hu, e⟩
  · exact .inr (.inl (by rw [← h, e]))
  · exact .inl (by rw [← h, e])
  · rw [e] at h
    refine .inr (.inr ?_)
    cases hv : cfgValues s.cfg with
    | none => simp only [hv] at h; exact .inl ⟨hu, h.symm⟩
    | some v =>
      simp only [hv] at h
      split at h
      · rename_i hl; exact .inr ⟨hu, v, rfl, hl, h.symm⟩
      · exact .inl ⟨hu, h.symm⟩

/-- What `MOD.RUN` can do. -/
theorem modRunOf_cases {c : Impl σ} {pre : Bool} {s t : State σ} (h : modRunOf c pre s = .next t) :
    (s.phase = .fatal ∧ t = complete .configError s) ∨
    (s.phase ≠ .fatal ∧ t = raiseConfigError s) ∨
    t = complete .buffer s ∨
    (s.phase = .ready ∧ s.modOut.length < c.depthModOut ∧ ∃ p bits rest, s.plan = some p ∧
      s.modIn = bits :: rest ∧ t = modRunOn c pre s p bits rest) := by
  simp only [modRunOf, Host.Outcome.next.injEq] at h
  rcases withPlan_cases s (fun p => withHead s c.depthModOut s.modOut s.modIn (modRunOn c pre s p))
    with ⟨hf, e⟩ | ⟨hu, e⟩ | ⟨hr, p, hp, e⟩
  · exact .inl ⟨hf, by rw [← h, e]⟩
  · refine .inr (.inl ⟨?_, by rw [← h, e]⟩)
    rcases hu with hu | ⟨hu, _⟩ <;> simp [hu]
  · rw [e] at h
    rcases withHead_cases s c.depthModOut s.modOut s.modIn (modRunOn c pre s p)
      with ⟨_, e'⟩ | ⟨ho, bits, rest, hi, e'⟩
    · exact .inr (.inr (.inl (by rw [← h, e'])))
    · exact .inr (.inr (.inr ⟨hr, ho, p, bits, rest, hp, hi, by rw [← h, e']⟩))

/-- What `DEM.RUN` can do. -/
theorem demRunOf_cases {c : Impl σ} {s t : State σ} (h : demRunOf c s = .next t) :
    (s.phase = .fatal ∧ t = complete .configError s) ∨
    (s.phase ≠ .fatal ∧ t = raiseConfigError s) ∨
    t = complete .buffer s ∨
    (s.phase = .ready ∧ s.demOut.length < c.depthDemOut ∧ ∃ p r rest, s.plan = some p ∧
      s.demIn = r :: rest ∧ t = demRunOn c s p r rest) := by
  simp only [demRunOf, Host.Outcome.next.injEq] at h
  rcases withPlan_cases s (fun p => if 2 < p.m ∧ c.demapQam = .refuse then raiseConfigError s
      else withHead s c.depthDemOut s.demOut s.demIn (demRunOn c s p))
    with ⟨hf, e⟩ | ⟨hu, e⟩ | ⟨hr, p, hp, e⟩
  · exact .inl ⟨hf, by rw [← h, e]⟩
  · refine .inr (.inl ⟨?_, by rw [← h, e]⟩)
    rcases hu with hu | ⟨hu, _⟩ <;> simp [hu]
  · rw [e] at h
    split at h
    · exact .inr (.inl ⟨by simp [hr], h.symm⟩)
    · rcases withHead_cases s c.depthDemOut s.demOut s.demIn (demRunOn c s p)
        with ⟨_, e'⟩ | ⟨ho, r, rest, hi, e'⟩
      · exact .inr (.inr (.inl (by rw [← h, e'])))
      · exact .inr (.inr (.inr ⟨hr, ho, p, r, rest, hp, hi, by rw [← h, e']⟩))

/-- What `FCS.BUILD` can do. -/
theorem fcsBuildOf_cases {c : Impl σ} {seq : BitVec 16} {s t : State σ} (h : fcsBuildOf c seq s = .next t) :
    (s.phase = .fatal ∧ t = complete .configError s) ∨
    (s.phase ≠ .fatal ∧ t = raiseConfigError s) ∨
    t = complete .buffer s ∨
    (s.phase = .ready ∧ s.fcsOut.length < c.depthFcsOut ∧ ∃ p payload rest, s.plan = some p ∧
      s.fcsIn = payload :: rest ∧ payload.length = p.payload ∧
      t = complete .ok { s with fcsIn := rest, fcsOut := s.fcsOut ++ [buildFrame p seq.toNat payload] }) := by
  simp only [fcsBuildOf, Host.Outcome.next.injEq] at h
  rcases withPlan_cases s _ with ⟨hf, e⟩ | ⟨hu, e⟩ | ⟨hr, p, hp, e⟩
  · exact .inl ⟨hf, by rw [← h, e]⟩
  · refine .inr (.inl ⟨?_, by rw [← h, e]⟩)
    rcases hu with hu | ⟨hu, _⟩ <;> simp [hu]
  · rw [e] at h
    rcases withHead_cases s c.depthFcsOut s.fcsOut s.fcsIn _ with ⟨_, e'⟩ | ⟨ho, m, rest, hi, e'⟩
    · exact .inr (.inr (.inl (by rw [← h, e'])))
    · rw [e'] at h
      split at h
      · exact .inr (.inr (.inl h.symm))
      · rename_i hl
        exact .inr (.inr (.inr ⟨hr, ho, p, m, rest, hp, hi, by simpa using hl, h.symm⟩))

/-- What `FCS.CHECK` can do. -/
theorem fcsCheckOf_cases {c : Impl σ} {s t : State σ} (h : fcsCheckOf c s = .next t) :
    (s.phase = .fatal ∧ t = complete .configError s) ∨
    (s.phase ≠ .fatal ∧ t = raiseConfigError s) ∨
    t = complete .buffer s ∨
    (s.phase = .ready ∧ s.fcsOut.length < c.depthFcsOut ∧ ∃ p msg rest, s.plan = some p ∧
      s.fcsIn = msg :: rest ∧ p.frameBits ≤ msg.length ∧
      ((frameIntact p msg = true ∧ t = acceptFrame p msg rest s) ∨
       (frameIntact p msg = false ∧ t = raiseFrameIntegrityError { s with fcsIn := rest }))) := by
  simp only [fcsCheckOf, Host.Outcome.next.injEq] at h
  rcases withPlan_cases s _ with ⟨hf, e⟩ | ⟨hu, e⟩ | ⟨hr, p, hp, e⟩
  · exact .inl ⟨hf, by rw [← h, e]⟩
  · refine .inr (.inl ⟨?_, by rw [← h, e]⟩)
    rcases hu with hu | ⟨hu, _⟩ <;> simp [hu]
  · rw [e] at h
    rcases withHead_cases s c.depthFcsOut s.fcsOut s.fcsIn _ with ⟨_, e'⟩ | ⟨ho, m, rest, hi, e'⟩
    · exact .inr (.inr (.inl (by rw [← h, e'])))
    · rw [e'] at h
      split at h
      · exact .inr (.inr (.inl h.symm))
      · rename_i hl
        refine .inr (.inr (.inr ⟨hr, ho, p, m, rest, hp, hi, by omega, ?_⟩))
        split at h
        · rename_i hc; exact .inl ⟨hc, h.symm⟩
        · rename_i hc; exact .inr ⟨by simpa using hc, h.symm⟩

/-- The work of `DEM.RUN` ends in one of three ways (R161). -/
theorem demRunOn_cases (c : Impl σ) (s : State σ) (p : Plan σ) (r : Samples σ) (rest : List (Samples σ)) :
    demRunOn c s p r rest =
      complete .noFrameDetected
        { noteDetection (detect c.num p r) s with demIn := rest, demFound := false } ∨
    demRunOn c s p r rest = complete .needBlock (noteDetection (detect c.num p r) s) ∨
    ∃ w blocks, findWindow c.num p (detect c.num p r) r rest.head? = .window w blocks ∧
      demRunOn c s p r rest = complete .ok
        { noteDetection (detect c.num p r) s with
          demIn := s.demIn.drop blocks
          demOut := s.demOut ++ [(decodeWindow c.num c.rom p (drawsFrom c s) w).bits]
          res := { (noteDetection (detect c.num p r) s).res with
            demCfo := (decodeWindow c.num c.rom p (drawsFrom c s) w).cfo }
          demFound := true
          draws := s.draws + p.nsym * p.dataCount } := by
  unfold demRunOn
  cases h : findWindow c.num p (detect c.num p r) r rest.head? with
  | noFrame => simp [h]
  | needBlock => simp [h]
  | window w b => exact .inr (.inr ⟨w, b, rfl, by simp [h]⟩)

/-- Every command completes: no command faults and none is refused. -/
theorem execOf_next (c : Impl σ) (i : Instr) (s : State σ) : ∃ t, execOf c i s = .next t := by
  cases i <;> exact ⟨_, rfl⟩

/-- The machine is the block over its own implementation. -/
theorem exec_eq_execOf (i : Instr) (s : State) : exec i s = execOf Config.impl i s := by
  cases i <;> rfl

theorem exec_next (i : Instr) (s : State) : ∃ t, exec i s = .next t := by
  rw [exec_eq_execOf]; exact execOf_next _ i s

/-- A command word that decodes runs its command, over any implementation. -/
theorem stepOf_command {c : Impl σ} {s : State σ} {rest : List (HostAction σ)} {w : Word} {i : Instr}
    (hp : s.port = .command w :: rest) (hd : decode w = .ok i) :
    stepOf c s = execOf c i { s with port := rest } := by
  simp [stepOf, takeNext, hp, takeAction, issueWord, hd]

/-- The parts of the machine's implementation. -/
@[simp] theorem impl_num : Config.impl.num = Config.num := rfl
@[simp] theorem impl_rom : Config.impl.rom = Config.rom := rfl
@[simp] theorem impl_qmax : Config.impl.qmax = Config.qmax := rfl
@[simp] theorem impl_demapQam : Config.impl.demapQam = Config.demapQam := rfl
@[simp] theorem impl_depthModIn : Config.impl.depthModIn = Config.depthModIn := rfl
@[simp] theorem impl_depthModOut : Config.impl.depthModOut = Config.depthModOut := rfl
@[simp] theorem impl_iqDepth : Config.impl.iqDepth = Config.iqDepth := rfl
@[simp] theorem impl_depthDemOut : Config.impl.depthDemOut = Config.depthDemOut := rfl
@[simp] theorem impl_depthFcsIn : Config.impl.depthFcsIn = Config.depthFcsIn := rfl
@[simp] theorem impl_depthFcsOut : Config.impl.depthFcsOut = Config.depthFcsOut := rfl
@[simp] theorem impl_freeValue : Config.impl.freeValue = Config.freeValue := rfl

/-- The machine's implementation is legal, whatever its open parameters are. -/
theorem impl_legal : Config.impl.Legal where
  rom := Config.format.legal
  depthModIn := by simp [Config.depthModIn]
  depthModOut := by simp [Config.depthModOut]
  iqDepth := by simp [Config.iqDepth]
  depthDemOut := by simp [Config.depthDemOut]
  depthFcsIn := by simp [Config.depthFcsIn]
  depthFcsOut := by simp [Config.depthFcsOut]

end Sys2Proof.Machine
end

