-- ==== Sys2Proof/Laws/PerInstr.lean ====
section
/-! SUPPORT. Statements per instruction, as syntax: the word of a well-formed command is of its row of the opcode table. -/

namespace Sys2Proof.Laws.TableRow

/-- The word of a well-formed command has its row's bits under its row's mask (`opcode_table.json`). -/
def Statement (i : Instr) : Prop := i.WellFormed → (opcodeRow i).matchesWord (encode i) = true

theorem nop : Statement .nop := by intro _; decide

theorem bit3_of_lt_8 : ∀ f : BitVec 4, f.toNat < 8 → f[3] = false := by decide

theorem cfgWr (field : BitVec 4) (value : BitVec 24) : Statement (.cfgWr field value) := by
  intro h
  have hf : field.toNat < 8 := by simpa [Instr.WellFormed, Instr.wellFormed] using h
  have h3 := bit3_of_lt_8 field hf
  refine decide_eq_true (BitVec.eq_of_getLsbD_eq fun i hi => ?_)
  simp only [opcodeRow, encode, BitVec.getLsbD_and, packWord_getLsbD]
  interval_cases i <;> simp [h3]

theorem planBuild : Statement .planBuild := by intro _; decide

theorem modRun (pre : Bool) : Statement (.modRun pre) := by intro _; cases pre <;> decide

theorem demRun : Statement .demRun := by intro _; decide

theorem fcsBuild (seq : BitVec 16) : Statement (.fcsBuild seq) := by
  intro _
  refine decide_eq_true (BitVec.eq_of_getLsbD_eq fun i hi => ?_)
  have himm (k : Nat) : (0x00#8 ++ seq : BitVec (8 + 16)).getLsbD k = if k < 16 then seq.getLsbD k else false := by
    rw [BitVec.getLsbD_append]; split <;> simp
  simp only [opcodeRow, encode, BitVec.getLsbD_and, packWord_getLsbD]
  rw [show (0x00#8 ++ seq : BitVec 24).getLsbD i = _ from himm i]
  interval_cases i <;> simp

theorem fcsCheck : Statement .fcsCheck := by intro _; decide

theorem resRd (reg : BitVec 4) : Statement (.resRd reg) := by intro _; revert reg; decide

theorem cntRd (cnt : BitVec 4) : Statement (.cntRd cnt) := by revert cnt; unfold Statement; decide

theorem cntClr : Statement .cntClr := by intro _; decide

theorem statRd : Statement .statRd := by intro _; decide

theorem sreset : Statement .sreset := by intro _; decide

end Sys2Proof.Laws.TableRow
end

