-- ==== Sys2Proof/Laws/Plan.lean ====
section
/-! SUPPORT. The parts of a plan: the subcarrier sets of a legal table, the lengths of its tables, the configuration checks. -/

namespace Sys2Proof.Machine

variable {σ : Type}

/-- A table whose support is the complement of `NULL_ALWAYS` has the 52 active subcarriers. -/
theorem active_of_legal {n : Num σ} {rom : Rom σ} (h : rom.Legal n) : activeOf n rom = activeIndices :=
  List.filter_congr fun k hk => by rw [h.support k (List.mem_range.mp hk)]

/-- The data subcarriers of the 52 active ones. -/
theorem dataOf_activeIndices : dataOf activeIndices = dataIndices := by decide

/-- The null subcarriers beside them. -/
theorem nullOf_dataIndices : nullOf dataIndices = nullIndices := by decide

theorem dataIndices_length : dataIndices.length = 48 := rfl

theorem longSectionOf_length (rom : Rom σ) {cpLen : Nat} (h : cpLen ≤ 32) :
    (longSectionOf rom cpLen).length = 2 * cpLen + 128 := by
  simp only [longSectionOf, List.length_append, slice_length, tabulate_length]
  omega

theorem preambleOf_length (rom : Rom σ) {cpLen : Nat} (h : cpLen ≤ 32) :
    (preambleOf rom cpLen).length = 160 + (2 * cpLen + 128) := by
  simp only [preambleOf, List.length_append, rep_length, tabulate_length, longSectionOf_length rom h]

theorem preambleOf_drop (rom : Rom σ) (cpLen : Nat) : (preambleOf rom cpLen).drop 160 = longSectionOf rom cpLen := by
  unfold preambleOf
  rw [List.drop_append_of_le_length (by simp), List.drop_of_length_le (by simp), List.nil_append]

/-- Setting entries keeps the length of the table. -/
theorem qamTable_length (n : Num σ) (m s : Nat) : (qamTable n m s).length = m := by
  have h (l : List Nat) (table : List (Cx σ)) :
      (l.foldl (fun table i => table.set (gray i) (gridPoint n s i)) table).length = table.length := by
    induction l generalizing table with
    | nil => rfl
    | cons a l ih => rw [List.foldl_cons, ih, List.length_set]
  rw [qamTable, h, List.length_replicate]

theorem constellation_length (n : Num σ) (m : Nat) : (constellation n m).length = m := by
  unfold constellation
  split
  · simp [bpskTable, *]
  · exact qamTable_length n m _

/-- Bits per symbol of a square order. -/
theorem bitsPerSymbol_pow {q : Nat} (h : 1 ≤ q) : bitsPerSymbol (4 ^ q) = 2 * q := by
  have h2 : (4 : Nat) ^ q ≠ 2 := by
    have : 4 ^ 1 ≤ 4 ^ q := Nat.pow_le_pow_right (by omega) h
    omega
  have e : (4 : Nat) ^ q = 2 ^ (2 * q) := by rw [Nat.pow_mul]
  rw [bitsPerSymbol, if_neg h2, e, Nat.log2_two_pow]

/-- The order check as the rule writes it (R103 d). -/
theorem legalOrder_iff (qmax m : Nat) : legalOrder qmax m = true ↔ m = 2 ∨ ∃ q, 1 ≤ q ∧ q ≤ qmax ∧ m = 4 ^ q := by
  simp only [legalOrder, Bool.or_eq_true, decide_eq_true_eq, List.any_eq_true, List.mem_range]
  refine or_congr_right ⟨?_, ?_⟩
  · rintro ⟨q, hq, rfl⟩; exact ⟨q + 1, by omega, by omega, rfl⟩
  · rintro ⟨q, h1, hq, rfl⟩; exact ⟨q - 1, by omega, by rw [Nat.sub_add_cancel h1]⟩

/-- The checks of `PLAN.BUILD` as R102 writes them. -/
theorem cfgLegal_iff (qmax : Nat) (v : CfgValues) : cfgLegal qmax v = true ↔ v.Legal qmax := by
  simp only [cfgLegal, CfgValues.Legal, Bool.and_eq_true, decide_eq_true_eq, legalOrder_iff, and_assoc]

/-- A legal configuration over a table with the 52 active subcarriers builds a sound plan. -/
theorem buildPlan_sound (n : Num σ) (rom : Rom σ) {qmax : Nat} {v : CfgValues}
    (ha : activeOf n rom = activeIndices) (hv : v.Legal qmax) (hb : v.block < 2 ^ 24) :
    (buildPlan n rom v).Sound := by
  obtain ⟨hn, -, hc, ho, hs, hp, hq, hl⟩ := hv
  have hd : dataOf (activeOf n rom) = dataIndices := by rw [ha, dataOf_activeIndices]
  constructor
  case order =>
    rcases ho with h | ⟨q, h1, -, h⟩
    · exact .inl ⟨h, by simp [buildPlan, bitsPerSymbol, h]⟩
    · exact .inr ⟨q, h1, h, by simp only [buildPlan, h, bitsPerSymbol_pow h1]⟩
  case data_eq => exact hd
  case null_eq => simp only [buildPlan, hd, nullOf_dataIndices]
  case active_eq => exact ha
  case dataCount_eq => simp only [buildPlan, hd, dataIndices_length]
  case table_length => exact constellation_length n v.qam
  case preamble_length => exact preambleOf_length rom hc
  case longSection_eq => exact (preambleOf_drop rom v.cplen).symm
  case block_ge => simpa [buildPlan, hn] using hl
  case nsym_pos => exact Nat.pos_of_ne_zero hs
  case payload_pos => exact Nat.pos_of_ne_zero hp
  case size_eq => exact hn
  case cpLen_le => exact hc
  case symLen_eq => simp [buildPlan, hn]
  case window_eq => simp [buildPlan, hn]
  case arq_le => exact hq
  case block_lt => exact hb
  all_goals rfl

end Sys2Proof.Machine
end

