-- ==== Sys2Proof/Laws/Reference.lean ====
section
/-! SUPPORT. The default tables over the reference instance meet the constraints of `10_state.md` R29. -/

namespace Sys2Proof

/-- An entry of the default `TREF` as a complex number. -/
theorem defaultTref_toComplex (k : Nat) :
    (defaultTref realNum k).toComplex = ((defaultTrefValues.getD k 0 : Int) : ℂ) := by
  simp [defaultTref, Cx.toComplex, Complex.ext_iff]

/-- The default `TREF` is zero exactly on `NULL_ALWAYS`. -/
theorem defaultTref_support (k : Nat) (hk : k < 64) :
    realNum.isZero ((defaultRom realNum).tref k) = nullAlways k := by
  have table : ∀ k < 64, (defaultTrefValues.getD k 0 = 0) ↔ nullAlways k = true := by decide
  rw [Bool.eq_iff_iff, realNum_isZero, ← table k hk]
  show (defaultTref realNum k).toComplex = 0 ↔ _
  rw [defaultTref_toComplex, Int.cast_eq_zero]

/-- Sample 0 of the default `LTS_T` is a 64th of the sum of the default `TREF`, 10. -/
theorem defaultLts_zero : ((defaultRom realNum).ltsT 0).toComplex = 10 / 64 := by
  show (realNum.ifft (defaultTref realNum) 0).toComplex = _
  have table : ∑ k ∈ Finset.range 64, defaultTrefValues.getD k 0 = 10 := by decide
  have htw (k : Nat) : (realNum.twiddle (((k * 0 : Nat)) : Int)).toComplex = 1 := by
    simp [Num.twiddle]
  rw [Num.ifft, realNum_cscale, realNum_csum]
  simp only [realNum_cmul, htw, mul_one, defaultTref_toComplex, ← Int.cast_sum, table]
  simp
  ring

/-- Entry of the long section: its prefix is the end of `LTS_T`, then `LTS_T` twice (R108). -/
theorem at_longSectionOf {σ : Type} (n : Num σ) (rom : Rom σ) {cpLen t : Nat} (h : cpLen ≤ 32)
    (ht : t < 2 * cpLen + 128) : n.at (longSectionOf rom cpLen) t = rom.ltsT ((t + 64 - 2 * cpLen) % 64) := by
  have hl : (slice (tabulate 64 rom.ltsT) (64 - 2 * cpLen) 64).length = 2 * cpLen := by
    rw [slice_length_of_le _ (by simp)]; omega
  simp only [Num.at, longSectionOf, List.append_assoc]
  by_cases h1 : t < 2 * cpLen
  · rw [List.getD_append _ _ _ _ (by omega), slice_getD _ _ (by omega), tabulate_getD _ _ _ (by omega)]
    congr 1; omega
  · rw [List.getD_append_right _ _ _ _ (by omega), hl]
    by_cases h2 : t - 2 * cpLen < 64
    · rw [List.getD_append _ _ _ _ (by simpa using h2), tabulate_getD _ _ _ h2]
      congr 1; omega
    · rw [List.getD_append_right _ _ _ _ (by simpa using h2), tabulate_length, tabulate_getD _ _ _ (by omega)]
      congr 1; omega

/-- Every real number is finite. -/
@[simp] theorem realNum_isFinite (z : Cx ℝ) : realNum.isFinite z = true := rfl

/-- The default tables are legal. -/
theorem defaultRom_legal : (defaultRom realNum).Legal realNum where
  lts := fun _ _ => rfl
  support := defaultTref_support
  finite := fun _ _ => ⟨rfl, rfl, fun _ => rfl⟩
  energy := by
    intro cpLen hc
    rw [realNum_lt, realNum_zero, sectionEnergy, realNum_sum]
    refine Finset.sum_pos' (fun t _ => ?_) ⟨2 * cpLen, by simp, ?_⟩
    · rw [realNum_normSq]; exact Complex.normSq_nonneg _
    · rw [realNum_normSq, at_longSectionOf _ _ hc (by omega), show (2 * cpLen + 64 - 2 * cpLen) % 64 = 0 by omega,
        defaultLts_zero]
      norm_num

/-- The reference implementation is legal, whatever the machine's open parameters are. -/
theorem realImpl_legal : realImpl.Legal where
  rom := defaultRom_legal
  depthModIn := by simp [realImpl, Config.depthModIn]
  depthModOut := by simp [realImpl, Config.depthModOut]
  iqDepth := by simp [realImpl, Config.iqDepth]
  depthDemOut := by simp [realImpl, Config.depthDemOut]
  depthFcsIn := by simp [realImpl, Config.depthFcsIn]
  depthFcsOut := by simp [realImpl, Config.depthFcsOut]

end Sys2Proof
end

