-- ==== Sys2Proof/Laws/Signal.lean ====
section
/-! SUPPORT. Lengths of what the modulator and the demodulator produce, and of a drop-oldest FIFO. -/

namespace Sys2Proof.Machine

variable {σ : Type}

/-- A symbol is its body behind its prefix (R135). -/
theorem symbolSamples_length (n : Num σ) (p : Plan σ) (X : Nat → Cx σ) (h : p.cpLen ≤ 32) :
    (symbolSamples n p X).length = 64 + p.cpLen := by
  simp only [symbolSamples, List.length_append, slice_length, tabulate_length]
  omega

/-- The length of a frame (R140). -/
theorem modulate_length (n : Num σ) (rom : Rom σ) (p : Plan σ) (bits : Bits) (pre : Bool) (h : p.cpLen ≤ 32) :
    (modulate n rom p bits pre).frame.length =
      (if pre then p.preamble.length else 0) + (modulate n rom p bits pre).symbols * (64 + p.cpLen) := by
  have hs := concatMap_length_of (symbolsNeeded p (modPoints n p bits).length) (64 + p.cpLen)
    (fun i => symbolSamples n p (assemble n rom p (modPoints n p bits) i)) fun i _ => symbolSamples_length n p _ h
  cases pre <;> simp [modulate, hs]

/-- A decision gives `bps` bits (R199, R201). -/
theorem decideBits_length (n : Num σ) (p : Plan σ) (draw : Nat) (z : Cx σ) (h : p.m = 2 → p.bps = 1) :
    (decideBits n p draw z).length = p.bps := by
  unfold decideBits
  split
  · rename_i hm; simp [h hm]
  · simp

/-- The length of what a window decodes to (R203). -/
theorem decodeWindow_length (n : Num σ) (rom : Rom σ) (p : Plan σ) (draw : Nat → Nat) (w : Samples σ)
    (h : p.m = 2 → p.bps = 1) :
    (decodeWindow n rom p draw w).bits.length = p.nsym * (p.dataCount * p.bps) :=
  concatMap_length_of _ _ _ fun _ _ => concatMap_length_of _ _ _ fun _ _ => decideBits_length _ _ _ _ h

/-- What `findWindow` answers: at most two blocks are consumed (R161). -/
theorem findWindow_blocks {n : Num σ} {p : Plan σ} {cand : Candidate σ} {r w : Samples σ}
    {next? : Option (Samples σ)} {blocks : Nat} (h : findWindow n p cand r next? = .window w blocks) :
    blocks = 1 ∨ blocks = 2 ∧ next? ≠ none := by
  unfold findWindow at h
  split at h
  · simp only at h
    split at h
    · exact .inl (by simp only [Found.window.injEq] at h; exact h.2.symm)
    · split at h
      · simp at h
      · exact .inr (by simp only [Found.window.injEq] at h; exact ⟨h.2.symm, by simp⟩)
  · simp at h

/-- A drop-oldest push never grows a FIFO past its capacity (R56). -/
theorem pushDropOldest_length_le {α : Type} {capacity : Nat} {fifo : List α} (msg : α) (h1 : 1 ≤ capacity)
    (h : fifo.length ≤ capacity) : (pushDropOldest capacity fifo msg).length ≤ capacity := by
  unfold pushDropOldest
  split <;> simp <;> omega

/-- A message of a drop-oldest FIFO after a push was there before or is the one pushed (R56). -/
theorem mem_pushDropOldest {α : Type} {capacity : Nat} {fifo : List α} {msg x : α}
    (h : x ∈ pushDropOldest capacity fifo msg) : x ∈ fifo ∨ x = msg := by
  unfold pushDropOldest at h
  split at h
  · rcases List.mem_append.mp h with h | h
    · exact .inl (List.mem_of_mem_tail h)
    · exact .inr (by simpa using h)
  · rcases List.mem_append.mp h with h | h
    · exact .inl h
    · exact .inr (by simpa using h)

end Sys2Proof.Machine
end

