-- ==== Sys2Proof/Tests/Slice0.lean ====
section
/-! SUPPORT. Tests on single steps, with expected values from `95_test_vectors.md` (vector named in each comment),
and for each statement with hypotheses a witness that meets them. -/

namespace Sys2Proof.Tests

open Sys2Proof.Machine

/-! ### Well-formedness: an ill-formed term for each check -/

theorem test_wellFormed_accepts_last_indices :
    (Instr.cfgWr 7 0).WellFormed ∧ (Instr.resRd 5).WellFormed ∧ (Instr.cntRd 3).WellFormed := by decide

theorem test_wellFormed_refuses_cfg_8 : ¬ (Instr.cfgWr 8 0).WellFormed := by decide

theorem test_wellFormed_refuses_res_6 : ¬ (Instr.resRd 6).WellFormed := by decide

theorem test_wellFormed_refuses_cnt_4 : ¬ (Instr.cntRd 4).WellFormed := by decide

/-! ### Decoding: the words E1 to E35, the fields written out as op, sub, imm -/

/-- E1, and the command port's numbering. -/
theorem test_decode_nop : decode (0b0000#4 ++ 0b0000#4 ++ 0x000000#24) = .ok .nop := by decide

/-- E2 to E9. -/
theorem test_decode_cfgWr :
    decode (0b0001#4 ++ 0b0000#4 ++ 0x000040#24) = .ok (.cfgWr 0 64) ∧
    decode (0b0001#4 ++ 0b0001#4 ++ 0x000010#24) = .ok (.cfgWr 1 16) ∧
    decode (0b0001#4 ++ 0b0100#4 ++ 0x000002#24) = .ok (.cfgWr 4 2) ∧
    decode (0b0001#4 ++ 0b0111#4 ++ 0x000258#24) = .ok (.cfgWr 7 600) := by decide

/-- E11. -/
theorem test_decode_planBuild : decode (0b0011#4 ++ 0b0000#4 ++ 0x000000#24) = .ok .planBuild := by decide

/-- E12, E13. -/
theorem test_decode_modRun :
    decode (0b0100#4 ++ 0b0000#4 ++ 0x000000#24) = .ok (.modRun false) ∧
    decode (0b0100#4 ++ 0b0001#4 ++ 0x000000#24) = .ok (.modRun true) := by decide

/-- E14. -/
theorem test_decode_demRun : decode (0b0101#4 ++ 0b0000#4 ++ 0x000000#24) = .ok .demRun := by decide

/-- E15. -/
theorem test_decode_fcsBuild : decode (0b0110#4 ++ 0b0000#4 ++ 0x000001#24) = .ok (.fcsBuild 1) := by decide

/-- E17. -/
theorem test_decode_fcsCheck : decode (0b0111#4 ++ 0b0000#4 ++ 0x000000#24) = .ok .fcsCheck := by decide

/-- E18, E19. -/
theorem test_decode_resRd :
    decode (0b1000#4 ++ 0b0011#4 ++ 0x000000#24) = .ok (.resRd 3) ∧
    decode (0b1000#4 ++ 0b0101#4 ++ 0x000000#24) = .ok (.resRd 5) := by decide

/-- E20. -/
theorem test_decode_cntRd : decode (0b1001#4 ++ 0b0011#4 ++ 0x000000#24) = .ok (.cntRd 3) := by decide

/-- E21. -/
theorem test_decode_cntClr : decode (0b1010#4 ++ 0b0000#4 ++ 0x000000#24) = .ok .cntClr := by decide

/-- E22. -/
theorem test_decode_statRd : decode (0b1011#4 ++ 0b0000#4 ++ 0x000000#24) = .ok .statRd := by decide

/-- E23. -/
theorem test_decode_sreset : decode (0b1100#4 ++ 0b0000#4 ++ 0x000000#24) = .ok .sreset := by decide

/-- E24 to E35. -/
theorem test_decode_illegal :
    [0x00000001, 0x18000000, 0x20000000, 0x30000001, 0x42000000, 0x41000001, 0x60010000, 0x61000000, 0x86000000,
      0x94000000, 0xB1000000, 0xD0000000, 0xE0000000, 0xFFFFFFFF].all
      (fun w => (decode w).toOption.isNone) = true := by decide

/-- The opcode table's own words, read through the host's entry point. -/
theorem test_decodeTableWord :
    decodeTableWord 32 0x41000000 = some (.modRun true) ∧ decodeTableWord 32 0x20000000 = none ∧
    decodeTableWord 32 0x100000000 = none := by decide

/-- No two rows of the opcode table share a word. -/
theorem test_opcode_rows_disjoint :
    opcodeTable.Pairwise fun a b => a.bits &&& (a.mask &&& b.mask) ≠ b.bits &&& (a.mask &&& b.mask) := by decide

/-! ### States for tests and witnesses -/

/-- The default configuration of `95_test_vectors.md`: (64, 16, 2, 0, 2, 48, 1, 600). -/
def defaultValues : CfgValues := ⟨64, 16, 2, 0, 2, 48, 1, 600⟩

/-- The same, in the registers. -/
def defaultCfg : CfgFile := ⟨some 64, some 16, some 2, some 0, some 2, some 48, some 1, some 600⟩

theorem defaultValues_legal (qmax : Nat) : defaultValues.Legal qmax := by
  refine ⟨rfl, rfl, by decide, .inl rfl, by decide, by decide, by decide, by decide⟩

/-- The plan of the default configuration. -/
def defaultPlan : Plan Scalar := buildPlan Config.num Config.rom defaultValues

theorem defaultPlan_sound : defaultPlan.Sound :=
  buildPlan_sound _ _ (active_of_legal Config.format.legal) (defaultValues_legal 0) (by decide)

/-- UNCONFIGURED, with all eight registers written. -/
def written : State := { State.reset with cfg := defaultCfg }

/-- READY with the default plan, all FIFOs empty. -/
def ready : State := { State.reset with phase := .ready, cfg := defaultCfg, plan := some defaultPlan }

/-- FATAL after a ConfigError without a plan. -/
def fatal : State := { State.reset with phase := .fatal, last := .configError }

theorem depths_pos : 0 < Config.depthModIn ∧ 0 < Config.depthModOut ∧ 2 ≤ Config.iqDepth ∧
    0 < Config.depthDemOut ∧ 0 < Config.depthFcsIn ∧ 0 < Config.depthFcsOut := by
  simp [Config.depthModIn, Config.depthModOut, Config.iqDepth, Config.depthDemOut, Config.depthFcsIn,
    Config.depthFcsOut]

theorem ready_inv : ready.Inv := by
  constructor <;> simp [ready, State.reset, State.init]
  · exact defaultPlan_sound
  · constructor <;> simp

/-- The bits of a list of bytes, MSB-first. -/
def bitsOf (bytes : List Nat) : Bits := (bytes.map (toBits 8)).flatten

/-- The payload of F5, `Pluto!`. -/
def pluto : Bits := bitsOf [0x50, 0x6C, 0x75, 0x74, 0x6F, 0x21]

/-- The frame of F5. -/
def plutoFrame : Bits := bitsOf [0x00, 0x01, 0x50, 0x6C, 0x75, 0x74, 0x6F, 0x21, 0x32, 0x0C, 0xB1, 0x72]

/-! ### One step each -/

/-- What a result is read by: the state after it. -/
def after : Result → Option State
  | .next t => some t
  | .fault _ => none
  | .refused _ => none

/-- R230 in FATAL (S14). -/
theorem test_nop_in_fatal : (after (exec .nop fatal)).map statusWord = some 2 := by decide

/-- E3 (R100's example). -/
theorem test_cfgWr_cplen : (after (exec (.cfgWr 1 16) State.reset)).map (fun t => t.cfg.cplen) = some (some 16) := by
  decide

/-- C19: refused in READY, LAST = 6, PHASE = 1. -/
theorem test_cfgWr_in_ready : (after (exec (.cfgWr 4 3) ready)).map statusWord = some 0x61 := by decide

/-- C1 (R102's example): the plan's numbers, and the status. -/
theorem test_planBuild_default :
    (after (exec .planBuild written)).map (fun t => (statusWord t, t.plan.map fun p => (p.symLen, p.lp, p.window,
      p.frameBits))) = some (1, some (80, 160, 287, 96)) := by
  have h : cfgValues defaultCfg = some defaultValues := rfl
  have hl := (cfgLegal_iff Config.qmax defaultValues).2 (defaultValues_legal _)
  simp only [exec, execPlanBuild, planBuildOf, whileUnconfigured, written, State.reset, State.init, impl_qmax, h, hl, if_true,
    after, Option.map]
  rfl

/-- C2 and C5: ConfigError, STATUS = 0x12. -/
theorem test_planBuild_config_errors :
    (after (exec .planBuild { written with cfg := { defaultCfg with block := none } })).map statusWord = some 0x12 ∧
    (after (exec .planBuild { written with cfg := { defaultCfg with pilot := some 1 } })).map statusWord =
      some 0x12 := by decide

/-- M14: in UNCONFIGURED the message stays and the phase is FATAL. -/
theorem test_modRun_unconfigured :
    (after (exec (.modRun false) { State.reset with modIn := [[true]] })).map (fun t => (t.phase, t.modIn)) =
      some (.fatal, [[true]]) := by decide

/-- M4: 49 bits make 2 symbols and 160 samples. -/
theorem test_modRun_49_bits :
    (after (exec (.modRun false) { ready with modIn := [List.replicate 49 true] })).map (fun t =>
      (t.res.modNsym, t.res.modLen, t.cnt.txFrames, t.modIn)) = some (2, 160, 1, []) := by
  have hd : defaultPlan.dataCount = 48 := defaultPlan_sound.dataCount_eq
  have hb : defaultPlan.bps = 1 := rfl
  have hc : defaultPlan.cpLen = 16 := rfl
  have hs : (modulate Config.num Config.rom defaultPlan (List.replicate 49 true) false).symbols = 2 := by
    simp [modulate, modPoints, qamMap, symbolsNeeded, padTo, hd, hb, ceilDiv]
  have hl := modulate_length Config.num Config.rom defaultPlan (List.replicate 49 true) false (by rw [hc]; decide)
  rw [hs, hc] at hl
  rw [exec, execModRun, modRunOf, withPlan_ready (p := defaultPlan) _ rfl rfl,
    withHead_cons (head := List.replicate 49 true) (rest := []) _ depths_pos.2.1 rfl]
  simp only [modRunOn, List.length_replicate, after, Option.map, impl_num, impl_rom, hs, hl]
  rfl

/-- D12: nothing to look at. -/
theorem test_demRun_empty : (after (exec .demRun ready)).map statusWord = some 0x51 := by
  have hm : ¬ (2 < defaultPlan.m ∧ Config.demapQam = .refuse) := by
    rintro ⟨h, -⟩; exact absurd h (by decide)
  have h : exec .demRun ready = .next (complete .buffer ready) := by
    rw [exec, execDemRun, demRunOf, withPlan_ready (p := defaultPlan) _ rfl rfl, impl_demapQam, if_neg hm]
    simp [withHead, ready, State.reset, State.init]
  rw [h]; rfl

theorem plutoCrc : frameCrc (toBits 16 1 ++ pluto) = 0x320CB172 := by decide +kernel

/-- F5: the frame of `Pluto!` with sequence number 1. -/
theorem test_fcsBuild_pluto :
    (after (exec (.fcsBuild 1) { ready with fcsIn := [pluto] })).map (fun t => (t.fcsOut, t.fcsIn)) =
      some ([plutoFrame], []) := by
  have hf : buildFrame defaultPlan 1 pluto = plutoFrame := by
    show (toBits 16 1 ++ pluto) ++ toBits 32 (frameCrc (toBits 16 1 ++ pluto)).toNat = plutoFrame
    rw [plutoCrc]; decide +kernel
  rw [exec, execFcsBuild, fcsBuildOf, withPlan_ready (p := defaultPlan) _ rfl rfl,
    withHead_cons (head := pluto) (rest := []) _ depths_pos.2.2.2.2.2 rfl, if_neg (by decide)]
  show some ([buildFrame defaultPlan 1 pluto], ([] : List Bits)) = _
  rw [hf]

/-- F11: a 47-bit message stays. -/
theorem test_fcsBuild_wrong_length :
    (after (exec (.fcsBuild 1) { ready with fcsIn := [List.replicate 47 false] })).map (fun t =>
      (t.last, t.fcsIn)) = some (.buffer, [List.replicate 47 false]) := by
  rw [exec, execFcsBuild, fcsBuildOf, withPlan_ready (p := defaultPlan) _ rfl rfl,
    withHead_cons (head := List.replicate 47 false) (rest := []) _ depths_pos.2.2.2.2.2 rfl]
  rfl

/-- F8, with two extra bits: the payload and the sequence number. -/
theorem test_fcsCheck_pluto :
    (after (exec .fcsCheck { ready with fcsIn := [plutoFrame ++ [true, false]] })).map (fun t =>
      (t.fcsOut, t.res.fcsSeq, t.cnt, t.fcsOk)) = some ([pluto], 1, ⟨0, 1, 1, 0⟩, true) := by
  have h : frameIntact defaultPlan (plutoFrame ++ [true, false]) = true := by decide +kernel
  rw [exec, execFcsCheck, fcsCheckOf, withPlan_ready (p := defaultPlan) _ rfl rfl,
    withHead_cons (head := plutoFrame ++ [true, false]) (rest := []) _ depths_pos.2.2.2.2.2 rfl, if_neg (by decide), h]
  decide +kernel

/-- F9: bit 20 inverted. -/
theorem test_fcsCheck_bad_bit :
    (after (exec .fcsCheck { ready with fcsIn := [plutoFrame.set 20 true] })).map (fun t =>
      (t.last, t.fcsOut, t.res.fcsSeq, t.cnt)) = some (.frameIntegrityError, [], 0, ⟨0, 1, 0, 1⟩) := by
  have h : frameIntact defaultPlan (plutoFrame.set 20 true) = false := by decide +kernel
  rw [exec, execFcsCheck, fcsCheckOf, withPlan_ready (p := defaultPlan) _ rfl rfl,
    withHead_cons (head := plutoFrame.set 20 true) (rest := []) _ depths_pos.2.2.2.2.2 rfl, if_neg (by decide), h]
  rfl

/-- S10: a result register is read, and LAST is written. -/
theorem test_resRd_modLen :
    (after (exec (.resRd 1) { ready with res := ⟨2, 480, 0, ⟨0⟩, ⟨0⟩, 0⟩, last := .buffer })).map (fun t =>
      (t.response, t.last)) = some (some ⟨.ok, .int 480⟩, .ok) := by decide

/-- R235: the counters by index. -/
theorem test_cntRd_rxBad :
    (after (exec (.cntRd 3) { ready with cnt := ⟨5, 6, 4, 2⟩ })).map (fun t => t.response) =
      some (some ⟨.ok, .int 2⟩) := by decide

/-- S11 and S13: cleared in READY, kept in FATAL. -/
theorem test_cntClr :
    (after (exec .cntClr { ready with cnt := ⟨5, 6, 4, 2⟩ })).map (fun t => t.cnt) = some ⟨0, 0, 0, 0⟩ ∧
    (after (exec .cntClr { fatal with cnt := ⟨5, 6, 4, 2⟩ })).map (fun t => (t.cnt, t.last)) =
      some (⟨5, 6, 4, 2⟩, .configError) := by decide

/-- S6 and S3, S4: the fields, and LAST kept. -/
theorem test_statRd :
    (after (exec .statRd { ready with demFound := true, fcsOk := true })).map (fun t => t.response) =
      some (some ⟨.ok, .int 0x0D⟩) ∧
    (after (exec .statRd { ready with last := .buffer })).map (fun t => (t.response, t.last)) =
      some (some ⟨.ok, .int 0x51⟩, .buffer) := by decide

/-- X8: the way out of FATAL. -/
theorem test_sreset_from_fatal :
    (after (exec .sreset { fatal with modIn := [[true]], cnt := ⟨5, 6, 4, 2⟩ })).map (fun t =>
      (t.phase, t.modIn, t.cnt, statusWord t)) = some (.unconfigured, [], ⟨0, 0, 0, 0⟩, 0) := by decide

/-- X1: an illegal word in FATAL. -/
theorem test_illegal_word_in_fatal :
    (after (step { fatal with port := [.command 0x42000000] })).map (fun t => (t.phase, t.last)) =
      some (.fatal, .illegalCommand) := by decide

/-- A command placed by `withFetchWord` is the next step. -/
theorem test_withFetchWord :
    (after (step (State.reset.withFetchWord 32 0x11000010))).map (fun t => (t.cfg.cplen, t.port)) =
      some (some 16, []) := by decide

/-! ### Witnesses: for each statement with hypotheses, states and operands that meet them together -/

theorem witness_DecodeOfEncodeGivesTheCommand :
    (Instr.cfgWr 7 0xFFFFFF).WellFormed ∧ (Instr.resRd 5).WellFormed ∧ (Instr.cntRd 3).WellFormed ∧
    (Instr.fcsBuild 0xFFFF).WellFormed := by decide

theorem witness_EncodeOfDecodeGivesTheWord :
    decode 0x17FFFFFF = .ok (.cfgWr 7 0xFFFFFF) ∧ decode 0xC0000000 = .ok .sreset := by decide

/-- One illegal word of each kind, at the first value that is illegal. -/
theorem witness_IllegalWordsAndTheirEffect :
    (opField 0x20000000).toNat ∈ [0x2, 0xD, 0xE, 0xF] ∧ (opField 0xD0000000).toNat ∈ [0x2, 0xD, 0xE, 0xF] ∧
    ((opField 0x00000001).toNat ∈ [0x0, 0x3, 0x5, 0x7, 0xA, 0xB, 0xC] ∧ (immField 0x00000001).toNat ≠ 0) ∧
    ((opField 0xB1000000).toNat ∈ [0x0, 0x3, 0x5, 0x7, 0xA, 0xB, 0xC] ∧ (subField 0xB1000000).toNat ≠ 0) ∧
    ((opField 0x18000000).toNat = 0x1 ∧ 8 ≤ (subField 0x18000000).toNat) ∧
    ((opField 0x42000000).toNat = 0x4 ∧ 2 ≤ (subField 0x42000000).toNat) ∧
    ((opField 0x60010000).toNat = 0x6 ∧ 65536 ≤ (immField 0x60010000).toNat) ∧
    ((opField 0x86000000).toNat = 0x8 ∧ 6 ≤ (subField 0x86000000).toNat) ∧
    ((opField 0x94000000).toNat = 0x9 ∧ 4 ≤ (subField 0x94000000).toNat) := by decide

theorem witness_StepRunsTheDecodedCommand :
    decode 0xB0000000 = .ok .statRd ∧ ({ ready with port := [.command 0xB0000000] } : State).port =
      .command 0xB0000000 :: [] ∧ State.reset.port = [] := by decide

theorem witness_phases : fatal.phase = .fatal ∧ State.reset.phase = .unconfigured ∧ written.phase = .unconfigured ∧
    ready.phase = .ready ∧ ready.phase ≠ .fatal ∧ ready.plan = some defaultPlan := ⟨rfl, rfl, rfl, rfl, by decide, rfl⟩

/-- `CntClrClearsTheCounters`: both clauses. -/
theorem witness_CntClrClearsTheCounters : fatal.phase = .fatal ∧ ready.phase ≠ .fatal ∧
    State.reset.phase ≠ .fatal := by decide

/-- `ControlCommandsFrame`, `ConfigurationCommandsFrame`, `ModRunFrame`, `DemRunFrame`, `FcsCommandsFrame`,
`CodesPerCommand`: every command answers a next state in every state. -/
theorem witness_frames (i : Instr) : ∃ t, exec i ready = .next t := exec_next i ready

/-- `CfgWrFollowsItsRule`: the fields where the clauses meet, and the three phases. -/
theorem witness_CfgWrFollowsItsRule : 8 ≤ (8#4).toNat ∧ (7#4).toNat < 8 ∧ fatal.phase = .fatal ∧
    ready.phase = .ready ∧ State.reset.phase = .unconfigured := by decide

/-- `PlanBuildFollowsItsRule`: a register not written; a legal configuration, one at the least `BLOCK` (C17), and
one sample below it (C16). -/
theorem witness_PlanBuildFollowsItsRule :
    (State.reset.phase = .unconfigured ∧ (7#4).toNat < 8 ∧ State.reset.cfg.read 7 = none) ∧
    written.cfg = ⟨some 64, some 16, some 2, some 0, some 2, some 48, some 1, some 600⟩ ∧
    defaultValues.Legal Config.qmax ∧ { defaultValues with block := 320 }.Legal Config.qmax ∧
    ¬ { defaultValues with block := 319 }.Legal Config.qmax := by
  refine ⟨by decide, rfl, defaultValues_legal _, ?_, ?_⟩
  · exact ⟨rfl, rfl, by decide, .inl rfl, by decide, by decide, by decide, by decide⟩
  · rintro ⟨-, -, -, -, -, -, -, h⟩; exact absurd h (by decide)

theorem witness_ConstellationFollowsTheTraversal : 1 ≤ 1 ∧ 3 < 4 ^ 1 := by decide

/-- `GridNeighboursDifferInOneBit`: two cells of a row, and two of a column, of the 4 by 4 grid. -/
theorem witness_GridNeighboursDifferInOneBit :
    let col (x : Nat) := if x / 4 % 2 = 0 then x % 4 else 4 - 1 - x % 4
    (1 ≤ 2 ∧ 2 < 4 ^ 2 ∧ 3 < 4 ^ 2 ∧ 2 / 4 = 3 / 4 ∧ col 2 + 1 = col 3) ∧
    (3 < 4 ^ 2 ∧ 4 < 4 ^ 2 ∧ col 3 = col 4 ∧ 3 / 4 + 1 = 4 / 4) ∧
    (15 < 4 ^ 2 ∧ 8 < 4 ^ 2 ∧ col 8 = col 15 ∧ 8 / 4 + 1 = 15 / 4) := by decide

theorem witness_QamMapGroupsTheBits : 1 ≤ defaultPlan.bps ∧ defaultPlan.bps = 1 ∧
    defaultPlan.table = [⟨Config.num.int (-1), Config.num.zero⟩, ⟨Config.num.int 1, Config.num.zero⟩] :=
  ⟨by decide, rfl, rfl⟩

/-- `ModRunFollowsItsRule`: an empty FIFO, an empty message, a message of one bit. -/
theorem witness_ModRunFollowsItsRule : ready.phase = .ready ∧ ready.plan = some defaultPlan ∧ ready.modIn = [] ∧
    ready.modOut.length < Config.depthModOut ∧
    ({ ready with modIn := [[]] } : State).modIn = [] :: [] ∧
    ({ ready with modIn := [[true]] } : State).modIn = [true] :: [] ∧ ([true] : Bits) ≠ [] :=
  ⟨rfl, rfl, rfl, depths_pos.2.1, rfl, rfl, by decide⟩

/-- A full output FIFO: the other `BUFFER` case of `ModRunFollowsItsRule` and of the `FCS` commands. -/
theorem witness_full_output :
    Config.depthModOut ≤ ({ ready with modOut := List.replicate Config.depthModOut [] } : State).modOut.length ∧
    Config.depthFcsOut ≤ ({ ready with fcsOut := List.replicate Config.depthFcsOut [] } : State).fcsOut.length := by
  simp

/-- A plan with four points per symbol. -/
def qamPlan : Plan Scalar := buildPlan Config.num Config.rom { defaultValues with qam := 4 }

theorem qamPlan_sound : qamPlan.Sound :=
  buildPlan_sound (qmax := 1) _ _ (active_of_legal Config.format.legal)
    ⟨rfl, rfl, by decide, .inr ⟨1, by decide, by decide, rfl⟩, by decide, by decide, by decide, by decide⟩ (by decide)

/-- `FrameSamplesFollowTheStages`, `SymbolAssemblyPlacesPilotsAndData`, `DecodedBitsAreInOrder`: a sound plan of each
kind, with indices at both ends of the ranges. -/
theorem witness_sound_plan : defaultPlan.Sound ∧ (57 : Nat) ∈ [7, 21, 43, 57] ∧ 47 < 48 ∧
    dataIndices.getD 47 0 = 63 ∧ 37 ∈ nullIndices ∧ defaultPlan.m = 2 ∧ qamPlan.Sound ∧ qamPlan.m ≠ 2 ∧
    1 < qamPlan.bps :=
  ⟨defaultPlan_sound, by decide, by decide, by decide, by decide, rfl, qamPlan_sound, by decide, by decide⟩

/-- The default plan in exact arithmetic. -/
noncomputable def realPlan : Plan ℝ := buildPlan realNum (defaultRom realNum) defaultValues

theorem realPlan_sound : realPlan.Sound :=
  buildPlan_sound _ _ (active_of_legal defaultRom_legal) (defaultValues_legal 0) (by decide)

/-- `FirstBodySampleIsTheMean`: the default configuration. -/
theorem witness_FirstBodySampleIsTheMean : defaultValues.Legal 0 ∧ defaultValues.qam = 2 :=
  ⟨defaultValues_legal 0, rfl⟩

theorem defaultTref_pilots (k : Nat) (hk : k ∈ realPlan.pilot) :
    realNum.normSq ((defaultRom realNum).tref k) = 1 := by
  have table : ∀ k ∈ pilotSet, defaultTrefValues.getD k 0 = 1 ∨ defaultTrefValues.getD k 0 = -1 := by decide
  rw [realNum_normSq]
  show Complex.normSq (defaultTref realNum k).toComplex = 1
  rw [defaultTref_toComplex]
  rcases table k hk with h | h <;> rw [h] <;> simp

/-- `SymbolEnergyIsParseval`: pilots of modulus 1 and 48 points of +1. -/
theorem witness_SymbolEnergyIsParseval :
    realPlan.Sound ∧ (∀ k ∈ realPlan.pilot, realNum.normSq ((defaultRom realNum).tref k) = 1) ∧
    (0 + 1) * 48 ≤ (List.replicate 48 (⟨1, 0⟩ : Cx ℝ)).length ∧
    ∀ z ∈ List.replicate 48 (⟨1, 0⟩ : Cx ℝ), z = ⟨-1, 0⟩ ∨ z = ⟨1, 0⟩ :=
  ⟨realPlan_sound, defaultTref_pilots, by simp, fun _ h => .inr (List.eq_of_mem_replicate h)⟩

/-- `DetectionIsTheFirstMaximum`, `BpskSlicerDecidesBySign`, `QamDecisionIsANearestPoint`: the `<` of the reference
instance is a linear order. -/
theorem witness_linear_orders : ∀ a b : ℝ, realNum.Lt a b ↔ a < b := realNum_lt

/-- `BpskSlicerDecidesBySign` and `QamDecisionIsANearestPoint`: points on both sides of the tie and on it. -/
theorem witness_slicer_points : realNum.zero < (1 : ℝ) ∧ (-1 : ℝ) < realNum.zero ∧ (0 : ℝ) = realNum.zero ∧
    bpskTable realNum ≠ [] := by simp [bpskTable]

/-- `QamDecisionIsANearestPoint`: index 1 is nearest to the point at index 1 of the BPSK table. -/
theorem witness_QamDecisionIsANearestPoint : 1 < (bpskTable realNum).length ∧ ∀ q < (bpskTable realNum).length,
    realNum.normSq (realNum.csub (realNum.at (bpskTable realNum) 1) (realNum.at (bpskTable realNum) 1)) ≤
      realNum.normSq (realNum.csub (realNum.at (bpskTable realNum) 1) (realNum.at (bpskTable realNum) q)) := by
  refine ⟨by simp [bpskTable], fun q _ => ?_⟩
  simp only [realNum_normSq, realNum_csub, sub_self, map_zero]
  exact Complex.normSq_nonneg _

theorem at_replicate (k : Nat) (z : Cx ℝ) {i : Nat} (h : i < k) : realNum.at (List.replicate k z) i = z := by
  rw [Num.at, List.getD_replicate _ h]

/-- `MetricIsANormalisedCorrelation`: a block of energy above 0, one of energy 0, and a non-zero gain. -/
theorem witness_MetricIsANormalisedCorrelation :
    (0 < ∑ t ∈ Finset.range realPlan.lp, Complex.normSq (realNum.at (List.replicate 600 ⟨1, 0⟩) (0 + t)).toComplex) ∧
    (∑ t ∈ Finset.range realPlan.lp, Complex.normSq (realNum.at (List.replicate 600 ⟨0, 0⟩) (0 + t)).toComplex) = 0 ∧
    (⟨1, 0⟩ : Cx ℝ) ≠ ⟨0, 0⟩ := by
  refine ⟨Finset.sum_pos' (fun _ _ => Complex.normSq_nonneg _) ⟨0, by decide, ?_⟩,
    Finset.sum_eq_zero fun t _ => ?_, by simp⟩
  · rw [at_replicate 600 _ (by decide)]; simp [Cx.toComplex, Complex.normSq_apply]
  · have h : realNum.at (List.replicate 600 ⟨0, 0⟩) (0 + t) = ⟨0, 0⟩ := by
      by_cases ht : 0 + t < 600
      · exact at_replicate 600 _ ht
      · rw [at_of_ge _ _ (by rw [List.length_replicate]; omega)]; simp [Num.czero]
    rw [h]; simp [Cx.toComplex, Complex.normSq_apply]

/-- `WindowIsCutFromOneOrTwoBlocks`: a candidate at the first position, whose window lies in the block, and one at
the last, whose window needs the next block. -/
theorem witness_WindowIsCutFromOneOrTwoBlocks :
    realPlan.Sound ∧ realNum.Lt (realNum.ofRat (7 / 10)) (1 : ℝ) ∧
    (List.replicate 600 (⟨0, 0⟩ : Cx ℝ)).length = realPlan.block ∧
    (0 ≤ realPlan.block - realPlan.lp ∧ 0 + 2 * realPlan.cpLen + 1 + realPlan.window ≤ realPlan.block) ∧
    (440 ≤ realPlan.block - realPlan.lp ∧ realPlan.block < 440 + 2 * realPlan.cpLen + 1 + realPlan.window) := by
  refine ⟨realPlan_sound, ?_, List.length_replicate, ⟨by decide, by decide⟩, by decide, by decide⟩
  rw [realNum_lt, realNum_ofRat]; norm_num

/-- `CfoEstimateAndCompensation`: with a window of zeros the sum is 0. -/
theorem witness_CfoEstimateAndCompensation : (∑ t ∈ Finset.range 63,
    (starRingEnd ℂ) (realNum.at [] t).toComplex * (realNum.at [] (64 + t)).toComplex) = 0 := by
  refine Finset.sum_eq_zero fun t _ => ?_
  rw [at_of_ge realNum [] (by simp), realNum_czero, map_zero, zero_mul]

/-- `CfoEstimateHasTheStatedBias`: all ones, rotated by 1/256 cycles per sample. -/
theorem witness_CfoEstimateHasTheStatedBias :
    let w : Samples ℝ := tabulate 127 fun t => realNum.cexp (2 * Real.pi * (1 / 256) * t)
    (1 : ℂ) ≠ 0 ∧ (∃ t < 63, (fun _ => (1 : ℂ)) t ≠ 0) ∧ |(1 / 256 : ℝ)| < 1 / 128 ∧
    ∀ t < 127, (realNum.at w t).toComplex =
      1 * Complex.exp (2 * Real.pi * ((1 / 256 : ℝ) : ℂ) * t * Complex.I) * (fun _ => (1 : ℂ)) t := by
  refine ⟨one_ne_zero, ⟨0, by decide, one_ne_zero⟩, ?_, fun t ht => ?_⟩
  · rw [abs_of_pos (by norm_num)]; norm_num
  · rw [at_tabulate _ _ _ ht, realNum_cexp]; push_cast; simp

/-- `ChannelEstimateRecoversTheGain`: the default tables, gain 2, and the window that carries it. -/
theorem witness_ChannelEstimateRecoversTheGain :
    let rom := defaultRom realNum
    let g : Cx ℝ := ⟨2, 0⟩
    let w : Samples ℝ := tabulate 127 fun t => realNum.cmul g (rom.ltsT ((t + 1) % 64))
    rom.Legal realNum ∧ realPlan.Sound ∧ realNum.at w 63 = realNum.cmul g (rom.ltsT 0) ∧
    ∀ t < 63, realNum.at w t = realNum.cmul g (rom.ltsT (t + 1)) ∧
      realNum.at w (64 + t) = realNum.cmul g (rom.ltsT (t + 1)) := by
  refine ⟨defaultRom_legal, realPlan_sound, at_tabulate _ _ _ (by decide), fun t ht => ⟨?_, ?_⟩⟩
  · rw [at_tabulate _ _ _ (by omega), Nat.mod_eq_of_lt (by omega)]
  · rw [at_tabulate _ _ _ (by omega), show (64 + t + 1) % 64 = t + 1 by omega]

/-- `EqualiserDividesByTheGain`: an active subcarrier. -/
theorem witness_EqualiserDividesByTheGain : 63 < 64 ∧ 63 ∈ realPlan.active := by
  rw [realPlan_sound.active_eq]; decide

/-- `PilotPhaseFitIsLeastSquares`: phases at the end of the range, and the plan's pilots. -/
theorem witness_PilotPhaseFitIsLeastSquares :
    (∀ a ∈ [0, Real.pi], -Real.pi < a ∧ a ≤ Real.pi) ∧ realPlan.pilot = [7, 21, 43, 57] := by
  refine ⟨fun a ha => ?_, rfl⟩
  have hp := Real.pi_pos
  rcases List.mem_pair.mp ha with rfl | rfl <;> constructor <;> linarith

/-- A complex number as a pair of reals. -/
noncomputable def pair (z : ℂ) : Cx ℝ := ⟨z.re, z.im⟩

theorem pair_toComplex (z : ℂ) : (pair z).toComplex = z := by simp [pair, Cx.toComplex]

/-- A body whose transform is 1 on every subcarrier. -/
def impulse (t : Nat) : Cx ℝ := if t = 0 then ⟨1, 0⟩ else ⟨0, 0⟩

/-- The gains that turn the sent values `TREF` by `k/10 + 1/5`. -/
noncomputable def turningGains : List (Cx ℝ) := tabulate 64 fun k =>
  pair (((defaultRom realNum).tref k).toComplex * Complex.exp ((((1 / 10 : ℝ) * k + 1 / 5 : ℝ) : ℂ) * Complex.I))⁻¹

/-- `PilotPhaseFitIsLeastSquares`, last clause: the impulse behind those gains. -/
theorem witness_PilotPhaseFit_turned :
    let rom := defaultRom realNum
    let sent (k : Nat) : ℂ := (rom.tref k).toComplex
    rom.Legal realNum ∧ realPlan.Sound ∧ |(1 / 10 : ℝ)| < Real.pi / 22 ∧
    (∀ k ∈ realPlan.pilot, sent k = (rom.tref k).toComplex) ∧
    ∀ k ∈ realPlan.active, (realNum.at (equalise realNum realPlan turningGains impulse) k).toComplex =
      sent k * Complex.exp ((((1 / 10 : ℝ) * k + 1 / 5 : ℝ) : ℂ) * Complex.I) := by
  refine ⟨defaultRom_legal, realPlan_sound, ?_, fun _ _ => rfl, fun k hk => ?_⟩
  · rw [abs_of_pos (by norm_num)]; linarith [Real.pi_gt_three]
  have ha : k < 64 ∧ nullAlways k = false := by
    rw [realPlan_sound.active_eq, activeIndices, List.mem_filter, List.mem_range] at hk; simpa using hk
  have ht : ((defaultRom realNum).tref k).toComplex ≠ 0 := fun h0 => by
    have := defaultRom_legal.support k ha.1
    rw [ha.2, (realNum_isZero _).2 h0] at this; cases this
  have hg : realNum.at turningGains k = pair (((defaultRom realNum).tref k).toComplex *
      Complex.exp ((((1 / 10 : ℝ) * k + 1 / 5 : ℝ) : ℂ) * Complex.I))⁻¹ := at_tabulate _ _ _ ha.1
  have hz : realNum.isZero (realNum.at turningGains k) = false := by
    rw [Bool.eq_false_iff, Ne, realNum_isZero, hg, pair_toComplex]
    exact inv_ne_zero (mul_ne_zero ht (Complex.exp_ne_zero _))
  have hf : (realNum.fft (realNum.at (tabulate 64 impulse)) k).toComplex = 1 := by
    rw [Num.fft, realNum_csum, Finset.sum_eq_single 0]
    · rw [at_tabulate _ _ _ (by decide), realNum_cmul]
      have h1 : (impulse 0).toComplex = 1 := rfl
      simp [h1, Num.twiddle]
    · intro t h1 h0
      have h2 : (impulse t).toComplex = 0 := by rw [impulse, if_neg h0]; rfl
      rw [at_tabulate _ _ _ (Finset.mem_range.mp h1), realNum_cmul, h2, zero_mul]
    · simp
  rw [equalise, at_tabulate _ _ _ ha.1, hz]
  rw [if_pos (by simpa using hk), realNum_cdiv, hf, hg, pair_toComplex, one_div, inv_inv]

theorem witness_DemapperInvertsTheMapper : 1 ≤ 1 ∧ 3 < 4 ^ 1 := by decide

/-- The reference block with short training symbols of silence, which R29 leaves free. -/
noncomputable def silentImpl : Impl ℝ :=
  { realImpl with rom := { defaultRom realNum with sts16 := fun _ => realNum.czero } }

theorem silentImpl_legal : silentImpl.Legal :=
  { realImpl_legal with rom := ⟨defaultRom_legal.lts, defaultRom_legal.support, defaultRom_legal.energy,
    fun _ _ => ⟨rfl, rfl, fun _ => rfl⟩⟩ }

/-- Cauchy-Schwarz over all terms but the first, which is 0. -/
theorem metric_ne_one (p : Plan ℝ) (r : Samples ℝ) (i k : Nat) (hl : p.lp = k + 1)
    (hx : (realNum.at r i).toComplex = 0) (hP : (realNum.at p.longSection 0).toComplex ≠ 0) :
    metric realNum p r i ≠ 1 := by
  intro h
  simp only [metric] at h
  split at h
  · rename_i he
    rw [realNum_lt, realNum_zero] at he
    rw [realNum_div, realNum_cabs, realNum_sqrt, realNum_mul] at h
    have hc := (div_eq_one_iff_eq (by intro h0; simp [h0] at h)).1 h
    simp only [localEnergy, templateEnergy, correlation, realNum_sum, realNum_csum, realNum_normSq, realNum_cmul,
      realNum_conj, hl, Finset.sum_range_succ' _ k, hx, map_zero, add_zero, zero_mul] at he hc
    set x : ℕ → ℂ := fun t => (realNum.at r (i + (t + 1))).toComplex
    set P : ℕ → ℂ := fun t => (realNum.at p.longSection (t + 1)).toComplex
    have h1 : ‖∑ t ∈ Finset.range k, x t * (starRingEnd ℂ) (P t)‖ ≤ ∑ t ∈ Finset.range k, ‖x t‖ * ‖P t‖ :=
      (norm_sum_le _ _).trans_eq (by simp)
    have h2 := Finset.sum_mul_sq_le_sq_mul_sq (Finset.range k) (fun t => ‖x t‖) (fun t => ‖P t‖)
    simp only [← Complex.normSq_eq_norm_sq] at h2
    have h3 := Complex.normSq_pos.2 hP
    set e := ∑ t ∈ Finset.range k, Complex.normSq (x t)
    set E := ∑ t ∈ Finset.range k, Complex.normSq (P t)
    have hE : 0 ≤ E := Finset.sum_nonneg fun _ _ => Complex.normSq_nonneg _
    rw [hc] at h1
    have h4 := Real.sq_sqrt (show 0 ≤ (E + Complex.normSq (realNum.at p.longSection 0).toComplex) * e by positivity)
    have h5 := pow_le_pow_left₀ (Real.sqrt_nonneg _) h1 2
    nlinarith [mul_pos h3 he]
  · simp at h

/-- One symbol without a prefix, in the shortest block that holds its frame. -/
def shortValues : CfgValues := { defaultValues with cplen := 0, nsym := 1, block := 352 }

theorem shortValues_legal (qmax : Nat) : shortValues.Legal qmax :=
  ⟨rfl, rfl, by decide, .inl rfl, by decide, by decide, by decide, by decide⟩

/-- `PerfectPathRoundTrip`: one bit, one symbol, gain j, nothing before or after; no position before the long section
reaches 1; and a READY state of the block in exact arithmetic that holds the block of samples. -/
theorem witness_PerfectPathRoundTrip :
    let c := silentImpl
    let p := buildPlan realNum c.rom shortValues
    let frame := (modulate realNum c.rom p [true] true).frame
    let r := (List.replicate 0 (⟨0, 0⟩ : Cx ℝ) ++ frame ++ List.replicate 0 (⟨0, 0⟩ : Cx ℝ)).map (realNum.cmul ⟨0, 1⟩)
    let s : State ℝ := { State.init 0 with phase := .ready, plan := some p, demIn := [r] }
    c.Legal ∧ c.num = realNum ∧ shortValues.Legal c.qmax ∧ shortValues.qam = 2 ∧
    (([true] : Bits).length + 47) / 48 = shortValues.nsym ∧ (⟨0, 1⟩ : Cx ℝ) ≠ ⟨0, 0⟩ ∧ r.length = p.block ∧
    (∀ i < 0 + 160, metric realNum p r i ≠ 1) ∧
    s.phase = .ready ∧ s.plan = some p ∧ s.demIn = r :: [] ∧ s.demOut.length < c.depthDemOut := by
  intro c p frame r s
  have hs : p.Sound := buildPlan_sound realNum c.rom (active_of_legal silentImpl_legal.rom) (shortValues_legal 0)
    (by decide)
  have hf : frame.length = 352 := by
    have hb : p.bps = 1 := rfl
    have h1 : (modulate realNum c.rom p [true] true).symbols = 1 := by
      simp [modulate, modPoints, qamMap, symbolsNeeded, padTo, hs.dataCount_eq, hb, ceilDiv]
    show (modulate realNum c.rom p [true] true).frame.length = _
    rw [modulate_length _ _ _ _ _ hs.cpLen_le, hs.preamble_length, h1]; rfl
  refine ⟨silentImpl_legal, rfl, shortValues_legal _, rfl, rfl, by simp, by simp [r, hf]; rfl, fun i hi => ?_, rfl, rfl,
    rfl, depths_pos.2.2.2.1⟩
  refine metric_ne_one p r i 127 rfl ?_ ?_
  · have hz : realNum.at frame i = realNum.czero := by
      have hr : (rep (tabulate 16 c.rom.sts16) 10).getD i realNum.czero = realNum.czero := by
        rw [List.getD_eq_getElem _ _ (by simp; omega)]
        refine (?_ : ∀ z ∈ rep (tabulate 16 c.rom.sts16) 10, z = realNum.czero) _ (List.getElem_mem _)
        intro z hz
        obtain ⟨l, hl, hz⟩ := List.mem_flatten.1 hz
        rw [List.eq_of_mem_replicate hl] at hz
        obtain ⟨j, -, rfl⟩ := List.mem_map.1 hz
        rfl
      show ((rep (tabulate 16 c.rom.sts16) 10 ++ _) ++ _).getD i _ = _
      rw [List.append_assoc, List.getD_append _ _ _ _ (by simp; omega), hr]
    have hi' : i < frame.length := by omega
    simp only [r, List.replicate_zero, List.nil_append, List.append_nil, Num.at, List.getD_eq_getElem?_getD,
      List.getElem?_map, List.getElem?_eq_getElem hi', Option.map_some, Option.getD_some] at hz ⊢
    rw [realNum_cmul, hz, realNum_czero, mul_zero]
  · have h0 : realNum.at p.longSection 0 = (defaultRom realNum).ltsT 0 :=
      at_longSectionOf realNum c.rom (cpLen := 0) (by decide) (by decide)
    rw [h0, defaultLts_zero]; norm_num

/-- `BitVectorsAreMsbFirst`: the largest 8-bit value, and the last bit of a packed byte. -/
theorem witness_BitVectorsAreMsbFirst : 255 < 2 ^ 8 ∧ 0 < (([true, false, true, true] : Bits).length + 7) / 8 ∧
    7 < 8 := by decide

/-- `FcsBuildFollowsItsRule`: a payload of 48 bits and one of 47; an empty FIFO. -/
theorem witness_FcsBuildFollowsItsRule : ready.phase = .ready ∧ ready.plan = some defaultPlan ∧ ready.fcsIn = [] ∧
    ready.fcsOut.length < Config.depthFcsOut ∧ ({ ready with fcsIn := [pluto] } : State).fcsIn = pluto :: [] ∧
    pluto.length = defaultPlan.payload ∧ (List.replicate 47 false).length ≠ defaultPlan.payload :=
  ⟨rfl, rfl, rfl, depths_pos.2.2.2.2.2, rfl, by decide, by decide⟩

/-- `FcsCheckFollowsItsRule`: 95 bits are too few; the frame of F5 is intact, and is not with bit 20 inverted (F9). -/
theorem witness_FcsCheckFollowsItsRule : (List.replicate 95 false).length < defaultPlan.frameBits ∧
    defaultPlan.frameBits ≤ plutoFrame.length ∧
    (crc32 (pack (plutoFrame.take 96 |>.take 64))).toNat = toInt (plutoFrame.take 96 |>.drop 64) ∧
    defaultPlan.frameBits ≤ (plutoFrame.set 20 true).length ∧
    ¬ (crc32 (pack ((plutoFrame.set 20 true).take 96 |>.take 64))).toNat =
      toInt ((plutoFrame.set 20 true).take 96 |>.drop 64) := by decide +kernel

/-- `FcsRoundTrip`: `FCS.BUILD` on the payload of F5, and a READY state that holds what it built. -/
theorem witness_FcsRoundTrip :
    let s : State := { ready with fcsIn := [pluto] }
    defaultPlan.Sound ∧ s.phase = .ready ∧ s.plan = some defaultPlan ∧ s.fcsOut.length < Config.depthFcsOut ∧
    s.fcsIn = pluto :: [] ∧ pluto.length = defaultPlan.payload ∧ (∃ t, exec (.fcsBuild 1) s = .next t) ∧
    ({ ready with fcsIn := [buildFrame defaultPlan 1 pluto ++ [true]] } : State).fcsIn =
      (buildFrame defaultPlan 1 pluto ++ [true]) :: [] ∧ defaultPlan.arq = 1 :=
  ⟨defaultPlan_sound, rfl, rfl, depths_pos.2.2.2.2.2, rfl, by decide, exec_next _ _, rfl, rfl⟩

/-- `OneInvertedBitIsDetected`: the hypotheses, and the last bit of the frame. -/
theorem witness_OneInvertedBitIsDetected : defaultPlan.Sound ∧ ready.phase = .ready ∧
    ready.plan = some defaultPlan ∧ ready.fcsOut.length < Config.depthFcsOut ∧
    pluto.length = defaultPlan.payload ∧ 95 < defaultPlan.frameBits :=
  ⟨defaultPlan_sound, rfl, rfl, depths_pos.2.2.2.2.2, by decide, by decide⟩

/-- `UnfitMessageBlocksFcsIn`: a message of 10 bits at the head, in READY with `FCS.CHECK` next, and in FATAL with a
push to `FCS_IN` next. -/
theorem witness_UnfitMessageBlocksFcsIn :
    let msg : Bits := List.replicate 10 false
    let s : State := { ready with fcsIn := [msg], port := [.command (encode .fcsCheck)] }
    let f : State := { ready with phase := .fatal, fcsIn := [msg], port := [.pushFcsIn []] }
    msg.length < defaultPlan.frameBits ∧ msg.length ≠ defaultPlan.payload ∧
    (s.phase = .ready ∧ s.plan = some defaultPlan ∧ s.fcsIn = msg :: [] ∧
      (∀ later, s.port ≠ .command (encode .sreset) :: later) ∧ (∀ later, s.port ≠ .resetInput :: later) ∧
      ∃ t, step s = .next t) ∧
    (f.phase = .fatal ∧ f.plan = some defaultPlan ∧ f.fcsIn = msg :: [] ∧
      (∀ later, f.port ≠ .command (encode .sreset) :: later) ∧ (∀ later, f.port ≠ .resetInput :: later)) := by
  refine ⟨by decide, by decide, ⟨rfl, rfl, rfl, ?_, by simp, _, rfl⟩, rfl, rfl, rfl, by simp, by simp⟩
  intro later h
  have : encode .fcsCheck = encode .sreset := by simpa using And.left (List.cons.inj h)
  exact absurd this (by decide)

/-- `ConfigErrorCauses` and `ConfigErrorLeavesTheRest`: in READY, and a raise. -/
theorem witness_ConfigErrorCauses : ready.phase ≠ .fatal ∧ (ready.phase = .ready → ready.plan ≠ none) ∧
    (∃ t, exec .planBuild ready = .next t) ∧ State.reset.phase ≠ .fatal ∧
    exec .planBuild State.reset = .next (raiseConfigError State.reset) ∧
    (raiseConfigError State.reset).phase = .fatal :=
  ⟨by decide, fun _ => by simp [ready], exec_next _ _, by decide, rfl, rfl⟩

/-- `FatalAnswers`: a FATAL state with messages to pop and room to push, and an illegal word. -/
theorem witness_FatalAnswers :
    let s : State := { fatal with modOut := [[]], demOut := [[]], fcsOut := [[]] }
    s.phase = .fatal ∧ (Instr.cfgWr 7 0).WellFormed ∧ (5#4).toNat < 6 ∧ (3#4).toNat < 4 ∧
    s.modIn.length < Config.depthModIn ∧ s.fcsIn.length < Config.depthFcsIn ∧ s.modOut = [] :: [] ∧
    s.demOut = [] :: [] ∧ s.fcsOut = [] :: [] ∧ (decode 0x42000000).toOption = none :=
  ⟨rfl, by decide, by decide, by decide, depths_pos.1, depths_pos.2.2.2.2.1, rfl, rfl, rfl, by decide⟩

/-- `PhaseMovesOnlyAsStated`: one step of each of the three moves. -/
theorem witness_PhaseMovesOnlyAsStated :
    (∃ t, step { written with port := [.command (encode .planBuild)] } = .next t ∧ t.phase ≠ written.phase) ∧
    (∃ t, step { State.reset with port := [.command (encode .demRun)] } = .next t ∧ t.phase ≠ State.reset.phase) ∧
    (∃ t, step { fatal with port := [.command (encode .sreset)] } = .next t ∧ t.phase ≠ fatal.phase) ∧
    ∃ t, step { fatal with port := [.resetInput] } = .next t ∧ t.phase ≠ fatal.phase := by
  refine ⟨?_, ⟨_, rfl, by decide⟩, ⟨_, rfl, by decide⟩, ⟨_, rfl, by decide⟩⟩
  have hl := (cfgLegal_iff Config.qmax defaultValues).2 (defaultValues_legal _)
  have hd : decode (encode .planBuild) = .ok .planBuild := by decide
  refine ⟨complete .ok { written with plan := some defaultPlan, phase := .ready }, ?_, by decide⟩
  have h : cfgValues defaultCfg = some defaultValues := rfl
  simp only [step, takeNext, takeAction, issueWord, hd, exec, execPlanBuild, planBuildOf, whileUnconfigured, written,
    State.reset, State.init, impl_qmax, h, hl, if_true]
  rfl

/-- `PlanChangesOnlyByReset`: an idle step and a reset in READY. -/
theorem witness_PlanChangesOnlyByReset : ready.phase ≠ .unconfigured ∧ ready.plan = some defaultPlan ∧
    (∃ t, step ready = .next t) ∧ ∃ t, step { ready with port := [.resetInput] } = .next t ∧ t.plan = none :=
  ⟨by decide, rfl, ⟨_, rfl⟩, _, rfl, rfl⟩

theorem witness_ProcessingNeverReadsCfg : processing .fcsCheck = true ∧ ∃ t, exec .fcsCheck ready = .next t :=
  ⟨rfl, exec_next _ _⟩

/-- `EveryStepKeepsTheInvariant`: a READY state and a command. -/
theorem witness_EveryStepKeepsTheInvariant : ready.Inv ∧ ∃ t, step ready = .next t := ⟨ready_inv, _, rfl⟩

/-- `HostMovesFollowTheirRules`: empty FIFOs with room, a message in each output FIFO, and full input FIFOs. -/
theorem witness_HostMovesFollowTheirRules :
    let s : State := { fatal with modOut := [[]], demOut := [[]], fcsOut := [[]] }
    let full : State := { fatal with
      modIn := List.replicate Config.depthModIn [], fcsIn := List.replicate Config.depthFcsIn [] }
    fatal.modIn.length < Config.depthModIn ∧ fatal.fcsIn.length < Config.depthFcsIn ∧
    Config.depthModIn ≤ full.modIn.length ∧ Config.depthFcsIn ≤ full.fcsIn.length ∧
    s.modOut = [] :: [] ∧ s.demOut = [] :: [] ∧ s.fcsOut = [] :: [] ∧
    fatal.modOut = [] ∧ fatal.demOut = [] ∧ fatal.fcsOut = [] :=
  ⟨depths_pos.1, depths_pos.2.2.2.2.1, by simp, by simp, rfl, rfl, rfl, rfl, rfl, rfl⟩

/-- `DemInKeepsTheLastBlocks`: for the machine, a block of the plan's length of finite numbers, one sample short,
outside READY; a format with a value that is no finite number; and three pushes to a FIFO of two. -/
theorem witness_DemInKeepsTheLastBlocks :
    (ready.phase = .ready ∧ ready.plan = some defaultPlan ∧
      (List.replicate 600 (Config.rom.tref 0)).length = defaultPlan.block ∧
      ∀ z ∈ List.replicate 600 (Config.rom.tref 0), Config.impl.num.isFinite z = true) ∧
    (List.replicate 599 (Config.rom.tref 0)).length ≠ defaultPlan.block ∧ State.reset.phase ≠ .ready ∧
    (∃ z ∈ [(⟨⟨1⟩, ⟨0⟩⟩ : Cx Scalar)], { someNum with finite := fun x => x.code = 0 }.isFinite z = false) ∧
    (1 ≤ 2 ∧ ([[], []] : List (Samples Scalar)).length ≤ 2 ∧ 2 ≤ ([[], [], []] : List (Samples Scalar)).length) := by
  refine ⟨⟨rfl, rfl, List.length_replicate, fun z hz => ?_⟩, ?_, by decide, ⟨_, List.mem_singleton_self _, rfl⟩,
    by decide⟩
  · rw [List.eq_of_mem_replicate hz]; exact (Config.format.legal.finite 0 (by decide)).1
  · rw [List.length_replicate]; decide

end Sys2Proof.Tests
end

section
/-! The transforms of R14 in exact arithmetic: their factors are the powers of one primitive 64th root of unity, the
powers are orthogonal, and so `FFT` undoes `IFFT`. -/

namespace Sys2Proof

section RootOfUnity

/-- `cexp(2π/64)`, whose powers are the factors of the transforms. -/
noncomputable def root64 : ℂ := Complex.exp (2 * Real.pi * Complex.I / 64)

theorem root64_isPrimitiveRoot : IsPrimitiveRoot root64 64 := by
  simpa [root64] using Complex.isPrimitiveRoot_exp 64 (by decide)

theorem root64_ne_zero : root64 ≠ 0 := Complex.exp_ne_zero _

theorem root64_zpow (m : ℤ) : root64 ^ m = Complex.exp (2 * Real.pi * m / 64 * Complex.I) := by
  rw [root64, ← Complex.exp_int_mul]
  congr 1
  ring

/-- Orthogonality: over all 64 samples a power of the root sums to 64 or to 0. -/
theorem sum_root64_zpow (m : ℤ) :
    ∑ t ∈ Finset.range 64, root64 ^ (m * t) = if (64 : ℤ) ∣ m then 64 else 0 := by
  have hone : root64 ^ m = 1 ↔ (64 : ℤ) ∣ m := by
    simpa using root64_isPrimitiveRoot.zpow_eq_one_iff_dvd m
  simp only [zpow_mul, zpow_natCast]
  split
  · rename_i hd; simp [hone.2 hd]
  · rename_i hd
    have hpow : (root64 ^ m) ^ 64 = 1 := by
      rw [← zpow_natCast, ← zpow_mul, mul_comm, zpow_mul, zpow_natCast, root64_isPrimitiveRoot.pow_eq_one, one_zpow]
    rw [geom_sum_eq (mt hone.1 hd), hpow, sub_self, zero_div]

end RootOfUnity

section Transforms

theorem realNum_twiddle (m : ℤ) : (realNum.twiddle m).toComplex = root64 ^ m := by
  rw [root64_zpow]
  simp [Num.twiddle]

theorem realNum_fft (x : Nat → Cx ℝ) (k : Nat) :
    (realNum.fft x k).toComplex = ∑ t ∈ Finset.range 64, (x t).toComplex * root64 ^ (-((k * t : Nat) : ℤ)) := by
  simp only [Num.fft, realNum_csum, realNum_cmul, realNum_twiddle]

theorem realNum_ifft (X : Nat → Cx ℝ) (t : Nat) :
    (realNum.ifft X t).toComplex =
      (1 / 64) * ∑ k ∈ Finset.range 64, (X k).toComplex * root64 ^ ((k * t : Nat) : ℤ) := by
  simp [Num.ifft, realNum_csum, realNum_twiddle]

/-- The transforms are inverse at every index they have. -/
theorem fft_ifft (X : Nat → Cx ℝ) {k : Nat} (hk : k < 64) : realNum.fft (realNum.ifft X) k = X k := by
  have factors (j t : Nat) :
      root64 ^ ((j * t : Nat) : ℤ) * root64 ^ (-((k * t : Nat) : ℤ)) = root64 ^ (((j : ℤ) - k) * t) := by
    rw [← zpow_add₀ root64_ne_zero]; congr 1; push_cast; ring
  have indices : ∀ j ∈ Finset.range 64, ((64 : ℤ) ∣ (j : ℤ) - k ↔ j = k) := fun j hj => by
    have := Finset.mem_range.1 hj; omega
  apply Cx.toComplex_injective
  calc (realNum.fft (realNum.ifft X) k).toComplex
      = ∑ t ∈ Finset.range 64, ∑ j ∈ Finset.range 64,
          1 / 64 * (X j).toComplex * root64 ^ (((j : ℤ) - k) * t) := by
        simp only [realNum_fft, realNum_ifft, ← factors, Finset.mul_sum, Finset.sum_mul, mul_assoc]
    _ = ∑ j ∈ Finset.range 64, 1 / 64 * (X j).toComplex * (if (64 : ℤ) ∣ (j : ℤ) - k then 64 else 0) := by
        rw [Finset.sum_comm]
        simp only [← Finset.mul_sum, sum_root64_zpow]
    _ = ∑ j ∈ Finset.range 64, if j = k then (X j).toComplex else 0 :=
        Finset.sum_congr rfl fun j hj => by
          simp only [indices j hj]
          split <;> ring
    _ = (X k).toComplex := by simp [hk]

end Transforms

/-- Settles O23: the sums are R14's by the factors' closed form, and the inverse is orthogonality of the factors. -/
theorem transformsAreInverse : Obligations.TransformsAreInverse := by
  refine fun X => ⟨fun k => ?_, fun t => ?_, fun k => fft_ifft X⟩
  · simp [realNum_fft, root64_zpow, mul_assoc, -zpow_neg]
  · simp [realNum_ifft, root64_zpow, mul_assoc]

end Sys2Proof
end

section
/-! The step of the machine as the step of the block over its own implementation. -/

namespace Sys2Proof.Machine

/-- The machine's step is the step of the block over its own implementation. -/
theorem step_eq_stepOf (s : State) : step s = stepOf Config.impl s := by
  rw [step, stepOf, funext fun i => funext (exec_eq_execOf i)]

/-- With no action waiting the block keeps its state (R275). -/
theorem stepOf_idle {σ : Type} (c : Impl σ) {s : State σ} (hp : s.port = []) : stepOf c s = .next s := by
  simp [stepOf, takeNext, hp]

/-- Settles O5: the machine is the block over its own implementation, where a word that decodes runs its command. -/
theorem stepRunsTheDecodedCommand : Obligations.StepRunsTheDecodedCommand := by
  refine ⟨fun s rest w i hd => ?_, fun s hp => ?_, exec_eq_execOf, step_eq_stepOf⟩
  · rw [step_eq_stepOf, stepOf_command rfl hd, exec_eq_execOf]
  · rw [step_eq_stepOf, stepOf_idle _ hp]

end Sys2Proof.Machine
end

section
/-! The decoder inverted: a word that decodes is the word of its command (`30_encoding.md` R83 to R85). -/

namespace Sys2Proof

/-- A checked word gives its command exactly where the bits that must be 0 are. -/
theorem whenZero_eq_ok {k : Nat} {rest : BitVec k} {i j : Instr} : whenZero rest i = .ok j ↔ rest = 0 ∧ i = j := by
  unfold whenZero
  split
  · rename_i h; simp [h]
  · rename_i h; simpa using fun h' => absurd h' h

/-- A read-out word gives its command exactly where its index is in use and `imm` is 0. -/
theorem whenIndex_eq_ok {used : Nat} {sub : BitVec 4} {imm : BitVec 24} {i j : Instr} :
    whenIndex used sub imm i = .ok j ↔ sub.toNat < used ∧ imm = 0 ∧ i = j := by
  by_cases h : sub.toNat < used <;> simp [whenIndex, whenZero_eq_ok, h]

theorem bitVec_append_eq_zero {k m : Nat} {a : BitVec k} {b : BitVec m} : a ++ b = 0 ↔ a = 0 ∧ b = 0 := by
  refine ⟨fun h => ⟨?_, ?_⟩, fun ⟨ha, hb⟩ => by rw [ha, hb]; exact BitVec.zero_append_zero⟩
  · simpa [BitVec.extractLsb'_append_eq_left] using congrArg (BitVec.extractLsb' m k) h
  · simpa [BitVec.extractLsb'_append_eq_right] using congrArg (BitVec.extractLsb' 0 m) h

/-- A word is the one word with its fields (R83). -/
theorem packWord_eq {w : Word} {op sub : BitVec 4} {imm : BitVec 24} (ho : (opField w).toNat = op.toNat)
    (hs : sub = subField w) (hi : imm = immField w) : packWord op sub imm = w := by
  rw [← packWord_fields w, BitVec.eq_of_toNat_eq ho, hs, hi]

/-- A word checked to be an opcode alone is the word of that opcode's command. -/
theorem encode_of_bare (op : BitVec 4) {w : Word} {i j : Instr} (ho : (opField w).toNat = op.toNat)
    (h : whenZero (subField w ++ immField w) i = .ok j) (he : encode i = packWord op 0 0) : encode j = w := by
  obtain ⟨hz, rfl⟩ := whenZero_eq_ok.1 h
  obtain ⟨hs, hi⟩ := bitVec_append_eq_zero.1 hz
  rw [he, packWord_eq ho hs.symm hi.symm]

/-- The `sub` field of `MOD.RUN` is its `pre` bit behind zeros (R84). -/
theorem pre_bit_behind_zeros : ∀ sub : BitVec 4, sub.extractLsb' 1 3 = 0 →
    0b000#3 ++ BitVec.ofBool (sub.getLsbD 0) = sub := by decide

/-- The `imm` field of `FCS.BUILD` is its `seq` bits behind zeros (R84). -/
theorem seq_bits_behind_zeros {imm : BitVec 24} (h : imm.extractLsb' 16 8 = 0) :
    0x00#8 ++ imm.extractLsb' 0 16 = imm := by
  have e := BitVec.extractLsb'_append_extractLsb' (w := 8) (len := 16) (x := imm)
  rwa [h] at e

/-- A word that decodes is the word of its command. -/
theorem encode_of_decode {w : Word} {i : Instr} (h : decode w = .ok i) : encode i = w := by
  simp only [decode] at h
  split at h <;> rename_i ho
  · exact encode_of_bare 0x0 ho h rfl
  · split at h
    · cases h; exact packWord_eq (op := 0x1) ho rfl rfl
    · cases h
  · exact encode_of_bare 0x3 ho h rfl
  · obtain ⟨hz, rfl⟩ := whenZero_eq_ok.1 h
    obtain ⟨hs, hi⟩ := bitVec_append_eq_zero.1 hz
    exact packWord_eq (op := 0x4) ho (pre_bit_behind_zeros _ hs) hi.symm
  · exact encode_of_bare 0x5 ho h rfl
  · obtain ⟨hz, rfl⟩ := whenZero_eq_ok.1 h
    obtain ⟨hs, hi⟩ := bitVec_append_eq_zero.1 hz
    exact packWord_eq (op := 0x6) ho hs.symm (seq_bits_behind_zeros hi)
  · exact encode_of_bare 0x7 ho h rfl
  · obtain ⟨-, hi, rfl⟩ := whenIndex_eq_ok.1 h
    exact packWord_eq (op := 0x8) ho rfl hi.symm
  · obtain ⟨-, hi, rfl⟩ := whenIndex_eq_ok.1 h
    exact packWord_eq (op := 0x9) ho rfl hi.symm
  · exact encode_of_bare 0xA ho h rfl
  · exact encode_of_bare 0xB ho h rfl
  · exact encode_of_bare 0xC ho h rfl
  · cases h

end Sys2Proof
end

section
/-! What one step can do, said once: the host's moves, the control commands, and the next action of the port
(`00_scope.md` R19, `45_control_ops.md` R240). -/

namespace Sys2Proof.Machine

variable {σ : Type} {c : Impl σ} {s t : State σ}

/-- When `push MOD_IN` is a move, and its effect (R53). -/
theorem pushModIn_eq_next {b : Bits} :
    pushModIn c b s = .next t ↔ s.modIn.length < c.depthModIn ∧ t = { s with modIn := s.modIn ++ [b] } := by
  unfold pushModIn
  split <;> simp [*, eq_comm]

/-- When `push FCS_IN` is a move, and its effect (R53). -/
theorem pushFcsIn_eq_next {b : Bits} :
    pushFcsIn c b s = .next t ↔ s.fcsIn.length < c.depthFcsIn ∧ t = { s with fcsIn := s.fcsIn ++ [b] } := by
  unfold pushFcsIn
  split <;> simp [*, eq_comm]

/-- When `push DEM_IN` is a move, and its effect (R55, R56). -/
theorem pushDemIn_cases {v : Samples σ} (h : pushDemIn c v s = .next t) :
    s.phase = .ready ∧ (∃ p, s.plan = some p ∧ v.length = p.block) ∧ v.all c.num.isFinite = true ∧
      t = { s with demIn := pushDropOldest c.iqDepth s.demIn v } := by
  unfold pushDemIn at h
  split at h
  · rename_i p hr hp
    split at h
    · split at h
      · cases h; exact ⟨hr, ⟨p, hp, ‹_›⟩, ‹_›, rfl⟩
      · cases h
    · cases h
  · cases h

/-- What a pop can do (R57): it takes the oldest message of one output FIFO. -/
theorem popOut_cases {f : OutFifo} (h : popOut f s = .next t) :
    (∃ v rest, s.modOut = v :: rest ∧ t = { s with modOut := rest, popped := some (.samples v) }) ∨
    (∃ b rest, s.demOut = b :: rest ∧ t = { s with demOut := rest, popped := some (.bits b) }) ∨
    ∃ b rest, s.fcsOut = b :: rest ∧ t = { s with fcsOut := rest, popped := some (.bits b) } := by
  cases f with
  | modOut =>
    simp only [popOut, popModOut] at h
    split at h <;> cases h
    exact .inl ⟨_, _, ‹_›, rfl⟩
  | demOut =>
    simp only [popOut, popDemOut] at h
    split at h <;> cases h
    exact .inr (.inl ⟨_, _, ‹_›, rfl⟩)
  | fcsOut =>
    simp only [popOut, popFcsOut] at h
    split at h <;> cases h
    exact .inr (.inr ⟨_, _, ‹_›, rfl⟩)

/-- The two ends of the work of `MOD.RUN` (R130). -/
theorem modRunOn_cases (c : Impl σ) (pre : Bool) (s : State σ) (p : Plan σ) (bits : Bits) (rest : List Bits) :
    (bits = [] ∧ modRunOn c pre s p bits rest = raiseConfigError { s with modIn := rest }) ∨
    (bits ≠ [] ∧ modRunOn c pre s p bits rest =
      let out := modulate c.num c.rom p bits pre
      complete .ok
        { s with
          modIn := rest
          modOut := s.modOut ++ [out.frame]
          res := { s.res with modNsym := BitVec.ofNat 32 out.symbols, modLen := BitVec.ofNat 32 out.frame.length }
          cnt := { s.cnt with txFrames := s.cnt.txFrames + 1 } }) := by
  cases bits with
  | nil => exact .inl ⟨rfl, rfl⟩
  | cons b l => exact .inr ⟨List.cons_ne_nil b l, rfl⟩

/-- What a read-out can do (R51). -/
theorem readOut_cases (value : Option (Value σ)) (s : State σ) :
    (∃ v, readOut value s = completeWith .ok v s) ∨ readOut value s = complete .illegalCommand s := by
  cases value with
  | none => exact .inr rfl
  | some v => exact .inl ⟨v, rfl⟩

/-- What `CNT.CLR` can do (R236). -/
theorem execCntClr_cases (h : execCntClr s = .next t) :
    (s.phase = .fatal ∧ t = complete .configError s) ∨
    (s.phase ≠ .fatal ∧ t = complete .ok { s with cnt := ⟨0, 0, 0, 0⟩ }) := by
  simp only [execCntClr, Host.Outcome.next.injEq] at h
  cases hp : s.phase <;> simp [← h, hp]

/-- What an offered word can do (R256, R90): run its command, or complete ILLEGAL_COMMAND. -/
theorem issueWord_cases {run : Instr → State σ → Result σ} {w : Word} (h : issueWord run w s = .next t) :
    (∃ i, decode w = .ok i ∧ run i s = .next t) ∨ t = complete .illegalCommand s := by
  unfold issueWord at h
  split at h
  · exact .inl ⟨_, ‹_›, h⟩
  · cases h; exact .inr rfl

/-- What one step can do (R19, R275): nothing, or the next action of the port, taken away from it. -/
theorem stepOf_cases (h : stepOf c s = .next t) :
    (s.port = [] ∧ t = s) ∨
    ∃ a rest, s.port = a :: rest ∧ takeAction c (execOf c) a { s with port := rest } = .next t := by
  unfold stepOf takeNext at h
  split at h
  · cases h; exact .inl ⟨‹_›, rfl⟩
  · exact .inr ⟨_, _, ‹_›, h⟩

end Sys2Proof.Machine
end

section
/-! The phase (`10_state.md` R21): how each command, move and step moves it, for the block over every implementation. -/

namespace Sys2Proof.Machine

variable {σ : Type} {c : Impl σ} {s t : State σ}

/-- The work of `DEM.RUN` leaves the phase alone. -/
theorem demRunOn_phase (c : Impl σ) (s : State σ) (p : Plan σ) (r : Samples σ) (rest : List (Samples σ)) :
    (demRunOn c s p r rest).phase = s.phase := by
  rcases demRunOn_cases c s p r rest with e | e | ⟨_, _, _, e⟩ <;> rw [e] <;> rfl

/-- A command leaves the phase alone, or raises ConfigError, or is a `PLAN.BUILD` that completes OK, or is `SRESET`. -/
theorem execOf_phase_cases {i : Instr} (h : execOf c i s = .next t) :
    t.phase = s.phase ∨ (t.phase = .fatal ∧ t.last = .configError) ∨
    (i = .planBuild ∧ s.phase = .unconfigured ∧ t.phase = .ready ∧ t.last = .ok) ∨
    (i = .sreset ∧ t.phase = .unconfigured) := by
  cases i with
  | nop => cases h; exact .inl rfl
  | cfgWr field value => rcases execCfgWr_cases h with rfl | rfl | ⟨-, -, rfl⟩ <;> exact .inl rfl
  | planBuild =>
    rcases planBuildOf_cases h with rfl | rfl | ⟨-, rfl⟩ | ⟨hu, _, -, -, rfl⟩
    · exact .inl rfl
    · exact .inl rfl
    · exact .inr (.inl ⟨rfl, rfl⟩)
    · exact .inr (.inr (.inl ⟨rfl, hu, rfl, rfl⟩))
  | modRun pre =>
    rcases modRunOf_cases h with ⟨-, rfl⟩ | ⟨-, rfl⟩ | rfl | ⟨-, -, p, bits, rest, -, -, rfl⟩
    · exact .inl rfl
    · exact .inr (.inl ⟨rfl, rfl⟩)
    · exact .inl rfl
    · rcases modRunOn_cases c pre s p bits rest with ⟨-, e⟩ | ⟨-, e⟩ <;> rw [e]
      · exact .inr (.inl ⟨rfl, rfl⟩)
      · exact .inl rfl
  | demRun =>
    rcases demRunOf_cases h with ⟨-, rfl⟩ | ⟨-, rfl⟩ | rfl | ⟨-, -, p, r, rest, -, -, rfl⟩
    · exact .inl rfl
    · exact .inr (.inl ⟨rfl, rfl⟩)
    · exact .inl rfl
    · exact .inl (demRunOn_phase c s p r rest)
  | fcsBuild seq =>
    rcases fcsBuildOf_cases h with ⟨-, rfl⟩ | ⟨-, rfl⟩ | rfl | ⟨-, -, _, _, _, -, -, -, rfl⟩
    · exact .inl rfl
    · exact .inr (.inl ⟨rfl, rfl⟩)
    · exact .inl rfl
    · exact .inl rfl
  | fcsCheck =>
    rcases fcsCheckOf_cases h with ⟨-, rfl⟩ | ⟨-, rfl⟩ | rfl | ⟨-, -, _, _, _, -, -, -, ⟨-, rfl⟩ | ⟨-, rfl⟩⟩
    · exact .inl rfl
    · exact .inr (.inl ⟨rfl, rfl⟩)
    · exact .inl rfl
    · exact .inl rfl
    · exact .inl rfl
  | resRd reg => cases h; rcases readOut_cases (s.res.read reg) s with ⟨_, e⟩ | e <;> exact .inl (by rw [e]; rfl)
  | cntRd cnt => cases h; rcases readOut_cases (s.cnt.read cnt) s with ⟨_, e⟩ | e <;> exact .inl (by rw [e]; rfl)
  | cntClr => rcases execCntClr_cases h with ⟨-, rfl⟩ | ⟨-, rfl⟩ <;> exact .inl rfl
  | statRd => cases h; exact .inl rfl
  | sreset => cases h; exact .inr (.inr (.inr ⟨rfl, rfl⟩))

/-- A host action leaves the phase alone, or raises ConfigError, or is the word of a `PLAN.BUILD` that completes OK, or
is a reset. -/
theorem takeAction_phase_cases {a : HostAction σ} (h : takeAction c (execOf c) a s = .next t) :
    t.phase = s.phase ∨ (t.phase = .fatal ∧ t.last = .configError) ∨
    (a = .command (encode .planBuild) ∧ s.phase = .unconfigured ∧ t.phase = .ready ∧ t.last = .ok) ∨
    ((a = .command (encode .sreset) ∨ a = .resetInput) ∧ t.phase = .unconfigured) := by
  cases a with
  | command w =>
    rcases issueWord_cases h with ⟨i, hd, he⟩ | rfl
    · obtain rfl := encode_of_decode hd
      rcases execOf_phase_cases he with hs | hf | ⟨rfl, hr⟩ | ⟨rfl, hu⟩
      · exact .inl hs
      · exact .inr (.inl hf)
      · exact .inr (.inr (.inl ⟨rfl, hr⟩))
      · exact .inr (.inr (.inr ⟨.inl rfl, hu⟩))
    · exact .inl rfl
  | pushModIn b => obtain ⟨-, rfl⟩ := pushModIn_eq_next.1 h; exact .inl rfl
  | pushFcsIn b => obtain ⟨-, rfl⟩ := pushFcsIn_eq_next.1 h; exact .inl rfl
  | pushDemIn v => obtain ⟨-, -, -, rfl⟩ := pushDemIn_cases h; exact .inl rfl
  | pop f => rcases popOut_cases h with ⟨_, _, -, rfl⟩ | ⟨_, _, -, rfl⟩ | ⟨_, _, -, rfl⟩ <;> exact .inl rfl
  | resetInput => cases h; exact .inr (.inr (.inr ⟨.inr rfl, rfl⟩))

/-- Settles O54: a step that moves the phase takes an action, and the action is one that may. -/
theorem phaseMovesOnlyAsStated : Obligations.PhaseMovesOnlyAsStated := by
  intro s t h hne
  rw [step_eq_stepOf] at h
  rcases stepOf_cases h with ⟨-, rfl⟩ | ⟨a, rest, hp, ha⟩
  · exact absurd rfl hne
  · rcases takeAction_phase_cases ha with hs | hf | ⟨rfl, hu, hr, hl⟩ | ⟨rfl | rfl, hu⟩
    · exact absurd hs hne
    · exact .inr (.inl hf)
    · exact .inl ⟨hu, hr, hl, rest, hp⟩
    · exact .inr (.inr ⟨hu, .inl ⟨rest, hp⟩⟩)
    · exact .inr (.inr ⟨hu, .inr ⟨rest, hp⟩⟩)

end Sys2Proof.Machine
end

section
/-! The invariant of the block (`10_state.md` R21, R26, R37, `20_memory.md` R52 to R61): one rule for each part of the
state it speaks of, and from them that reset has it and every step keeps it. -/

namespace Sys2Proof.Machine

section MessageLengths

variable {σ : Type} {p : Plan σ}

/-- A sound plan with two points carries one bit per subcarrier. -/
theorem Plan.Sound.bps_eq_one (hp : p.Sound) (hm : p.m = 2) : p.bps = 1 := by
  rcases hp.order with ⟨-, hb⟩ | ⟨q, hq, hm', -⟩
  · exact hb
  · have : 4 ^ 1 ≤ 4 ^ q := Nat.pow_le_pow_right (by decide) hq
    omega

/-- What `DEM.RUN` pushes fits a sound plan (R203). -/
theorem decodeWindow_length_of_sound (hp : p.Sound) (n : Num σ) (rom : Rom σ) (draw : Nat → Nat) (w : Samples σ) :
    (decodeWindow n rom p draw w).bits.length = p.nsym * 48 * p.bps := by
  rw [decodeWindow_length _ _ _ _ _ hp.bps_eq_one, hp.dataCount_eq, Nat.mul_assoc]

/-- What `MOD.RUN` pushes fits a sound plan (R140). -/
theorem modulate_length_of_sound (hp : p.Sound) (n : Num σ) (rom : Rom σ) (bits : Bits) (pre : Bool) :
    ∃ k, (modulate n rom p bits pre).frame.length = k * p.symLen ∨
      (modulate n rom p bits pre).frame.length = (160 + p.lp) + k * p.symLen := by
  refine ⟨(modulate n rom p bits pre).symbols, ?_⟩
  rw [modulate_length _ _ _ _ _ hp.cpLen_le, hp.symLen_eq, hp.preamble_length]
  cases pre <;> simp

/-- What `FCS.BUILD` pushes fits a sound plan (R216). -/
theorem buildFrame_length (hp : p.Sound) (seq : Nat) {payload : Bits} (hl : payload.length = p.payload) :
    (buildFrame p seq payload).length = p.frameBits := by
  rw [hp.frameBits_eq, ← hl]
  by_cases ha : p.arq = 1 <;> simp [buildFrame, frameHead, ha, Nat.add_assoc]

/-- What `FCS.CHECK` pushes fits a sound plan (R218). -/
theorem checkedPayload_length (hp : p.Sound) {msg : Bits} (hl : p.frameBits ≤ msg.length) :
    (if p.arq = 1 then (checkedHead p msg).drop 16 else checkedHead p msg).length = p.payload := by
  have hh : (checkedHead p msg).length = p.frameBits - 32 := slice_length_of_le msg (by omega)
  have hf := hp.frameBits_eq
  by_cases ha : p.arq = 1
  · rw [if_pos ha] at hf
    rw [if_pos ha, List.length_drop, hh]
    omega
  · rw [if_neg ha] at hf
    rw [if_neg ha, hh]
    omega

end MessageLengths

section Fit

/-- Every message of a FIFO fits the plan, and so there are none without a plan. -/
def AllFit {α : Type} (plan : Option (Plan Scalar)) (fit : Plan Scalar → α → Prop) (fifo : List α) : Prop :=
  ∀ msg ∈ fifo, ∃ p, plan = some p ∧ fit p msg

variable {α : Type} {plan : Option (Plan Scalar)} {p : Plan Scalar} {fit : Plan Scalar → α → Prop} {fifo : List α}

theorem allFit_iff : AllFit plan fit fifo ↔
    (plan = none → fifo = []) ∧ ∀ p, plan = some p → ∀ msg ∈ fifo, fit p msg := by
  cases plan <;> simp [AllFit, List.eq_nil_iff_forall_not_mem]

theorem AllFit.subset (h : AllFit plan fit fifo) {fewer : List α} (hs : fewer ⊆ fifo) : AllFit plan fit fewer :=
  fun msg hm => h msg (hs hm)

theorem AllFit.push (h : AllFit plan fit fifo) {msg : α} (hp : plan = some p) (hm : fit p msg) :
    AllFit plan fit (fifo ++ [msg]) :=
  List.forall_mem_append.2 ⟨h, List.forall_mem_singleton.2 ⟨p, hp, hm⟩⟩

theorem AllFit.pushDropOldest (h : AllFit plan fit fifo) {msg : α} (capacity : Nat) (hp : plan = some p)
    (hm : fit p msg) : AllFit plan fit (pushDropOldest capacity fifo msg) := fun x hx => by
  rcases mem_pushDropOldest hx with hx | rfl
  · exact h x hx
  · exact ⟨p, hp, hm⟩

/-- The length of a `MOD_OUT` message (R140). -/
abbrev FitsModOut (p : Plan Scalar) (v : Samples Scalar) : Prop :=
  ∃ k, v.length = k * p.symLen ∨ v.length = (160 + p.lp) + k * p.symLen

/-- The length of a `DEM_IN` message (R55). -/
abbrev FitsDemIn (p : Plan Scalar) (v : Samples Scalar) : Prop := v.length = p.block

/-- The length of a `DEM_OUT` message (R203). -/
abbrev FitsDemOut (p : Plan Scalar) (b : Bits) : Prop := b.length = p.nsym * 48 * p.bps

/-- The length of an `FCS_OUT` message (R216, R218). -/
abbrev FitsFcsOut (p : Plan Scalar) (b : Bits) : Prop := b.length = p.frameBits ∨ b.length = p.payload

variable {s : State}

theorem State.Inv.modOut_fit (h : s.Inv) : AllFit s.plan FitsModOut s.modOut :=
  allFit_iff.2 ⟨fun hp => (h.no_plan_empty hp).2.1, fun p hp => (h.messages_fit p hp).modOut⟩

theorem State.Inv.demIn_fit (h : s.Inv) : AllFit s.plan FitsDemIn s.demIn :=
  allFit_iff.2 ⟨fun hp => (h.no_plan_empty hp).1, fun p hp => (h.messages_fit p hp).demIn⟩

theorem State.Inv.demOut_fit (h : s.Inv) : AllFit s.plan FitsDemOut s.demOut :=
  allFit_iff.2 ⟨fun hp => (h.no_plan_empty hp).2.2.1, fun p hp => (h.messages_fit p hp).demOut⟩

theorem State.Inv.fcsOut_fit (h : s.Inv) : AllFit s.plan FitsFcsOut s.fcsOut :=
  allFit_iff.2 ⟨fun hp => (h.no_plan_empty hp).2.2.2, fun p hp => (h.messages_fit p hp).fcsOut⟩

end Fit

section StateRules

variable {s t : State}

/-- The invariant speaks only of the phase, the plan, the FIFOs and the receive counters. -/
theorem State.Inv.frame (h : s.Inv)
    (e : t = { s with
      cfg := t.cfg, demFound := t.demFound, fcsOk := t.fcsOk, last := t.last, res := t.res, cnt := t.cnt,
      port := t.port, response := t.response, popped := t.popped, draws := t.draws })
    (hc : t.cnt.rxTotal = t.cnt.rxOk + t.cnt.rxBad) : t.Inv := by
  rw [e]
  exact { h with
    counters_add := hc
    messages_fit := fun p hp => { h.messages_fit p hp with } }

/-- In FATAL nothing is asked of the plan but that it is sound. -/
theorem State.Inv.toFatal (h : s.Inv) : State.Inv { s with phase := .fatal } :=
  { h with
    ready_plan := nofun
    unconfigured_plan := nofun
    messages_fit := fun p hp => { h.messages_fit p hp with } }

/-- In UNCONFIGURED the FIFOs that need a plan are empty, and so fit any sound one. -/
theorem State.Inv.commitPlan (h : s.Inv) (hu : s.phase = .unconfigured) {p : Plan Scalar} (hs : p.Sound) :
    State.Inv { s with plan := some p, phase := .ready } := by
  obtain ⟨hdi, hmo, hdo, hfo⟩ := h.no_plan_empty (h.unconfigured_plan hu)
  exact { h with
    ready_plan := nofun
    unconfigured_plan := nofun
    plan_sound := by rintro _ ⟨⟩; exact hs
    no_plan_empty := nofun
    messages_fit := fun _ _ => ⟨by simp [hdi], by simp [hdo], by simp [hfo], by simp [hmo]⟩ }

theorem State.Inv.setModIn (h : s.Inv) {l : List Bits} (hl : l.length ≤ Config.depthModIn) :
    State.Inv { s with modIn := l } :=
  { h with
    modIn_le := hl
    messages_fit := fun p hp => { h.messages_fit p hp with } }

theorem State.Inv.setFcsIn (h : s.Inv) {l : List Bits} (hl : l.length ≤ Config.depthFcsIn) :
    State.Inv { s with fcsIn := l } :=
  { h with
    fcsIn_le := hl
    messages_fit := fun p hp => { h.messages_fit p hp with } }

theorem State.Inv.setModOut (h : s.Inv) {l : List (Samples Scalar)} (hl : l.length ≤ Config.depthModOut)
    (hf : AllFit s.plan FitsModOut l) : State.Inv { s with modOut := l } :=
  have ⟨hn, hm⟩ := allFit_iff.1 hf
  { h with
    modOut_le := hl
    no_plan_empty := fun hp => have ⟨hi, _, ho⟩ := h.no_plan_empty hp; ⟨hi, hn hp, ho⟩
    messages_fit := fun p hp => { h.messages_fit p hp with modOut := hm p hp } }

theorem State.Inv.setDemIn (h : s.Inv) {l : List (Samples Scalar)} (hl : l.length ≤ Config.iqDepth)
    (hf : AllFit s.plan FitsDemIn l) : State.Inv { s with demIn := l } :=
  have ⟨hn, hm⟩ := allFit_iff.1 hf
  { h with
    demIn_le := hl
    no_plan_empty := fun hp => have ⟨_, ho⟩ := h.no_plan_empty hp; ⟨hn hp, ho⟩
    messages_fit := fun p hp => { h.messages_fit p hp with demIn := hm p hp } }

theorem State.Inv.setDemOut (h : s.Inv) {l : List Bits} (hl : l.length ≤ Config.depthDemOut)
    (hf : AllFit s.plan FitsDemOut l) : State.Inv { s with demOut := l } :=
  have ⟨hn, hm⟩ := allFit_iff.1 hf
  { h with
    demOut_le := hl
    no_plan_empty := fun hp => have ⟨hi, ho, _, hfo⟩ := h.no_plan_empty hp; ⟨hi, ho, hn hp, hfo⟩
    messages_fit := fun p hp => { h.messages_fit p hp with demOut := hm p hp } }

theorem State.Inv.setFcsOut (h : s.Inv) {l : List Bits} (hl : l.length ≤ Config.depthFcsOut)
    (hf : AllFit s.plan FitsFcsOut l) : State.Inv { s with fcsOut := l } :=
  have ⟨hn, hm⟩ := allFit_iff.1 hf
  { h with
    fcsOut_le := hl
    no_plan_empty := fun hp => have ⟨hi, ho, hdo, _⟩ := h.no_plan_empty hp; ⟨hi, ho, hdo, hn hp⟩
    messages_fit := fun p hp => { h.messages_fit p hp with fcsOut := hm p hp } }

theorem init_inv (zero : Scalar) : (State.init zero).Inv where
  ready_plan := nofun
  unconfigured_plan := fun _ => rfl
  plan_sound := nofun
  modIn_le := Nat.zero_le _
  modOut_le := Nat.zero_le _
  demIn_le := Nat.zero_le _
  demOut_le := Nat.zero_le _
  fcsIn_le := Nat.zero_le _
  fcsOut_le := Nat.zero_le _
  no_plan_empty := fun _ => ⟨rfl, rfl, rfl, rfl⟩
  messages_fit := nofun
  counters_add := rfl

end StateRules

section SharedOperations

variable {s : State}

theorem complete_inv (h : s.Inv) (code : Code) : (complete code s).Inv := h.frame rfl h.counters_add

theorem raiseConfigError_inv (h : s.Inv) : (raiseConfigError s).Inv := complete_inv h.toFatal .configError

theorem raiseFrameIntegrityError_inv (h : s.Inv) : (raiseFrameIntegrityError s).Inv :=
  h.frame rfl (by simp [h.counters_add, BitVec.add_assoc])

theorem noteDetection_inv (h : s.Inv) (cand : Candidate Scalar) : (noteDetection cand s).Inv :=
  h.frame rfl h.counters_add

theorem resetBlock_inv (zero : Scalar) (s : State) : (resetBlock zero s).Inv := (init_inv zero).frame rfl rfl

theorem readOut_inv (h : s.Inv) (value : Option Value) : (readOut value s).Inv := by
  rcases readOut_cases value s with ⟨v, e⟩ | e <;> rw [e] <;> exact h.frame rfl h.counters_add

end SharedOperations

section Commands

variable {s t : State}

/-- A CFG register is 24 bits wide (R24). -/
theorem cfgValues_block_lt {f : CfgFile} {v : CfgValues} (h : cfgValues f = some v) : v.block < 2 ^ 24 := by
  unfold cfgValues at h
  split at h <;> cases h
  exact BitVec.isLt _

/-- A plan that the machine builds is sound (R26, R102). -/
theorem built_plan_sound {f : CfgFile} {v : CfgValues} (hv : cfgValues f = some v)
    (hl : cfgLegal Config.qmax v = true) : (buildPlan Config.num Config.rom v).Sound :=
  buildPlan_sound _ _ (active_of_legal Config.format.legal) ((cfgLegal_iff _ v).1 hl) (cfgValues_block_lt hv)

/-- A FIFO within its capacity is within it without its oldest message. -/
theorem rest_length_le {α : Type} {fifo rest : List α} {msg : α} {capacity : Nat} (hi : fifo = msg :: rest)
    (h : fifo.length ≤ capacity) : rest.length ≤ capacity := by
  simp only [hi, List.length_cons] at h
  omega

theorem rest_subset {α : Type} {fifo rest : List α} {msg : α} (hi : fifo = msg :: rest) : rest ⊆ fifo := by
  simp [hi]

theorem modRunOn_inv (h : s.Inv) (pre : Bool) {p : Plan Scalar} {bits : Bits} {rest : List Bits}
    (hp : s.plan = some p) (hi : s.modIn = bits :: rest) (ho : s.modOut.length < Config.depthModOut) :
    (modRunOn Config.impl pre s p bits rest).Inv := by
  have hr : State.Inv { s with modIn := rest } := h.setModIn (rest_length_le hi h.modIn_le)
  rcases modRunOn_cases Config.impl pre s p bits rest with ⟨-, e⟩ | ⟨-, e⟩ <;> rw [e]
  · exact raiseConfigError_inv hr
  · have hf := h.modOut_fit.push hp (modulate_length_of_sound (h.plan_sound p hp) Config.num Config.rom bits pre)
    exact (hr.setModOut (by simpa using ho) hf).frame rfl h.counters_add

theorem demRunOn_inv (h : s.Inv) {p : Plan Scalar} {r : Samples Scalar} {rest : List (Samples Scalar)}
    (hp : s.plan = some p) (hi : s.demIn = r :: rest) (ho : s.demOut.length < Config.depthDemOut) :
    (demRunOn Config.impl s p r rest).Inv := by
  have hdrop (k : Nat) : State.Inv { s with demIn := s.demIn.drop k } :=
    h.setDemIn (by simpa using Nat.le_add_right_of_le h.demIn_le) (h.demIn_fit.subset (List.drop_subset k _))
  rcases demRunOn_cases Config.impl s p r rest with e | e | ⟨w, k, -, e⟩ <;> rw [e]
  · have hr := hdrop 1
    rw [hi] at hr
    exact hr.frame rfl h.counters_add
  · exact complete_inv (noteDetection_inv h _) .needBlock
  · have hf := h.demOut_fit.push hp
      (decodeWindow_length_of_sound (h.plan_sound p hp) Config.num Config.rom (drawsFrom Config.impl s) w)
    exact ((hdrop k).setDemOut (by simpa using ho) hf).frame rfl h.counters_add

/-- What the FCS commands do to the FIFOs: the oldest message of `FCS_IN` goes, one that fits is pushed to `FCS_OUT`. -/
theorem moveFcs_inv (h : s.Inv) {p : Plan Scalar} {msg out : Bits} {rest : List Bits} (hp : s.plan = some p)
    (hi : s.fcsIn = msg :: rest) (ho : s.fcsOut.length < Config.depthFcsOut) (hf : FitsFcsOut p out) :
    State.Inv { s with fcsIn := rest, fcsOut := s.fcsOut ++ [out] } :=
  (h.setFcsIn (rest_length_le hi h.fcsIn_le)).setFcsOut (by simpa using ho) (h.fcsOut_fit.push hp hf)

/-- Every command keeps the invariant. -/
theorem execOf_inv {i : Instr} (h : s.Inv) (he : execOf Config.impl i s = .next t) : t.Inv := by
  cases i with
  | nop => cases he; exact complete_inv h .ok
  | cfgWr field value =>
    rcases execCfgWr_cases he with rfl | rfl | ⟨-, -, rfl⟩
    · exact complete_inv h .illegalCommand
    · exact complete_inv h .configError
    · exact h.frame rfl h.counters_add
  | planBuild =>
    rcases planBuildOf_cases he with rfl | rfl | ⟨-, rfl⟩ | ⟨hu, v, hv, hl, rfl⟩
    · exact complete_inv h .illegalCommand
    · exact complete_inv h .configError
    · exact raiseConfigError_inv h
    · exact complete_inv (h.commitPlan hu (built_plan_sound hv hl)) .ok
  | modRun pre =>
    rcases modRunOf_cases he with ⟨-, rfl⟩ | ⟨-, rfl⟩ | rfl | ⟨-, ho, p, bits, rest, hp, hi, rfl⟩
    · exact complete_inv h .configError
    · exact raiseConfigError_inv h
    · exact complete_inv h .buffer
    · exact modRunOn_inv h pre hp hi ho
  | demRun =>
    rcases demRunOf_cases he with ⟨-, rfl⟩ | ⟨-, rfl⟩ | rfl | ⟨-, ho, p, r, rest, hp, hi, rfl⟩
    · exact complete_inv h .configError
    · exact raiseConfigError_inv h
    · exact complete_inv h .buffer
    · exact demRunOn_inv h hp hi ho
  | fcsBuild seq =>
    rcases fcsBuildOf_cases he with ⟨-, rfl⟩ | ⟨-, rfl⟩ | rfl | ⟨-, ho, p, payload, rest, hp, hi, hl, rfl⟩
    · exact complete_inv h .configError
    · exact raiseConfigError_inv h
    · exact complete_inv h .buffer
    · exact complete_inv (moveFcs_inv h hp hi ho (.inl (buildFrame_length (h.plan_sound p hp) seq.toNat hl))) .ok
  | fcsCheck =>
    rcases fcsCheckOf_cases he with
      ⟨-, rfl⟩ | ⟨-, rfl⟩ | rfl | ⟨-, ho, p, msg, rest, hp, hi, hl, ⟨-, rfl⟩ | ⟨-, rfl⟩⟩
    · exact complete_inv h .configError
    · exact raiseConfigError_inv h
    · exact complete_inv h .buffer
    · exact (moveFcs_inv h hp hi ho (.inr (checkedPayload_length (h.plan_sound p hp) hl))).frame rfl
        (by simp [acceptFrame, h.counters_add, add_right_comm])
    · exact raiseFrameIntegrityError_inv (h.setFcsIn (rest_length_le hi h.fcsIn_le))
  | resRd reg => cases he; exact readOut_inv h (s.res.read reg)
  | cntRd cnt => cases he; exact readOut_inv h (s.cnt.read cnt)
  | cntClr =>
    rcases execCntClr_cases he with ⟨-, rfl⟩ | ⟨-, rfl⟩
    · exact complete_inv h .configError
    · exact h.frame rfl rfl
  | statRd => cases he; exact h.frame rfl h.counters_add
  | sreset => cases he; exact complete_inv (resetBlock_inv _ s) .ok

end Commands

section HostActions

variable {s t : State}

/-- A host pop keeps the invariant (R57). -/
theorem popOut_inv {f : OutFifo} (h : s.Inv) (he : popOut f s = .next t) : t.Inv := by
  rcases popOut_cases he with ⟨v, rest, ho, rfl⟩ | ⟨b, rest, ho, rfl⟩ | ⟨b, rest, ho, rfl⟩
  · exact (h.setModOut (rest_length_le ho h.modOut_le) (h.modOut_fit.subset (rest_subset ho))).frame rfl h.counters_add
  · exact (h.setDemOut (rest_length_le ho h.demOut_le) (h.demOut_fit.subset (rest_subset ho))).frame rfl h.counters_add
  · exact (h.setFcsOut (rest_length_le ho h.fcsOut_le) (h.fcsOut_fit.subset (rest_subset ho))).frame rfl h.counters_add

/-- Every host action keeps the invariant. -/
theorem takeAction_inv {a : HostAction} (h : s.Inv)
    (he : takeAction Config.impl (execOf Config.impl) a s = .next t) : t.Inv := by
  cases a with
  | command w =>
    rcases issueWord_cases he with ⟨i, -, he⟩ | rfl
    · exact execOf_inv h he
    · exact complete_inv h .illegalCommand
  | pushModIn b =>
    obtain ⟨hl, rfl⟩ := pushModIn_eq_next.1 he
    exact h.setModIn (by simpa using hl)
  | pushFcsIn b =>
    obtain ⟨hl, rfl⟩ := pushFcsIn_eq_next.1 he
    exact h.setFcsIn (by simpa using hl)
  | pushDemIn v =>
    obtain ⟨-, ⟨p, hp, hv⟩, -, rfl⟩ := pushDemIn_cases he
    exact h.setDemIn (pushDropOldest_length_le v (by simp [Config.iqDepth]) h.demIn_le)
      (h.demIn_fit.pushDropOldest _ hp hv)
  | pop f => exact popOut_inv h he
  | resetInput => cases he; exact resetBlock_inv _ s

end HostActions

/-- Settles O57: nothing is held, counted or planned. -/
theorem invariantHoldsAtReset : Obligations.InvariantHoldsAtReset := init_inv Config.num.zero

/-- Settles O58: taking an action away from the port changes nothing that the invariant speaks of, and every action
keeps it. -/
theorem everyStepKeepsTheInvariant : Obligations.EveryStepKeepsTheInvariant := by
  intro s t h he
  rw [step_eq_stepOf] at he
  rcases stepOf_cases he with ⟨-, rfl⟩ | ⟨a, rest, -, ha⟩
  · exact h
  · exact takeAction_inv (s := { s with port := rest }) (h.frame rfl h.counters_add) ha

end Sys2Proof.Machine
end

section
/-! The partition of the 64 subcarriers (`10_state.md` R27). -/

namespace Sys2Proof.Machine

/-- The indices beside the pilots. -/
def nonPilots : List Nat := (List.range 64).filter fun k => !pilotSet.contains k

theorem pilotSet_eq_filter : pilotSet = (List.range 64).filter fun k => pilotSet.contains k := by decide

/-- The null subcarriers are the non-pilots outside the data set (R106). -/
theorem nullOf_eq_filter (data : List Nat) : nullOf data = nonPilots.filter fun k => !data.contains k := by
  simp [nullOf, nonPilots, List.filter_filter]

/-- The data subcarriers are the non-pilots in the data set, whatever the table (R106). -/
theorem dataOf_eq_filter {σ : Type} (n : Num σ) (rom : Rom σ) :
    dataOf (activeOf n rom) = nonPilots.filter fun k => (dataOf (activeOf n rom)).contains k := by
  have e : dataOf (activeOf n rom) = nonPilots.filter fun k => !n.isZero (rom.tref k) && !nullAlways k := by
    simp only [dataOf, activeOf, nonPilots, List.filter_filter]
    exact List.filter_congr fun k _ => by ac_rfl
  rw [e]
  exact List.filter_congr fun k hk => by simp [hk]

/-- The data and null subcarriers are the non-pilots, each once. -/
theorem data_append_null_perm {σ : Type} (n : Num σ) (rom : Rom σ) :
    (dataOf (activeOf n rom) ++ nullOf (dataOf (activeOf n rom))).Perm nonPilots := by
  have h := List.filter_append_perm (fun k => (dataOf (activeOf n rom)).contains k) nonPilots
  rwa [← dataOf_eq_filter, ← nullOf_eq_filter] at h

/-- The pilots and the non-pilots are the 64 indices, each once. -/
theorem pilot_append_nonPilots_perm : (pilotSet ++ nonPilots).Perm (List.range 64) := by
  have h := List.filter_append_perm (fun k => pilotSet.contains k) (List.range 64)
  rwa [← pilotSet_eq_filter] at h

/-- Settles O16: the pilots split `[0,64)`, and whatever the table, the data set splits the rest. -/
theorem planPartitionsTheSubcarriers : Obligations.PlanPartitionsTheSubcarriers := by
  intro σ n rom v
  refine ⟨?_, rfl, rfl⟩
  have h := ((data_append_null_perm n rom).append_left pilotSet).trans pilot_append_nonPilots_perm
  rwa [← List.append_assoc] at h

end Sys2Proof.Machine
end

section
/-! What the control and read-out commands leave alone (`20_memory.md` R62, `45_control_ops.md` section 1). -/

namespace Sys2Proof.Machine

/-- A read-out writes `STATUS.LAST` and the response only. -/
theorem readOut_frame {σ : Type} (value : Option (Value σ)) (s : State σ) :
    readOut value s = { s with last := (readOut value s).last, response := (readOut value s).response } := by
  rcases readOut_cases value s with ⟨v, e⟩ | e <;> rw [e] <;> rfl

/-- Settles O12: each command's answer is its one completion, and `CNT.CLR` has two. -/
theorem controlCommandsFrame : Obligations.ControlCommandsFrame := by
  intro i s t h
  rw [exec_eq_execOf] at h
  refine ⟨?_, ?_, ?_, ?_⟩
  · rintro (rfl | ⟨reg, rfl⟩ | ⟨cnt, rfl⟩)
    · cases h; rfl
    · cases h; exact readOut_frame _ s
    · cases h; exact readOut_frame _ s
  · rintro rfl
    cases h; rfl
  · rintro rfl
    rcases execCntClr_cases h with ⟨-, rfl⟩ | ⟨-, rfl⟩ <;> rfl
  · rintro rfl
    cases h; exact ⟨rfl, rfl⟩

end Sys2Proof.Machine
end

section
/-! The committed plan (`20_memory.md` R66, `70_reset_and_hazards.md` R281): what each command, move and step does to
it, for the block over every implementation. -/

namespace Sys2Proof.Machine

variable {σ : Type} {c : Impl σ} {s t : State σ}

theorem readOut_plan (value : Option (Value σ)) (s : State σ) : (readOut value s).plan = s.plan := by
  rw [readOut_frame]

theorem modRunOn_plan (c : Impl σ) (pre : Bool) (s : State σ) (p : Plan σ) (bits : Bits) (rest : List Bits) :
    (modRunOn c pre s p bits rest).plan = s.plan := by
  rcases modRunOn_cases c pre s p bits rest with ⟨-, e⟩ | ⟨-, e⟩ <;> rw [e] <;> rfl

theorem demRunOn_plan (c : Impl σ) (s : State σ) (p : Plan σ) (r : Samples σ) (rest : List (Samples σ)) :
    (demRunOn c s p r rest).plan = s.plan := by
  rcases demRunOn_cases c s p r rest with e | e | ⟨_, _, _, e⟩ <;> rw [e] <;> rfl

/-- Outside `UNCONFIGURED` every command but `SRESET` leaves the plan alone. -/
theorem execOf_plan_cases {i : Instr} (hu : s.phase ≠ .unconfigured) (h : execOf c i s = .next t) :
    t.plan = s.plan ∨ (i = .sreset ∧ t.plan = none) := by
  cases i with
  | nop => cases h; exact .inl rfl
  | cfgWr field value => rcases execCfgWr_cases h with rfl | rfl | ⟨-, -, rfl⟩ <;> exact .inl rfl
  | planBuild =>
    rcases planBuildOf_cases h with rfl | rfl | ⟨-, rfl⟩ | ⟨hn, -⟩
    · exact .inl rfl
    · exact .inl rfl
    · exact .inl rfl
    · exact absurd hn hu
  | modRun pre =>
    rcases modRunOf_cases h with ⟨-, rfl⟩ | ⟨-, rfl⟩ | rfl | ⟨-, -, p, bits, rest, -, -, rfl⟩
    · exact .inl rfl
    · exact .inl rfl
    · exact .inl rfl
    · exact .inl (modRunOn_plan c pre s p bits rest)
  | demRun =>
    rcases demRunOf_cases h with ⟨-, rfl⟩ | ⟨-, rfl⟩ | rfl | ⟨-, -, p, r, rest, -, -, rfl⟩
    · exact .inl rfl
    · exact .inl rfl
    · exact .inl rfl
    · exact .inl (demRunOn_plan c s p r rest)
  | fcsBuild seq =>
    rcases fcsBuildOf_cases h with ⟨-, rfl⟩ | ⟨-, rfl⟩ | rfl | ⟨-, -, _, _, _, -, -, -, rfl⟩ <;> exact .inl rfl
  | fcsCheck =>
    rcases fcsCheckOf_cases h with
      ⟨-, rfl⟩ | ⟨-, rfl⟩ | rfl | ⟨-, -, _, _, _, -, -, -, ⟨-, rfl⟩ | ⟨-, rfl⟩⟩ <;> exact .inl rfl
  | resRd reg => cases h; exact .inl (readOut_plan _ s)
  | cntRd cnt => cases h; exact .inl (readOut_plan _ s)
  | cntClr => rcases execCntClr_cases h with ⟨-, rfl⟩ | ⟨-, rfl⟩ <;> exact .inl rfl
  | statRd => cases h; exact .inl rfl
  | sreset => cases h; exact .inr ⟨rfl, rfl⟩

/-- Outside `UNCONFIGURED` every host action but a reset leaves the plan alone. -/
theorem takeAction_plan_cases {a : HostAction σ} (hu : s.phase ≠ .unconfigured)
    (h : takeAction c (execOf c) a s = .next t) :
    t.plan = s.plan ∨ ((a = .command (encode .sreset) ∨ a = .resetInput) ∧ t.plan = none) := by
  cases a with
  | command w =>
    rcases issueWord_cases h with ⟨i, hd, he⟩ | rfl
    · obtain rfl := encode_of_decode hd
      rcases execOf_plan_cases hu he with hs | ⟨rfl, hn⟩
      · exact .inl hs
      · exact .inr ⟨.inl rfl, hn⟩
    · exact .inl rfl
  | pushModIn b => obtain ⟨-, rfl⟩ := pushModIn_eq_next.1 h; exact .inl rfl
  | pushFcsIn b => obtain ⟨-, rfl⟩ := pushFcsIn_eq_next.1 h; exact .inl rfl
  | pushDemIn v => obtain ⟨-, -, -, rfl⟩ := pushDemIn_cases h; exact .inl rfl
  | pop f => rcases popOut_cases h with ⟨_, _, -, rfl⟩ | ⟨_, _, -, rfl⟩ | ⟨_, _, -, rfl⟩ <;> exact .inl rfl
  | resetInput => cases h; exact .inr ⟨.inr rfl, rfl⟩

/-- Settles O55: a step is idle or takes one action, and outside `UNCONFIGURED` only a reset touches the plan. -/
theorem planChangesOnlyByReset : Obligations.PlanChangesOnlyByReset := by
  intro s t p hu hp h
  rw [step_eq_stepOf] at h
  rcases stepOf_cases h with ⟨-, rfl⟩ | ⟨a, rest, hq, ha⟩
  · exact .inl hp
  · rcases takeAction_plan_cases (s := { s with port := rest }) hu ha with hs | ⟨rfl | rfl, hn⟩
    · exact .inl (hs.trans hp)
    · exact .inr ⟨hn, .inl ⟨rest, hq⟩⟩
    · exact .inr ⟨hn, .inr ⟨rest, hq⟩⟩

end Sys2Proof.Machine
end

section
/-! The drop-oldest FIFO as a function of the messages offered to it (`20_memory.md` R56): it holds the last of them. -/

namespace Sys2Proof.Machine

variable {α : Type}

/-- The last messages of the last messages and one more are the last messages of all. -/
theorem rtake_rtake_concat (l : List α) (x : α) (n : Nat) : (l.rtake n ++ [x]).rtake n = (l ++ [x]).rtake n := by
  cases n with
  | zero => simp
  | succ n => simp [List.rtake_eq_reverse_take_reverse, List.take_take]

/-- With as many messages behind them, none of those in front are among the last. -/
theorem rtake_append_of_le_length (l₁ : List α) {l₂ : List α} {n : Nat} (h : n ≤ l₂.length) :
    (l₁ ++ l₂).rtake n = l₂.rtake n := by
  simp [List.rtake_eq_reverse_take_reverse, List.take_append_of_le_length, h]

/-- One push keeps the last `capacity` of the messages held and the new one. -/
theorem pushDropOldest_eq_rtake {capacity : Nat} {fifo : List α} (msg : α) (hc : 1 ≤ capacity)
    (hf : fifo.length ≤ capacity) : pushDropOldest capacity fifo msg = (fifo ++ [msg]).rtake capacity := by
  obtain ⟨k, rfl⟩ := Nat.exists_eq_add_of_le' hc
  rw [List.rtake_concat_succ, List.rtake, pushDropOldest]
  split
  · rw [show fifo.length - k = 1 by omega, List.drop_one]
  · rw [show fifo.length - k = 0 by omega, List.drop_zero]

/-- A run of pushes keeps the last `capacity` of the messages held at first and those pushed. -/
theorem foldl_pushDropOldest {capacity : Nat} {held : List α} (hc : 1 ≤ capacity) (hh : held.length ≤ capacity)
    (pushed : List α) : pushed.foldl (pushDropOldest capacity) held = (held ++ pushed).rtake capacity := by
  induction pushed using List.reverseRecOn with
  | nil => simp [List.rtake, hh]
  | append_singleton pushed msg ih =>
    have hl : ((held ++ pushed).rtake capacity).length ≤ capacity := by simp [List.rtake]; omega
    rw [List.foldl_concat, ih, pushDropOldest_eq_rtake msg hc hl, rtake_rtake_concat, List.append_assoc]

end Sys2Proof.Machine
end

section
/-! The host's moves (`45_control_ops.md` R240, `20_memory.md` R53 to R57): when each is a move, and all it does. -/

namespace Sys2Proof.Machine

variable {σ : Type} {c : Impl σ} {s t : State σ}

/-- A step with an action at the head of the port takes that action. -/
theorem stepOf_action (c : Impl σ) (s : State σ) (a : HostAction σ) (rest : List (HostAction σ)) :
    stepOf c { s with port := a :: rest } = takeAction c (execOf c) a { s with port := rest } := rfl

/-- When `push DEM_IN` is a move, and its effect (R55, R56). -/
theorem pushDemIn_eq_next {v : Samples σ} :
    pushDemIn c v s = .next t ↔
      s.phase = .ready ∧ (∃ p, s.plan = some p ∧ v.length = p.block) ∧ v.all c.num.isFinite = true ∧
        t = { s with demIn := pushDropOldest c.iqDepth s.demIn v } := by
  refine ⟨pushDemIn_cases, ?_⟩
  rintro ⟨hr, ⟨p, hp, hl⟩, hf, rfl⟩
  simp only [pushDemIn, hr, hp, if_pos hl, if_pos hf]

/-- When `pop MOD_OUT` is a move, and its effect (R57). -/
theorem popOut_modOut_eq_next :
    popOut .modOut s = .next t ↔
      ∃ v rest, s.modOut = v :: rest ∧ t = { s with modOut := rest, popped := some (.samples v) } := by
  cases h : s.modOut <;> simp [popOut, popModOut, h, eq_comm]

/-- When `pop DEM_OUT` is a move, and its effect (R57). -/
theorem popOut_demOut_eq_next :
    popOut .demOut s = .next t ↔
      ∃ b rest, s.demOut = b :: rest ∧ t = { s with demOut := rest, popped := some (.bits b) } := by
  cases h : s.demOut <;> simp [popOut, popDemOut, h, eq_comm]

/-- When `pop FCS_OUT` is a move, and its effect (R57). -/
theorem popOut_fcsOut_eq_next :
    popOut .fcsOut s = .next t ↔
      ∃ b rest, s.fcsOut = b :: rest ∧ t = { s with fcsOut := rest, popped := some (.bits b) } := by
  cases h : s.fcsOut <;> simp [popOut, popFcsOut, h, eq_comm]

/-- Settles O60: the admission of the push, and the run of pushes as the last of the messages offered. -/
theorem demInKeepsTheLastBlocks : Obligations.DemInKeepsTheLastBlocks := by
  refine ⟨fun σ c s rest v => ⟨fun p hr hp hl hf => ?_, fun hbad t h => ?_⟩,
    fun σ capacity held pushed hc hh hn => ?_⟩
  · rw [stepOf_action]
    exact pushDemIn_eq_next.2 ⟨hr, ⟨p, hp, hl⟩, List.all_eq_true.2 hf, rfl⟩
  · rw [stepOf_action] at h
    obtain ⟨hr, ⟨p, hp, hl⟩, hf, -⟩ := pushDemIn_eq_next.1 h
    rcases hbad with hne | ⟨q, hq, hne⟩ | ⟨z, hz, hne⟩
    · exact hne hr
    · obtain rfl : p = q := Option.some.inj (hp.symm.trans hq)
      exact hne hl
    · exact Bool.false_ne_true (hne.symm.trans (List.all_eq_true.1 hf z hz))
  · rw [foldl_pushDropOldest hc hh, rtake_append_of_le_length held hn, List.rtake]

/-- Settles O59: the precondition of each move is exactly when it has a next state. -/
theorem hostMovesFollowTheirRules : Obligations.HostMovesFollowTheirRules := by
  intro s rest
  simp only [step_eq_stepOf, stepOf_action, ne_eq]
  refine ⟨fun b hl => pushModIn_eq_next.2 ⟨hl, rfl⟩, fun b t hl h => hl.not_gt (pushModIn_eq_next.1 h).1,
    fun b hl => pushFcsIn_eq_next.2 ⟨hl, rfl⟩, fun b t hl h => hl.not_gt (pushFcsIn_eq_next.1 h).1,
    fun m more ho => popOut_modOut_eq_next.2 ⟨m, more, ho, rfl⟩,
    fun m more ho => popOut_demOut_eq_next.2 ⟨m, more, ho, rfl⟩,
    fun m more ho => popOut_fcsOut_eq_next.2 ⟨m, more, ho, rfl⟩,
    fun t he h => ?_, fun t he h => ?_, fun t he h => ?_⟩
  · obtain ⟨m, more, ho, -⟩ := popOut_modOut_eq_next.1 h
    exact List.cons_ne_nil m more (ho.symm.trans he)
  · obtain ⟨m, more, ho, -⟩ := popOut_demOut_eq_next.1 h
    exact List.cons_ne_nil m more (ho.symm.trans he)
  · obtain ⟨m, more, ho, -⟩ := popOut_fcsOut_eq_next.1 h
    exact List.cons_ne_nil m more (ho.symm.trans he)

end Sys2Proof.Machine
end

section
/-! The CFG registers and the processing commands (`20_memory.md` R66): the guards and the works answer the same over
any contents of the registers, and so do the commands made of them. -/

namespace Sys2Proof.Machine

variable {σ : Type}

/-- `s` with other contents of the CFG registers. -/
def State.setCfg (s : State σ) (cfg : CfgFile) : State σ := { s with cfg := cfg }

@[simp] theorem State.setCfg_phase (s : State σ) (cfg : CfgFile) : (s.setCfg cfg).phase = s.phase := rfl
@[simp] theorem State.setCfg_plan (s : State σ) (cfg : CfgFile) : (s.setCfg cfg).plan = s.plan := rfl

/-- The plan guard looks at the phase and the plan only. -/
theorem withPlan_setCfg {s : State σ} {cfg : CfgFile} {work work' : Plan σ → State σ}
    (h : ∀ p, work' p = (work p).setCfg cfg) :
    withPlan (s.setCfg cfg) work' = (withPlan s work).setCfg cfg := by
  simp only [withPlan, State.setCfg_phase, State.setCfg_plan]
  cases s.phase with
  | fatal => rfl
  | unconfigured => rfl
  | ready =>
    cases s.plan with
    | none => rfl
    | some p => exact h p

/-- The FIFO checks look at their two FIFOs only. -/
theorem withHead_setCfg {α β : Type} {s : State σ} {cfg : CfgFile} (capacity : Nat) (out : List α) (input : List β)
    {work work' : β → List β → State σ} (h : ∀ head rest, work' head rest = (work head rest).setCfg cfg) :
    withHead (s.setCfg cfg) capacity out input work' = (withHead s capacity out input work).setCfg cfg := by
  unfold withHead
  split
  · rfl
  · cases input with
    | nil => rfl
    | cons head rest => exact h head rest

theorem modRunOn_setCfg (c : Impl σ) (pre : Bool) (s : State σ) (cfg : CfgFile) (p : Plan σ) (bits : Bits)
    (rest : List Bits) :
    modRunOn c pre (s.setCfg cfg) p bits rest = (modRunOn c pre s p bits rest).setCfg cfg := by
  cases bits <;> rfl

theorem demRunOn_setCfg (c : Impl σ) (s : State σ) (cfg : CfgFile) (p : Plan σ) (r : Samples σ)
    (rest : List (Samples σ)) :
    demRunOn c (s.setCfg cfg) p r rest = (demRunOn c s p r rest).setCfg cfg := by
  dsimp only [demRunOn]
  cases findWindow c.num p (detect c.num p r) r rest.head? <;> rfl

/-- `MOD.RUN` never reads the CFG registers. -/
theorem modRunOf_setCfg {c : Impl σ} {pre : Bool} {s t : State σ} (cfg : CfgFile) (h : modRunOf c pre s = .next t) :
    modRunOf c pre (s.setCfg cfg) = .next (t.setCfg cfg) := by
  cases h
  exact congrArg _ (withPlan_setCfg fun p => withHead_setCfg _ _ _ (modRunOn_setCfg c pre s cfg p))

/-- `DEM.RUN` never reads the CFG registers. -/
theorem demRunOf_setCfg {c : Impl σ} {s t : State σ} (cfg : CfgFile) (h : demRunOf c s = .next t) :
    demRunOf c (s.setCfg cfg) = .next (t.setCfg cfg) := by
  cases h
  refine congrArg _ (withPlan_setCfg fun p => ?_)
  split
  · rfl
  · exact withHead_setCfg _ _ _ (demRunOn_setCfg c s cfg p)

/-- `FCS.BUILD` never reads the CFG registers. -/
theorem fcsBuildOf_setCfg {c : Impl σ} {seq : BitVec 16} {s t : State σ} (cfg : CfgFile)
    (h : fcsBuildOf c seq s = .next t) :
    fcsBuildOf c seq (s.setCfg cfg) = .next (t.setCfg cfg) := by
  cases h
  refine congrArg _ (withPlan_setCfg fun p => withHead_setCfg _ _ _ fun payload rest => ?_)
  split <;> rfl

/-- `FCS.CHECK` never reads the CFG registers. -/
theorem fcsCheckOf_setCfg {c : Impl σ} {s t : State σ} (cfg : CfgFile) (h : fcsCheckOf c s = .next t) :
    fcsCheckOf c (s.setCfg cfg) = .next (t.setCfg cfg) := by
  cases h
  refine congrArg _ (withPlan_setCfg fun p => withHead_setCfg _ _ _ fun msg rest => ?_)
  split
  · rfl
  · split <;> rfl

/-- Settles O56: command by command. -/
theorem processingNeverReadsCfg : Obligations.ProcessingNeverReadsCfg := by
  intro i s t cfg hi h
  rw [exec_eq_execOf] at h ⊢
  cases i with
  | modRun pre => exact modRunOf_setCfg cfg h
  | demRun => exact demRunOf_setCfg cfg h
  | fcsBuild seq => exact fcsBuildOf_setCfg cfg h
  | fcsCheck => exact fcsCheckOf_setCfg cfg h
  | nop | cfgWr _ _ | planBuild | resRd _ | cntRd _ | cntClr | statRd | sreset => cases hi

end Sys2Proof.Machine
end

section
/-! The decoder on the words of the encoder, and the words that it refuses (`30_encoding.md` R83 to R90). -/

namespace Sys2Proof

theorem wellFormed_cfgWr {field : BitVec 4} {value : BitVec 24} :
    (Instr.cfgWr field value).WellFormed ↔ field.toNat < 8 := decide_eq_true_iff

theorem wellFormed_resRd {reg : BitVec 4} : (Instr.resRd reg).WellFormed ↔ reg.toNat < 6 := decide_eq_true_iff

theorem wellFormed_cntRd {cnt : BitVec 4} : (Instr.cntRd cnt).WellFormed ↔ cnt.toNat < 4 := decide_eq_true_iff

/-- A command reads back from its word exactly where its index is in use (R84, R85). -/
theorem decode_encode_eq_ok {i : Instr} : decode (encode i) = .ok i ↔ i.WellFormed := by
  cases i with
  | cfgWr field value => simp [decode, encode, wellFormed_cfgWr]
  | resRd reg => simp [decode, encode, whenIndex_eq_ok, wellFormed_resRd]
  | cntRd cnt => simp [decode, encode, whenIndex_eq_ok, wellFormed_cntRd]
  | modRun pre => cases pre <;> decide
  | fcsBuild seq =>
    have hz : (0x00#8 ++ seq).extractLsb' 16 8 = 0 := BitVec.extractLsb'_append_eq_left
    have hs : (0x00#8 ++ seq).extractLsb' 0 16 = seq := BitVec.extractLsb'_append_eq_right
    refine iff_of_true ?_ rfl
    simp [decode, encode, whenZero_eq_ok, hz, hs]
  | nop | planBuild | demRun | fcsCheck | cntClr | statRd | sreset => decide

/-- Settles O1: every command with its index in use reads back. -/
theorem decodeOfEncodeGivesTheCommand : Obligations.DecodeOfEncodeGivesTheCommand :=
  fun _ => decode_encode_eq_ok.2

/-- Settles O2: the word is that of the command it decodes to, which therefore reads back. -/
theorem encodeOfDecodeGivesTheWord : Obligations.EncodeOfDecodeGivesTheWord := by
  intro w i h
  obtain rfl := encode_of_decode h
  exact ⟨decode_encode_eq_ok.1 h, rfl⟩

/-- Behind a check that refuses where it fails, a word is refused where passing the check does not help. -/
theorem check_refused {p : Prop} [Decidable p] {r : Except Illegal Instr} {e : Illegal} :
    (if p then r else .error e).toOption = none ↔ (p → r.toOption = none) := by
  split
  · rename_i hp; simp [hp]
  · rename_i hp; exact iff_of_true rfl fun h => absurd h hp

theorem ok_refused {i : Instr} : (Except.ok i : Except Illegal Instr).toOption = none ↔ False :=
  iff_false_intro nofun

/-- A word is refused exactly where a bit that must be 0 is not. -/
theorem whenZero_refused {k : Nat} {rest : BitVec k} {i : Instr} :
    (whenZero rest i).toOption = none ↔ rest ≠ 0 := by
  rw [whenZero, check_refused, ok_refused]

/-- A word of two fields that must be 0 is refused exactly where one of them is not. -/
theorem whenZero_append_refused {k m : Nat} {a : BitVec k} {b : BitVec m} {i : Instr} :
    (whenZero (a ++ b) i).toOption = none ↔ a.toNat ≠ 0 ∨ b.toNat ≠ 0 := by
  rw [whenZero_refused, ne_eq, bitVec_append_eq_zero]
  simp [BitVec.toNat_eq, imp_iff_not_or]

/-- A read-out word is refused exactly where its index is not in use or `imm` is not 0 (R84, R51). -/
theorem whenIndex_refused {used : Nat} {sub : BitVec 4} {imm : BitVec 24} {i : Instr} :
    (whenIndex used sub imm i).toOption = none ↔ used ≤ sub.toNat ∨ imm.toNat ≠ 0 := by
  rw [whenIndex, check_refused, whenZero_refused]
  simp [BitVec.toNat_eq, imp_iff_not_or]

/-- The `sub` field of `MOD.RUN` has a bit set above `pre` exactly from 2 on (R84). -/
theorem bits_above_pre_ne_zero : ∀ sub : BitVec 4, (sub.extractLsb' 1 3).toNat ≠ 0 ↔ 2 ≤ sub.toNat := by decide

/-- The `imm` field of `FCS.BUILD` has a bit set above `seq` exactly from 65536 on (R84). -/
theorem bits_above_seq_ne_zero (imm : BitVec 24) : (imm.extractLsb' 16 8).toNat ≠ 0 ↔ 65536 ≤ imm.toNat := by
  have := imm.isLt
  rw [BitVec.extractLsb'_toNat, Nat.shiftRight_eq_div_pow]
  omega

end Sys2Proof

namespace Sys2Proof.Machine

/-- All that a refused word does (R90). -/
theorem issueWord_refused {σ : Type} {run : Instr → State σ → Result σ} {w : Word} (s : State σ)
    (h : (decode w).toOption = none) : issueWord run w s = .next (complete .illegalCommand s) := by
  cases hd : decode w with
  | ok i => rw [hd, ok_refused] at h; exact h.elim
  | error e => simp only [issueWord, hd]

/-- Settles O3: opcode by opcode the decoder's checks are the rule's fields, and a refused word only completes. -/
theorem illegalWordsAndTheirEffect : Obligations.IllegalWordsAndTheirEffect := by
  intro w s rest op sub imm illegal
  have refused : (decode w).toOption = none ↔ illegal := by
    simp only [decode, illegal, op, sub, imm]
    split <;> rename_i ho
    -- no operand
    case h_1 | h_3 | h_5 | h_7 | h_10 | h_11 | h_12 => rw [whenZero_append_refused]; simp [ho]
    -- `CFG.WR`
    case h_2 => rw [check_refused, ok_refused]; simp [ho]
    -- `MOD.RUN`
    case h_4 => rw [whenZero_append_refused, bits_above_pre_ne_zero]; simp [ho]
    -- `FCS.BUILD`
    case h_6 => rw [whenZero_append_refused, bits_above_seq_ne_zero]; simp [ho]
    -- `RES.RD`, `CNT.RD`
    case h_8 | h_9 => rw [whenIndex_refused]; simp [ho]
    -- no opcode of the map
    case h_13 =>
      have := (opField w).isLt
      refine iff_of_true rfl (.inl ?_)
      grind
  refine ⟨refused, fun h => ?_⟩
  rw [step_eq_stepOf, stepOf_action]
  exact issueWord_refused _ (refused.2 h)

end Sys2Proof.Machine
end

section
/-! The completion of each command (`60_exceptions.md` R257, `30_encoding.md` R86), for the block over every
implementation. -/

namespace Sys2Proof.Machine

variable {σ : Type} {c : Impl σ} {s t : State σ}

/-- The RES file has a value exactly for the indices in use (R51). -/
theorem resFile_read_isSome (f : ResFile σ) (reg : BitVec 4) : (f.read reg).isSome = true ↔ reg.toNat < 6 := by
  unfold ResFile.read
  split <;> simp_all
  omega

/-- The CNT file has a value exactly for the indices in use (R51). -/
theorem cntFile_read_isSome (f : CntFile) (cnt : BitVec 4) :
    (f.read cnt : Option (Value σ)).isSome = true ↔ cnt.toNat < 4 := by
  unfold CntFile.read
  split <;> simp_all
  omega

/-- `t` is what a completion with one of `codes` and the value 0 leaves. -/
def CompletedIn (codes : List Code) (t : State σ) : Prop :=
  ∃ code ∈ codes, t.last = code ∧ t.response = some ⟨code, .int 0⟩

theorem complete_completedIn {codes : List Code} {code : Code} (s : State σ)
    (h : code ∈ codes := by simp [allowedCodes]) : CompletedIn codes (complete code s) := ⟨code, h, rfl, rfl⟩

theorem modRunOn_completedIn (c : Impl σ) (pre : Bool) (s : State σ) (p : Plan σ) (bits : Bits) (rest : List Bits) :
    CompletedIn (allowedCodes (.modRun pre)) (modRunOn c pre s p bits rest) := by
  rcases modRunOn_cases c pre s p bits rest with ⟨-, e⟩ | ⟨-, e⟩ <;> rw [e] <;> exact complete_completedIn _

theorem demRunOn_completedIn (c : Impl σ) (s : State σ) (p : Plan σ) (r : Samples σ) (rest : List (Samples σ)) :
    CompletedIn (allowedCodes .demRun) (demRunOn c s p r rest) := by
  rcases demRunOn_cases c s p r rest with e | e | ⟨_, _, -, e⟩ <;> rw [e] <;> exact complete_completedIn _

/-- A command that reads nothing out completes with a code of its row and the value 0: every one of its ends, the two
exceptions among them, is a completion (R257, R86). -/
theorem execOf_completedIn {i : Instr}
    (hi : i ≠ .statRd ∧ (∀ reg, i ≠ .resRd reg) ∧ ∀ cnt, i ≠ .cntRd cnt) (h : execOf c i s = .next t) :
    CompletedIn (allowedCodes i) t := by
  obtain ⟨hstat, hres, hcnt⟩ := hi
  cases i with
  | nop => cases h; exact complete_completedIn s
  | cfgWr field value => rcases execCfgWr_cases h with rfl | rfl | ⟨-, -, rfl⟩ <;> exact complete_completedIn _
  | planBuild =>
    rcases planBuildOf_cases h with rfl | rfl | ⟨-, rfl⟩ | ⟨-, _, -, -, rfl⟩ <;> exact complete_completedIn _
  | modRun pre =>
    rcases modRunOf_cases h with ⟨-, rfl⟩ | ⟨-, rfl⟩ | rfl | ⟨-, -, p, bits, rest, -, -, rfl⟩
    · exact complete_completedIn s
    · exact complete_completedIn _
    · exact complete_completedIn s
    · exact modRunOn_completedIn c pre s p bits rest
  | demRun =>
    rcases demRunOf_cases h with ⟨-, rfl⟩ | ⟨-, rfl⟩ | rfl | ⟨-, -, p, r, rest, -, -, rfl⟩
    · exact complete_completedIn s
    · exact complete_completedIn _
    · exact complete_completedIn s
    · exact demRunOn_completedIn c s p r rest
  | fcsBuild seq =>
    rcases fcsBuildOf_cases h with ⟨-, rfl⟩ | ⟨-, rfl⟩ | rfl | ⟨-, -, _, _, _, -, -, -, rfl⟩ <;>
      exact complete_completedIn _
  | fcsCheck =>
    rcases fcsCheckOf_cases h with
      ⟨-, rfl⟩ | ⟨-, rfl⟩ | rfl | ⟨-, -, _, _, _, -, -, -, ⟨-, rfl⟩ | ⟨-, rfl⟩⟩ <;> exact complete_completedIn _
  | resRd reg => exact absurd rfl (hres reg)
  | cntRd cnt => exact absurd rfl (hcnt cnt)
  | cntClr => rcases execCntClr_cases h with ⟨-, rfl⟩ | ⟨-, rfl⟩ <;> exact complete_completedIn _
  | statRd => exact absurd rfl hstat
  | sreset => cases h; exact complete_completedIn _

/-- A read-out answers OK where it has a value, which it has for an index `used`, and else completes ILLEGAL_COMMAND
with the value 0 (R51, R86). -/
theorem readOut_answer {value : Option (Value σ)} {used : Prop} (hv : value.isSome = true ↔ used) (s : State σ) :
    ∃ code v, (readOut value s).response = some ⟨code, v⟩ ∧ (readOut value s).last = code ∧
      code ∈ [.ok, .illegalCommand] ∧ (used → code = .ok) ∧ (code ≠ .ok → v = .int 0) := by
  cases value with
  | none => exact ⟨.illegalCommand, .int 0, rfl, rfl, by decide, fun hu => by simpa using hv.2 hu, fun _ => rfl⟩
  | some v => exact ⟨.ok, v, rfl, rfl, by decide, fun _ => rfl, fun hne => absurd rfl hne⟩

/-- Settles O53: the three commands that read out, and all others by their completion. -/
theorem codesPerCommand : Obligations.CodesPerCommand := by
  intro i s t h
  rw [exec_eq_execOf] at h
  cases i with
  | statRd => cases h; exact ⟨.ok, _, rfl, by decide, by simp, by simp, by simp⟩
  | resRd reg =>
    cases h
    obtain ⟨code, v, hr, hl, hm, hok, hz⟩ :=
      readOut_answer ((resFile_read_isSome s.res reg).trans wellFormed_resRd.symm) s
    exact ⟨code, v, hr, hm, fun hw => ⟨fun _ _ => hok hw, fun _ _ => hok hw⟩, fun _ => hl, by simpa using hz⟩
  | cntRd cnt =>
    cases h
    obtain ⟨code, v, hr, hl, hm, hok, hz⟩ :=
      readOut_answer ((cntFile_read_isSome s.cnt cnt).trans wellFormed_cntRd.symm) s
    exact ⟨code, v, hr, hm, fun hw => ⟨fun _ _ => hok hw, fun _ _ => hok hw⟩, fun _ => hl, by simpa using hz⟩
  | nop | cfgWr _ _ | planBuild | modRun _ | demRun | fcsBuild _ | fcsCheck | cntClr | sreset =>
    obtain ⟨code, hm, hl, hr⟩ := execOf_completedIn (by simp) h
    exact ⟨code, .int 0, hr, hm, by simp, fun _ => hl, fun _ => rfl⟩

end Sys2Proof.Machine
end

section
/-! The configuration registers, `CFG.WR` and `PLAN.BUILD` (`40_plan_config.md` R100, R102, `10_state.md` R24 to R26). -/

namespace Sys2Proof

/-- A slice of a tabulated vector is the tabulated vector of its indices. -/
theorem slice_tabulate {α : Type} {k a b : Nat} (f : Nat → α) (h : b ≤ k) :
    slice (tabulate k f) a b = tabulate (b - a) fun t => f (a + t) := by
  refine List.ext_getElem ?_ fun i _ _ => ?_
  · rw [slice_length_of_le _ (by simpa using h), tabulate_length]
  · simp [slice, tabulate]

end Sys2Proof

namespace Sys2Proof.Machine

section Registers

/-- The eight registers in the order of their indices (R24). -/
def CfgFile.registers (f : CfgFile) : List (Option (BitVec 24)) :=
  [f.n, f.cplen, f.qam, f.pilot, f.nsym, f.payload, f.arq, f.block]

@[simp] theorem CfgFile.registers_length (f : CfgFile) : f.registers.length = 8 := rfl

/-- A read takes the register at the index. -/
theorem CfgFile.read_eq_getD (f : CfgFile) (field : BitVec 4) : f.read field = f.registers.getD field.toNat none := by
  unfold CfgFile.read
  split <;> rename_i h
  case h_9 => rw [List.getD_eq_default _ _ (by rw [registers_length]; grind)]
  all_goals rw [h]; rfl

/-- A write sets the register at the index. -/
theorem CfgFile.registers_write (f : CfgFile) (field : BitVec 4) (value : BitVec 24) :
    (f.write field value).registers = f.registers.set field.toNat (some value) := by
  unfold CfgFile.write
  split <;> rename_i h
  case h_9 => rw [List.set_eq_of_length_le (by rw [registers_length]; grind)]
  all_goals rw [h]; rfl

theorem CfgFile.read_write_same (f : CfgFile) {field : BitVec 4} (value : BitVec 24) (h : field.toNat < 8) :
    (f.write field value).read field = some value := by
  simp [read_eq_getD, registers_write, h]

theorem CfgFile.read_write_of_ne (f : CfgFile) {field other : BitVec 4} (value : BitVec 24) (h : other ≠ field) :
    (f.write field value).read other = f.read other := by
  have hne : field.toNat ≠ other.toNat := fun e => h (BitVec.eq_of_toNat_eq e.symm)
  simp [read_eq_getD, registers_write, hne]

/-- One register UNWRITTEN is enough to have no configuration (R25). -/
theorem cfgValues_eq_none {f : CfgFile} {field : BitVec 4} (h : field.toNat < 8) (hr : f.read field = none) :
    cfgValues f = none := by
  have hmem : none ∈ f.registers := by
    rw [← hr, CfgFile.read_eq_getD, List.getD_eq_getElem _ _ h]
    exact List.getElem_mem _
  unfold cfgValues
  split
  · simp [CfgFile.registers, *] at hmem
  · rfl

end Registers

section Guard

variable {σ : Type} {s : State σ} (work : State σ)

theorem whileUnconfigured_of_fatal (h : s.phase = .fatal) : whileUnconfigured s work = complete .configError s := by
  rw [whileUnconfigured, h]

theorem whileUnconfigured_of_ready (h : s.phase = .ready) : whileUnconfigured s work = complete .illegalCommand s := by
  rw [whileUnconfigured, h]

theorem whileUnconfigured_of_unconfigured (h : s.phase = .unconfigured) : whileUnconfigured s work = work := by
  rw [whileUnconfigured, h]

end Guard

/-- Settles O13: the index is checked first, then the phase, and the write sets one of the eight registers. -/
theorem cfgWrFollowsItsRule : Obligations.CfgWrFollowsItsRule := by
  intro field value s
  have used (h : field.toNat < 8) : exec (.cfgWr field value) s =
      .next (whileUnconfigured s (complete .ok { s with cfg := s.cfg.write field value })) :=
    congrArg _ (if_pos h)
  refine ⟨fun h => congrArg _ (if_neg h.not_gt), fun h hp => ?_, fun h hp => ?_, fun h hp => ?_⟩
  · rw [used h, whileUnconfigured_of_fatal _ hp]; rfl
  · rw [used h, whileUnconfigured_of_ready _ hp]; rfl
  · rw [used h, whileUnconfigured_of_unconfigured _ hp]
    exact ⟨_, rfl, s.cfg.read_write_same value h, fun f hf => s.cfg.read_write_of_ne value hf⟩

section PlanBuild

variable {σ : Type} {c : Impl σ} {s : State σ}

/-- The preamble written out (R108). -/
theorem preambleOf_eq (rom : Rom σ) {cpLen : Nat} (h : cpLen ≤ 32) :
    preambleOf rom cpLen = rep (tabulate 16 rom.sts16) 10 ++
      tabulate (2 * cpLen) (fun t => rom.ltsT (64 - 2 * cpLen + t)) ++ tabulate 64 rom.ltsT ++ tabulate 64 rom.ltsT := by
  rw [preambleOf, longSectionOf, slice_tabulate _ le_rfl, show 64 - (64 - 2 * cpLen) = 2 * cpLen by omega]
  simp only [List.append_assoc]

theorem mem_activeOf {n : Num σ} {rom : Rom σ} {k : Nat} (hk : k < 64) :
    k ∈ activeOf n rom ↔ n.isZero (rom.tref k) = false := by
  simp [activeOf, hk]

theorem planBuildOf_of_unwritten (hp : s.phase = .unconfigured) (hc : cfgValues s.cfg = none) :
    planBuildOf c s = .next (raiseConfigError s) := by
  rw [planBuildOf, whileUnconfigured_of_unconfigured _ hp, hc]

theorem planBuildOf_of_written {v : CfgValues} (hp : s.phase = .unconfigured) (hc : cfgValues s.cfg = some v) :
    planBuildOf c s = .next (if cfgLegal c.qmax v then
      complete .ok { s with plan := some (buildPlan c.num c.rom v), phase := .ready } else raiseConfigError s) := by
  rw [planBuildOf, whileUnconfigured_of_unconfigured _ hp, hc]

end PlanBuild

/-- Settles O14: the phase is checked first, then that every register is written, then that the values are legal; the
plan of legal values is sound and its other fields are read off. -/
theorem planBuildFollowsItsRule : Obligations.PlanBuildFollowsItsRule := by
  intro s
  refine ⟨fun hp => congrArg _ (whileUnconfigured_of_fatal _ hp),
    fun hp => congrArg _ (whileUnconfigured_of_ready _ hp),
    fun hp ⟨f, hf, hr⟩ => planBuildOf_of_unwritten hp (cfgValues_eq_none hf hr), ?_⟩
  intro hp n cplen qam pilot nsym payload arq block hcfg v
  have hc : cfgValues s.cfg = some v := by rw [hcfg]; rfl
  have built : exec .planBuild s = _ := planBuildOf_of_written hp hc
  refine ⟨fun hv => built.trans (congrArg _ (if_neg (mt (cfgLegal_iff _ v).1 hv))), fun hv => ?_⟩
  have hl := (cfgLegal_iff _ v).2 hv
  obtain ⟨-, -, hcp, -⟩ := hv
  exact ⟨_, built.trans (congrArg _ (if_pos hl)), built_plan_sound hc hl, rfl, rfl, rfl, rfl, rfl, rfl, rfl,
    preambleOf_eq Config.rom hcp, fun k hk => mem_activeOf hk⟩

end Sys2Proof.Machine
end

section
/-! The serpentine Gray table (`40_plan_config.md` R111) and its inverse, the QAM demapper (`42_demodulator.md` R201). -/

namespace Sys2Proof.Machine

section Gray

/-- The high bits of a Gray word are the Gray word of the high bits. -/
theorem gray_shiftRight_one (i : Nat) : gray i >>> 1 = gray (i >>> 1) := by
  rw [gray, gray, Nat.shiftRight_xor_distrib]

/-- A Gray word with the high bits of its index gives the index. -/
theorem gray_xor_shiftRight_one (i : Nat) : gray i ^^^ (i >>> 1) = i := Nat.xor_xor_cancel_right ..

theorem gray_eq_zero {i : Nat} (h : gray i = 0) : i = 0 := by
  have hi : i = i >>> 1 := Nat.xor_eq_zero_iff.1 h
  rw [Nat.shiftRight_one] at hi
  omega

/-- The high bits of two indices with one Gray word have one Gray word too, and with it they give the indices. -/
theorem gray_injective : Function.Injective gray := by
  intro i
  induction i using Nat.strong_induction_on with
  | _ i ih =>
    intro j h
    rcases Nat.eq_zero_or_pos i with rfl | hi
    · exact (gray_eq_zero h.symm).symm
    · have hhigh : i >>> 1 = j >>> 1 :=
        ih _ (by rw [Nat.shiftRight_one]; omega) (by rw [← gray_shiftRight_one, h, gray_shiftRight_one])
      rw [← gray_xor_shiftRight_one i, h, hhigh, gray_xor_shiftRight_one]

theorem gray_lt_two_pow {i k : Nat} (h : i < 2 ^ k) : gray i < 2 ^ k :=
  Nat.xor_lt_two_pow h ((Nat.shiftRight_le i 1).trans_lt h)

theorem gray_lt_four_pow {i q : Nat} (h : i < 4 ^ q) : gray i < 4 ^ q := by
  have e : 4 ^ q = 2 ^ (2 * q) := by rw [Nat.pow_mul]
  rw [e] at h ⊢
  exact gray_lt_two_pow h

/-- Every index of the table is the Gray word of a cell. -/
theorem exists_gray_eq {g q : Nat} (h : g < 4 ^ q) : ∃ i < 4 ^ q, gray i = g := by
  have hmaps : Set.MapsTo gray (Finset.range (4 ^ q)) (Finset.range (4 ^ q)) := fun i hi => by
    simpa using gray_lt_four_pow (by simpa using hi)
  simpa using Finset.surjOn_of_injOn_of_card_le gray hmaps gray_injective.injOn le_rfl
    (Finset.mem_coe.2 (Finset.mem_range.2 h))

end Gray

section Table

variable {σ : Type}

theorem foldl_set_length {α ι : Type} (pos : ι → Nat) (entry : ι → α) (l : List ι) (table : List α) :
    (l.foldl (fun table i => table.set (pos i) (entry i)) table).length = table.length := by
  induction l generalizing table with
  | nil => rfl
  | cons i l ih => rw [List.foldl_cons, ih, List.length_set]

/-- Entries written one after another at different positions all stay. -/
theorem foldl_set_getElem? {α : Type} {pos : Nat → Nat} (hpos : Function.Injective pos) (entry : Nat → α)
    (table : List α) {i k : Nat} (hi : i < k) (hlen : pos i < table.length) :
    ((List.range k).foldl (fun table i => table.set (pos i) (entry i)) table)[pos i]? = some (entry i) := by
  induction k with
  | zero => omega
  | succ k ih =>
    rw [List.range_succ, List.foldl_concat]
    by_cases h : i = k
    · rw [h, List.getElem?_set_self (by rwa [foldl_set_length, ← h])]
    · rw [List.getElem?_set_ne fun e => h (hpos e).symm, ih (by omega)]

/-- The table of `4^q` points is that of a grid of side `2^q` (R109). -/
theorem constellation_four_pow (n : Num σ) {q : Nat} (hq : 1 ≤ q) :
    constellation n (4 ^ q) = qamTable n (4 ^ q) (2 ^ q) := by
  have hne : 4 ^ q ≠ 2 := by
    have : 4 ^ 1 ≤ 4 ^ q := Nat.pow_le_pow_right (by decide) hq
    omega
  rw [constellation, if_neg hne, bitsPerSymbol_pow hq, Nat.mul_div_cancel_left _ (by decide)]

/-- The entry at the `i`-th Gray word is the `i`-th cell of the traversal (R111). -/
theorem constellation_gray (n : Num σ) {q i : Nat} (hq : 1 ≤ q) (hi : i < 4 ^ q) :
    (constellation n (4 ^ q))[gray i]? = some (gridPoint n (2 ^ q) i) := by
  rw [constellation_four_pow n hq]
  exact foldl_set_getElem? gray_injective _ _ hi (by simpa using gray_lt_four_pow hi)

/-- Settles O17: the entries of the table are written at different places, the Gray words. -/
theorem constellationFollowsTheTraversal : Obligations.ConstellationFollowsTheTraversal :=
  fun _ n => ⟨rfl, fun _ hq => ⟨constellation_length n _, fun _ hi => constellation_gray n hq hi⟩⟩

end Table

section Grid

variable {σ : Type}

/-- The column of the `i`-th cell of the traversal (R111). -/
def gridColumn (s i : Nat) : Nat := if i / s % 2 = 0 then i % s else s - 1 - i % s

/-- A coordinate on the normalised grid (R111). -/
def gridAxis (n : Num σ) (s x : Nat) : σ := n.div (n.int (2 * (x : Int) - ((s : Int) - 1))) (n.int ((s : Int) - 1))

theorem gridPoint_eq (n : Num σ) (s i : Nat) :
    gridPoint n s i = ⟨gridAxis n s (gridColumn s i), gridAxis n s (i / s)⟩ := rfl

theorem realNum_gridAxis (s x : Nat) : gridAxis realNum s x = (2 * x - (s - 1)) / (s - 1) := by
  simp [gridAxis]

theorem gridAxis_injective {s : Nat} (hs : 2 ≤ s) : Function.Injective (gridAxis realNum s) := by
  intro x y h
  have hs' : (2 : ℝ) ≤ s := by exact_mod_cast hs
  rw [realNum_gridAxis, realNum_gridAxis, div_left_inj' (by linarith)] at h
  exact_mod_cast (by linarith : (x : ℝ) = y)

/-- A cell is its row and its column. -/
theorem cell_eq {s i j : Nat} (hs : 0 < s) (hr : i / s = j / s) (hc : gridColumn s i = gridColumn s j) : i = j := by
  have hi := Nat.mod_lt i hs
  have hj := Nat.mod_lt j hs
  have hm : i % s = j % s := by
    rw [gridColumn, gridColumn, hr] at hc
    split at hc <;> omega
  rw [← Nat.div_add_mod i s, ← Nat.div_add_mod j s, hr, hm]

theorem gridPoint_injective {s : Nat} (hs : 2 ≤ s) : Function.Injective (gridPoint realNum s) := by
  intro i j h
  rw [gridPoint_eq, gridPoint_eq, Cx.mk.injEq] at h
  obtain ⟨hc, hr⟩ := h
  exact cell_eq (by omega) (gridAxis_injective hs hr) (gridAxis_injective hs hc)

theorem at_constellation_gray (n : Num σ) {q i : Nat} (hq : 1 ≤ q) (hi : i < 4 ^ q) :
    n.at (constellation n (4 ^ q)) (gray i) = gridPoint n (2 ^ q) i := by
  rw [Num.at, List.getD, constellation_gray n hq hi, Option.getD_some]

/-- The points of the table are distinct. -/
theorem constellation_points_distinct {q : Nat} (hq : 1 ≤ q) {g g' : Nat} (hg : g < 4 ^ q) (hg' : g' < 4 ^ q)
    (h : realNum.at (constellation realNum (4 ^ q)) g = realNum.at (constellation realNum (4 ^ q)) g') : g = g' := by
  obtain ⟨i, hi, rfl⟩ := exists_gray_eq hg
  obtain ⟨j, hj, rfl⟩ := exists_gray_eq hg'
  rw [at_constellation_gray _ hq hi, at_constellation_gray _ hq hj] at h
  rw [gridPoint_injective (Nat.le_self_pow (by omega) 2) h]

end Grid

section Demapper

/-- The indices that attain the least distance (R201). -/
theorem mem_nearestSet {σ : Type} {n : Num σ} {table : List (Cx σ)} {z : Cx σ} {q : Nat} :
    q ∈ nearestSet n table z ↔ q < table.length ∧ ∀ q' < table.length,
      ¬ n.Lt (n.normSq (n.csub z (n.at table q'))) (n.normSq (n.csub z (n.at table q))) := by
  simp [nearestSet]

theorem nearestSet_nodup {σ : Type} (n : Num σ) (table : List (Cx σ)) (z : Cx σ) : (nearestSet n table z).Nodup :=
  List.nodup_range.filter _

/-- In exact arithmetic a point is nearer to itself than to any other. -/
theorem realNum_self_lt_dist_iff (a b : Cx ℝ) :
    realNum.Lt (realNum.normSq (realNum.csub a a)) (realNum.normSq (realNum.csub a b)) ↔ a ≠ b := by
  simp [Complex.normSq_pos, sub_eq_zero, Cx.toComplex_injective.eq_iff]

theorem realNum_not_dist_lt_self (a b : Cx ℝ) :
    ¬ realNum.Lt (realNum.normSq (realNum.csub a b)) (realNum.normSq (realNum.csub a a)) := by
  simp [Complex.normSq_nonneg]

/-- In exact arithmetic a point that stands once in a table is nearest to itself alone. -/
theorem nearestSet_at {table : List (Cx ℝ)} {idx : Nat} (hidx : idx < table.length)
    (honce : ∀ q < table.length, realNum.at table idx = realNum.at table q → idx = q) :
    nearestSet realNum table (realNum.at table idx) = [idx] := by
  rw [← List.perm_singleton, List.perm_ext_iff_of_nodup (nearestSet_nodup _ _ _) (List.nodup_singleton idx)]
  intro q
  rw [mem_nearestSet, List.mem_singleton]
  constructor
  · rintro ⟨hq, hleast⟩
    have heq := hleast idx hidx
    rw [realNum_self_lt_dist_iff, not_not] at heq
    exact (honce q hq heq).symm
  · rintro rfl
    exact ⟨hidx, fun q' _ => realNum_not_dist_lt_self _ _⟩

/-- Settles O39: the points of the table are distinct, so each is nearest to itself alone and nothing is drawn. -/
theorem demapperInvertsTheMapper : Obligations.DemapperInvertsTheMapper := by
  intro q hq idx hidx draw table
  have hl : table.length = 4 ^ q := constellation_length realNum _
  have hn : nearestSet realNum table (realNum.at table idx) = [idx] :=
    nearestSet_at (by rwa [hl]) fun g hg h => constellation_points_distinct hq hidx (by rwa [← hl]) h
  simp [demapIndex, hn, Nat.mod_one]

end Demapper

end Sys2Proof.Machine
end

section
/-! `qam_map` (`40_plan_config.md` R113): the groups of bits and the points they select. -/

namespace Sys2Proof

/-- A bit after the end of a number doubles it and stands last (R12). -/
theorem toInt_concat (b : Bits) (bit : Bool) : toInt (b ++ [bit]) = 2 * toInt b + bit.toNat := by
  rw [toInt, List.foldl_concat]; rfl

/-- `toint` as the sum of R113. -/
theorem toInt_eq_sum (b : Bits) :
    toInt b = ∑ t ∈ Finset.range b.length, (b.getD t false).toNat * 2 ^ (b.length - 1 - t) := by
  induction b using List.reverseRecOn with
  | nil => rfl
  | append_singleton b bit ih =>
    have head : ∀ t ∈ Finset.range b.length, ((b ++ [bit]).getD t false).toNat * 2 ^ (b.length - t) =
        2 * ((b.getD t false).toNat * 2 ^ (b.length - 1 - t)) := fun t ht => by
      have ht := Finset.mem_range.1 ht
      rw [List.getD_append _ _ _ _ ht, show b.length - t = b.length - 1 - t + 1 by omega, pow_succ]
      ring
    rw [toInt_concat, List.length_append, List.length_singleton, Finset.sum_range_succ, Nat.add_sub_cancel,
      Finset.sum_congr rfl head, ← Finset.mul_sum, ← ih]
    simp

/-- The bits past the end are 0, those of the padding among them. -/
theorem padTo_getD (k : Nat) (b : Bits) (i : Nat) : (padTo k b).getD i false = b.getD i false := by
  rcases lt_or_ge i b.length with h | h
  · rw [padTo, List.getD_append _ _ _ _ h]
  · rw [padTo, List.getD_append_right _ _ _ _ h, List.getD_eq_default _ _ h, List.getD,
      List.getElem?_getD_replicate_default_eq]

/-- The padded length is that of the groups it takes, the last one whole. -/
theorem padTo_length_eq {k : Nat} (b : Bits) (hk : 0 < k) :
    (padTo k b).length = (b.length + k - 1) / k * k := by
  obtain ⟨groups, hg⟩ := Nat.dvd_of_mod_eq_zero (padTo_length_mod k b hk)
  have hl := padTo_length k b
  have hpad : (k - b.length % k) % k < k := Nat.mod_lt _ hk
  rw [mul_comm] at hg
  rw [hg, Nat.div_eq_of_lt_le (by omega : groups * k ≤ _) (by rw [Nat.succ_mul]; omega)]

/-- A group of bits of a padded vector, as the sum of R113. -/
theorem toInt_slice_padTo {k u : Nat} (b : Bits) (hk : 0 < k) (hu : u < (b.length + k - 1) / k) :
    toInt (slice (padTo k b) (u * k) ((u + 1) * k)) =
      ∑ t ∈ Finset.range k, (b.getD (u * k + t) false).toNat * 2 ^ (k - 1 - t) := by
  have hwidth : (u + 1) * k - u * k = k := by rw [← Nat.sub_mul, Nat.add_sub_cancel_left, Nat.one_mul]
  have hend : (u + 1) * k ≤ (padTo k b).length := by rw [padTo_length_eq b hk]; exact Nat.mul_le_mul_right k hu
  rw [toInt_eq_sum, slice_length_of_le _ hend, hwidth]
  refine Finset.sum_congr rfl fun t ht => ?_
  rw [slice_getD _ _ (by rwa [hwidth, ← Finset.mem_range]), padTo_getD]

end Sys2Proof

namespace Sys2Proof.Machine

variable {σ : Type}

theorem qamMap_length (n : Num σ) (p : Plan σ) (bits : Bits) (hb : 1 ≤ p.bps) :
    (qamMap n p bits).length = (bits.length + p.bps - 1) / p.bps := by
  rw [qamMap, tabulate_length, padTo_length_eq bits hb, Nat.mul_div_cancel _ hb]

/-- The points of `qam_map` (R113). -/
theorem at_qamMap (n : Num σ) (p : Plan σ) (bits : Bits) (hb : 1 ≤ p.bps) {u : Nat}
    (hu : u < (bits.length + p.bps - 1) / p.bps) :
    n.at (qamMap n p bits) u = n.at p.table
      (∑ t ∈ Finset.range p.bps, (bits.getD (u * p.bps + t) false).toNat * 2 ^ (p.bps - 1 - t)) := by
  rw [← toInt_slice_padTo bits hb hu]
  exact at_tabulate n _ _ (by rwa [padTo_length_eq bits hb, Nat.mul_div_cancel _ hb])

/-- The BPSK table at a bit (R110). -/
theorem at_bpskTable (n : Num σ) (bit : Bool) :
    n.at (bpskTable n) bit.toNat = ⟨n.int (2 * (bit.toNat : Int) - 1), n.zero⟩ := by
  cases bit <;> rfl

/-- Settles O19: group by group, and for one bit per group the bit alone is the index. -/
theorem qamMapGroupsTheBits : Obligations.QamMapGroupsTheBits := by
  refine fun σ n p bits hb => ⟨qamMap_length n p bits hb, fun u hu => ⟨at_qamMap n p bits hb hu, fun h1 ht => ?_⟩⟩
  rw [at_qamMap n p bits hb hu, h1, ht, ← bpskTable, ← at_bpskTable]
  simp

end Sys2Proof.Machine
end

section
/-! `MOD.RUN` (`41_modulator.md` R130): the answers of the two guards case by case, and the work on a message. -/

namespace Sys2Proof.Machine

section Guards

variable {σ : Type} {s : State σ}

theorem withPlan_of_fatal (work : Plan σ → State σ) (h : s.phase = .fatal) :
    withPlan s work = complete .configError s := by
  rw [withPlan, h]

theorem withPlan_of_unconfigured (work : Plan σ → State σ) (h : s.phase = .unconfigured) :
    withPlan s work = raiseConfigError s := by
  rw [withPlan, h]

/-- A full output or an empty input ends the command with `BUFFER` (R256). -/
theorem withHead_of_full_or_empty {α β : Type} {capacity : Nat} {out : List α} {input : List β}
    (work : β → List β → State σ) (h : capacity ≤ out.length ∨ input = []) :
    withHead s capacity out input work = complete .buffer s := by
  rcases withHead_cases s capacity out input work with ⟨-, e⟩ | ⟨ho, head, rest, hi, -⟩
  · exact e
  · simp [hi, Nat.not_le.mpr ho] at h

end Guards

/-- Settles O20: the plan guard decides by the phase, the FIFO guard by output and input, and the work on the popped
message by whether it is empty. -/
theorem modRunFollowsItsRule : Obligations.ModRunFollowsItsRule := by
  refine fun pre s => ⟨fun h => congrArg _ (withPlan_of_fatal _ h),
    fun h => congrArg _ (withPlan_of_unconfigured _ h), fun p hr hp => ?_⟩
  have guarded : exec (.modRun pre) s = .next
      (withHead s Config.depthModOut s.modOut s.modIn (modRunOn Config.impl pre s p)) :=
    congrArg _ (withPlan_ready _ hr hp)
  refine ⟨fun h => guarded.trans (congrArg _ (withHead_of_full_or_empty _ h)), fun bits rest ho hi => ?_⟩
  rw [guarded, withHead_cons _ ho hi]
  rcases modRunOn_cases Config.impl pre s p bits rest with ⟨hb, e⟩ | ⟨hb, e⟩ <;> rw [e]
  · exact ⟨fun _ => rfl, fun h => absurd hb h⟩
  · exact ⟨fun h => absurd h hb, fun _ => rfl⟩

end Sys2Proof.Machine
end

section
/-! Symbol assembly (`41_modulator.md` R134): the three kinds of subcarrier on a sound plan. -/

namespace Sys2Proof.Machine

variable {σ : Type} (n : Num σ) (rom : Rom σ) {p : Plan σ} (points : List (Cx σ)) (i : Nat)

/-- A pilot carries the reference. -/
theorem assemble_pilot {k : Nat} (hk : k ∈ p.pilot) : assemble n rom p points i k = rom.tref k :=
  if_pos (List.contains_iff_mem.2 hk)

/-- A data subcarrier carries the point of its ordinal. -/
theorem assemble_data {k t : Nat} (hp : k ∉ p.pilot) (ht : p.data.idxOf? k = some t) :
    assemble n rom p points i k = n.at points (i * p.dataCount + t) := by
  rw [assemble, if_neg (mt List.contains_iff_mem.1 hp), ht]

/-- A subcarrier of neither kind carries 0. -/
theorem assemble_null {k : Nat} (hp : k ∉ p.pilot) (hd : k ∉ p.data) : assemble n rom p points i k = n.czero := by
  rw [assemble, if_neg (mt List.contains_iff_mem.1 hp), List.idxOf?_eq_none_iff.2 hd]

/-- The ordinal of each data subcarrier, none of which is a pilot (R75). -/
theorem dataIndices_ordinal : ∀ t < 48, dataIndices.getD t 0 ∉ [7, 21, 43, 57] ∧
    dataIndices.idxOf? (dataIndices.getD t 0) = some t := by
  decide

/-- A null subcarrier is neither a pilot nor a data subcarrier (R75). -/
theorem nullIndices_disjoint : ∀ k ∈ nullIndices, k ∉ [7, 21, 43, 57] ∧ k ∉ dataIndices := by
  decide

/-- Settles O22: the sets of a sound plan are those of R75, and a point past the last reads as 0. -/
theorem symbolAssemblyPlacesPilotsAndData : Obligations.SymbolAssemblyPlacesPilotsAndData := by
  intro σ n rom p points i hs
  refine ⟨fun k hk => assemble_pilot n rom points i (by rwa [hs.pilot_eq]), fun t ht => ?_, fun k hk => ?_⟩
  · obtain ⟨hpilot, hord⟩ := dataIndices_ordinal t ht
    rw [assemble_data n rom points i (by rwa [hs.pilot_eq]) (by rwa [hs.data_eq]), hs.dataCount_eq]
    split_ifs with h
    · rfl
    · exact at_of_ge n points (Nat.le_of_not_lt h)
  · obtain ⟨hpilot, hdata⟩ := nullIndices_disjoint k hk
    exact assemble_null n rom points i (by rwa [hs.pilot_eq]) (by rwa [hs.data_eq])

end Sys2Proof.Machine
end

section
/-! The samples of a frame (`41_modulator.md` R131 to R138): the symbols in order behind the preamble. -/

namespace Sys2Proof

variable {α : Type}

theorem concatMap_succ (k : Nat) (f : Nat → List α) : concatMap (k + 1) f = concatMap k f ++ f k := by
  simp [concatMap, tabulate, List.range_succ]

/-- Among blocks of one length, entry `t` of block `i` stands at `i * c + t`. -/
theorem concatMap_getD {k c : Nat} {f : Nat → List α} (h : ∀ i < k, (f i).length = c) (d : α) {i t : Nat} (hi : i < k)
    (ht : t < c) : (concatMap k f).getD (i * c + t) d = (f i).getD t d := by
  induction k with
  | zero => exact absurd hi (Nat.not_lt_zero i)
  | succ k ih =>
    have hk : ∀ i < k, (f i).length = c := fun i hi => h i (Nat.lt_succ_of_lt hi)
    have hl : (concatMap k f).length = k * c := concatMap_length_of k c f hk
    rw [concatMap_succ]
    rcases Nat.lt_succ_iff_lt_or_eq.1 hi with hlt | rfl
    · have hend : (i + 1) * c ≤ k * c := Nat.mul_le_mul_right c hlt
      rw [Nat.succ_mul] at hend
      rw [List.getD_append _ _ _ _ (by omega), ih hk hlt]
    · rw [List.getD_append_right _ _ _ _ (by omega), hl, Nat.add_sub_cancel_left]

end Sys2Proof

namespace Sys2Proof.Machine

variable {σ : Type}

/-- Sample `t` of a symbol is sample `(t - cpLen) mod 64` of its body (R136). -/
theorem at_symbolSamples (n : Num σ) {p : Plan σ} (X : Nat → Cx σ) {t : Nat} (hc : p.cpLen ≤ 32)
    (ht : t < 64 + p.cpLen) : n.at (symbolSamples n p X) t = n.ifft X ((t + 64 - p.cpLen) % 64) := by
  have hl : (slice (tabulate 64 (n.ifft X)) (64 - p.cpLen) 64).length = p.cpLen := by
    rw [slice_length_of_le _ (by simp)]; omega
  rw [Num.at, symbolSamples]
  rcases Nat.lt_or_ge t p.cpLen with h | h
  · rw [List.getD_append _ _ _ _ (by omega), slice_getD _ _ (by omega), tabulate_getD _ _ _ (by omega)]
    congr 1; omega
  · rw [List.getD_append_right _ _ _ _ (by omega), hl, tabulate_getD _ _ _ (by omega)]
    congr 1; omega

/-- A frame is the preamble, if asked for, and then the symbols (R138). -/
theorem modulate_frame (n : Num σ) (rom : Rom σ) (p : Plan σ) (bits : Bits) (pre : Bool) :
    (modulate n rom p bits pre).frame = (if pre then p.preamble else []) ++
      concatMap (modulate n rom p bits pre).symbols fun i =>
        symbolSamples n p (assemble n rom p (modPoints n p bits) i) := by
  cases pre <;> rfl

/-- Settles O21: a sample of the frame lies in the preamble or at an offset of one of the symbols, all of one length. -/
theorem frameSamplesFollowTheStages : Obligations.FrameSamplesFollowTheStages := by
  intro σ n rom p bits pre hs padded points symbols head out
  have hpoints : modPoints n p bits = points := by rw [modPoints, hs.dataCount_eq]; rfl
  have hsymbols : out.symbols = symbols := by
    show symbolsNeeded p (modPoints n p bits).length = symbols
    rw [hpoints, symbolsNeeded, hs.dataCount_eq]; rfl
  have hhead : (if pre then p.preamble else []).length = head := by
    cases pre
    · rfl
    · exact hs.preamble_length
  have hframe := modulate_frame n rom p bits pre
  rw [hsymbols, hpoints] at hframe
  refine ⟨hsymbols, ?_, fun j hj => ?_, fun i hi t ht => ?_⟩
  · rw [modulate_length n rom p bits pre hs.cpLen_le, hsymbols, hs.preamble_length]
  · cases pre
    · exact absurd hj (Nat.not_lt_zero j)
    · rw [hframe]; exact List.getD_append _ _ _ _ (by omega)
  · rw [hframe, Num.at, List.getD_append_right _ _ _ _ (by omega), hhead,
      show head + i * (64 + p.cpLen) + t - head = i * (64 + p.cpLen) + t by omega,
      concatMap_getD (fun i _ => symbolSamples_length n p _ hs.cpLen_le) _ hi ht]
    exact at_symbolSamples n _ hs.cpLen_le ht

end Sys2Proof.Machine
end

section
/-! `DEM.RUN` (`42_demodulator.md` R160, R161): what `findWindow` answers case by case, and the work for each answer. -/

namespace Sys2Proof.Machine

section Window

variable {σ : Type} {n : Num σ} {p : Plan σ} {cand : Candidate σ} {r : Samples σ} {next? : Option (Samples σ)}

/-- A peak not above the threshold is no frame (R171). -/
theorem findWindow_of_not_lt (h : ¬ n.Lt (detThreshold n) cand.peak) :
    findWindow n p cand r next? = .noFrame := if_neg h

/-- A window that ends in the block is cut from it (R174). -/
theorem findWindow_of_le (h : n.Lt (detThreshold n) cand.peak) (hend : windowStart p cand.pos + p.window ≤ p.block) :
    findWindow n p cand r next? =
      .window (slice r (windowStart p cand.pos) (windowStart p cand.pos + p.window)) 1 :=
  (if_pos h).trans (if_pos hend)

/-- A window that runs over needs the next block (R175). -/
theorem findWindow_none_of_gt (h : n.Lt (detThreshold n) cand.peak)
    (hend : ¬ windowStart p cand.pos + p.window ≤ p.block) : findWindow n p cand r none = .needBlock :=
  (if_pos h).trans (if_neg hend)

/-- A window that runs over is spliced from both blocks (R175). -/
theorem findWindow_some_of_gt {r2 : Samples σ} (h : n.Lt (detThreshold n) cand.peak)
    (hend : ¬ windowStart p cand.pos + p.window ≤ p.block) : findWindow n p cand r (some r2) =
      .window (slice r (windowStart p cand.pos) p.block ++
        slice r2 0 (windowStart p cand.pos + p.window - p.block)) 2 :=
  (if_pos h).trans (if_neg hend)

/-- A frame is taken as found exactly above the threshold (R171). -/
theorem findWindow_ne_noFrame_iff :
    findWindow n p cand r next? ≠ .noFrame ↔ n.Lt (detThreshold n) cand.peak := by
  refine ⟨fun h => by_contra fun hlt => h (findWindow_of_not_lt hlt), fun h => ?_⟩
  by_cases hend : windowStart p cand.pos + p.window ≤ p.block
  · simp [findWindow_of_le h hend]
  · cases next? with
    | none => simp [findWindow_none_of_gt h hend]
    | some r2 => simp [findWindow_some_of_gt h hend]

end Window

section Work

variable {σ : Type} {c : Impl σ} {s : State σ} {p : Plan σ} {r : Samples σ} {rest : List (Samples σ)}

theorem demRunOn_of_noFrame (h : findWindow c.num p (detect c.num p r) r rest.head? = .noFrame) :
    demRunOn c s p r rest = complete .noFrameDetected
      { noteDetection (detect c.num p r) s with demIn := rest, demFound := false } := by
  simp only [demRunOn, h]

theorem demRunOn_of_needBlock (h : findWindow c.num p (detect c.num p r) r rest.head? = .needBlock) :
    demRunOn c s p r rest = complete .needBlock (noteDetection (detect c.num p r) s) := by
  simp only [demRunOn, h]

theorem demRunOn_of_window {w : Samples σ} {blocks : Nat}
    (h : findWindow c.num p (detect c.num p r) r rest.head? = .window w blocks) :
    demRunOn c s p r rest = complete .ok
      { noteDetection (detect c.num p r) s with
        demIn := s.demIn.drop blocks
        demOut := s.demOut ++ [(decodeWindow c.num c.rom p (drawsFrom c s) w).bits]
        res := { (noteDetection (detect c.num p r) s).res with
          demCfo := (decodeWindow c.num c.rom p (drawsFrom c s) w).cfo }
        demFound := true
        draws := s.draws + p.nsym * p.dataCount } := by
  simp only [demRunOn, h]

end Work

/-- Settles O27: the guards decide first, then the peak, the end of the window, and the blocks that are there. The
decisions draw the machine's free values from its own count on (log 7). -/
theorem demRunFollowsItsRule : Obligations.DemRunFollowsItsRule := by
  refine fun s => ⟨fun h => congrArg _ (withPlan_of_fatal _ h), fun h => congrArg _ (withPlan_of_unconfigured _ h),
    fun p hr hp => ⟨drawsFrom Config.impl s, s.draws + p.nsym * p.dataCount, ?_⟩⟩
  have guarded : exec .demRun s = .next (if 2 < p.m ∧ Config.demapQam = .refuse then raiseConfigError s
      else withHead s Config.depthDemOut s.demOut s.demIn (demRunOn Config.impl s p)) :=
    congrArg _ (withPlan_ready _ hr hp)
  rw [guarded]
  congr 1
  by_cases hq : 2 < p.m ∧ Config.demapQam = .refuse
  · rw [if_pos hq, if_pos hq]; rfl
  rw [if_neg hq, if_neg hq]
  by_cases ho : Config.depthDemOut ≤ s.demOut.length
  · rw [if_pos ho, withHead_of_full_or_empty _ (.inl ho)]; rfl
  rw [if_neg ho]
  cases hi : s.demIn with
  | nil => exact withHead_of_full_or_empty _ (.inr rfl)
  | cons r rest =>
    rw [withHead_cons _ (Nat.lt_of_not_le ho) rfl]
    by_cases hpeak : Config.num.Lt (detThreshold Config.num) (detect Config.num p r).peak
    · refine .trans ?_ (if_pos hpeak).symm
      by_cases hend : windowStart p (detect Config.num p r).pos + p.window ≤ p.block
      · rw [demRunOn_of_window (findWindow_of_le hpeak hend), hi]
        exact (if_pos hend).symm
      · refine .trans ?_ (if_neg hend).symm
        cases rest with
        | nil => rw [demRunOn_of_needBlock (findWindow_none_of_gt hpeak hend), ← hi]; rfl
        | cons r2 rest2 => rw [demRunOn_of_window (findWindow_some_of_gt hpeak hend), hi]; rfl
    · rw [demRunOn_of_noFrame (findWindow_of_not_lt hpeak)]
      exact (if_neg hpeak).symm

end Sys2Proof.Machine
end

section
/-! Preamble detection (`42_demodulator.md` R168, R171): the search keeps the first maximum of what it has seen. -/

namespace Sys2Proof.Machine

section Argmax

variable {σ : Type} [LinearOrder σ]

/-- `c` is the first position of the greatest value of `f` at `0 .. k`, with that value. -/
structure Candidate.IsFirstMax (c : Candidate σ) (f : Nat → σ) (k : Nat) : Prop where
  pos_le : c.pos ≤ k
  peak_eq : c.peak = f c.pos
  le_peak : ∀ i ≤ k, f i ≤ c.peak
  lt_peak : ∀ i < c.pos, f i < c.peak

/-- A greater value at the next position is the first maximum there. -/
theorem Candidate.IsFirstMax.succ_of_lt {c : Candidate σ} {f : Nat → σ} {k : Nat} (h : c.IsFirstMax f k)
    (hlt : c.peak < f (k + 1)) : Candidate.IsFirstMax ⟨k + 1, f (k + 1)⟩ f (k + 1) where
  pos_le := le_rfl
  peak_eq := rfl
  le_peak i hi := by
    rcases Nat.le_succ_iff.1 hi with hi | rfl
    · exact (h.le_peak i hi).trans hlt.le
    · exact le_rfl
  lt_peak i hi := (h.le_peak i (Nat.le_of_lt_succ hi)).trans_lt hlt

/-- A value not greater at the next position leaves the first maximum. -/
theorem Candidate.IsFirstMax.succ_of_le {c : Candidate σ} {f : Nat → σ} {k : Nat} (h : c.IsFirstMax f k)
    (hle : f (k + 1) ≤ c.peak) : c.IsFirstMax f (k + 1) where
  pos_le := h.pos_le.trans (Nat.le_succ k)
  peak_eq := h.peak_eq
  le_peak i hi := by
    rcases Nat.le_succ_iff.1 hi with hi | rfl
    · exact h.le_peak i hi
    · exact hle
  lt_peak := h.lt_peak

theorem argmax_isFirstMax {n : Num σ} (hlt : ∀ a b, n.Lt a b ↔ a < b) (f : Nat → σ) (k : Nat) :
    (argmax n f k).IsFirstMax f k := by
  induction k with
  | zero => exact ⟨le_rfl, rfl, fun i hi => by rw [Nat.le_zero.1 hi]; rfl, fun i hi => absurd hi i.not_lt_zero⟩
  | succ k ih =>
    simp only [argmax]
    split
    · rename_i h; exact ih.succ_of_lt ((hlt _ _).1 h)
    · rename_i h; exact ih.succ_of_le (not_lt.1 (mt (hlt _ _).2 h))

end Argmax

/-- Settles O29: the candidate is the first maximum of the metric, and `findWindow` compares its peak. -/
theorem detectionIsTheFirstMaximum : Obligations.DetectionIsTheFirstMaximum := by
  intro σ _ n hlt p r next? c
  obtain ⟨hpos, hpeak, hle, hfirst⟩ := argmax_isFirstMax hlt (metric n p r) (p.block - p.lp)
  exact ⟨hpos, hpeak, hle, hfirst, findWindow_ne_noFrame_iff.trans (hlt _ _)⟩

end Sys2Proof.Machine
end

section
/-! Carrier offset, channel estimate and equaliser (`42_demodulator.md` R181 to R192): the steps on the subcarriers. -/

namespace Sys2Proof

section Congruence

variable {σ : Type} (n : Num σ)

theorem csum_congr {f g : Nat → Cx σ} {k : Nat} (h : ∀ i < k, f i = g i) : n.csum f k = n.csum g k := by
  induction k with
  | zero => rfl
  | succ k ih => rw [Num.csum, Num.csum, ih fun i hi => h i (Nat.lt_succ_of_lt hi), h k k.lt_succ_self]

/-- The transform reads its input at 0 to 63 only (R14). -/
theorem fft_congr {x y : Nat → Cx σ} (h : ∀ t < 64, x t = y t) (k : Nat) : n.fft x k = n.fft y k :=
  csum_congr n fun t ht => by rw [h t ht]

theorem fft_at_tabulate (x : Nat → Cx σ) (k : Nat) : n.fft (n.at (tabulate 64 x)) k = n.fft x k :=
  fft_congr n (fun _ ht => at_tabulate n 64 x ht) k

end Congruence

/-- The transform of a multiple is the multiple of the transform. -/
theorem fft_cmul (g : Cx ℝ) (x : Nat → Cx ℝ) (k : Nat) :
    (realNum.fft (fun t => realNum.cmul g (x t)) k).toComplex = g.toComplex * (realNum.fft x k).toComplex := by
  simp only [realNum_fft, realNum_cmul, mul_assoc, Finset.mul_sum]

/-- A table inverted by the transform comes back: `FFT(LTS_T) = TREF` (R29 a). -/
theorem Rom.Legal.fft_ltsT {rom : Rom ℝ} (h : rom.Legal realNum) {k : Nat} (hk : k < 64) :
    realNum.fft rom.ltsT k = rom.tref k := by
  rw [fft_congr realNum h.lts, fft_ifft _ hk]

/-- On the active subcarriers the reference is not 0 (R29 b). -/
theorem Rom.Legal.tref_ne_zero {rom : Rom ℝ} (h : rom.Legal realNum) {k : Nat} (hk : k ∈ activeIndices) :
    (rom.tref k).toComplex ≠ 0 := by
  obtain ⟨hr, hn⟩ := List.mem_filter.1 hk
  have hz : realNum.isZero (rom.tref k) = false := by
    rw [h.support k (List.mem_range.1 hr)]; simpa using hn
  exact mt (realNum_isZero _).2 (by simp [hz])

theorem lt_of_mem_activeIndices {k : Nat} (h : k ∈ activeIndices) : k < 64 :=
  List.mem_range.1 (List.mem_of_mem_filter h)

end Sys2Proof

namespace Sys2Proof.Machine

section CarrierOffset

theorem cfoSum_toComplex (w : Samples ℝ) : (cfoSum realNum w).toComplex = ∑ t ∈ Finset.range 63,
    (starRingEnd ℂ) (realNum.at w t).toComplex * (realNum.at w (64 + t)).toComplex := by
  simp only [cfoSum, realNum_csum, realNum_cmul, realNum_conj]

theorem estimateCfo_eq (w : Samples ℝ) :
    estimateCfo realNum w = (cfoSum realNum w).toComplex.arg / (2 * Real.pi * 63) := by
  simp [estimateCfo, cfoDiv]

/-- An argument over `2π*63` is at most half of a 63rd of a turn, the lower end excluded (R13, R181). -/
theorem arg_div_turns_mem (z : ℂ) : z.arg / (2 * Real.pi * 63) ∈ Set.Ioc (-(1 / 126) : ℝ) (1 / 126) := by
  have hpi := Real.pi_pos
  obtain ⟨hlo, hhi⟩ := Complex.arg_mem_Ioc z
  constructor
  · rw [lt_div_iff₀ (by positivity)]; linarith
  · rw [div_le_iff₀ (by positivity)]; linarith

/-- Settles O32: the bounds are those of the principal argument. -/
theorem cfoEstimateAndCompensation : Obligations.CfoEstimateAndCompensation := by
  intro p w acc cfo
  have hcfo : cfo = acc.arg / (2 * Real.pi * 63) := (estimateCfo_eq w).trans (by rw [cfoSum_toComplex])
  obtain ⟨hlo, hhi⟩ := arg_div_turns_mem acc
  rw [hcfo]
  refine ⟨rfl, hlo, hhi, fun h => by simp [h], fun f => ⟨tabulate_length _ _, fun t ht => ?_⟩⟩
  rw [compensate, at_tabulate _ _ _ ht, realNum_cmul, realNum_cexp]
  congr 2
  simp

end CarrierOffset

section Channel

variable {σ : Type} (n : Num σ) (rom : Rom σ) {p : Plan σ} (w : Samples σ) {k : Nat}

/-- On an active subcarrier the gain is the transform over the reference (R187). -/
theorem at_estimateChannel_active (hk : k < 64) (ha : k ∈ p.active) :
    n.at (estimateChannel n rom p w) k = n.cdiv (n.fft (trainingEstimate n w) k) (rom.tref k) := by
  rw [estimateChannel, at_tabulate _ _ _ hk, if_pos (List.contains_iff_mem.2 ha), fft_at_tabulate]

/-- On the others it is 0 (R188). -/
theorem at_estimateChannel_inactive (hk : k < 64) (ha : k ∉ p.active) :
    n.at (estimateChannel n rom p w) k = n.czero := by
  rw [estimateChannel, at_tabulate _ _ _ hk, if_neg (mt List.contains_iff_mem.1 ha)]

end Channel

theorem trainingEstimate_toComplex (w : Samples ℝ) (t : Nat) : (trainingEstimate realNum w t).toComplex =
    if t = 0 then (realNum.at w 63).toComplex
    else ((realNum.at w (t - 1)).toComplex + (realNum.at w (63 + t)).toComplex) / 2 := by
  rw [trainingEstimate]
  split
  · rfl
  · simp; ring

/-- On a multiple of an undistorted window the training estimate is that multiple of `LTS_T` (R186). -/
theorem trainingEstimate_of_gain {rom : Rom ℝ} {w : Samples ℝ} {g : Cx ℝ}
    (hmid : realNum.at w 63 = realNum.cmul g (rom.ltsT 0))
    (hhalves : ∀ t < 63, realNum.at w t = realNum.cmul g (rom.ltsT (t + 1)) ∧
      realNum.at w (64 + t) = realNum.cmul g (rom.ltsT (t + 1))) {t : Nat} (ht : t < 64) :
    trainingEstimate realNum w t = realNum.cmul g (rom.ltsT t) := by
  apply Cx.toComplex_injective
  rw [trainingEstimate_toComplex]
  cases t with
  | zero => rw [if_pos rfl, hmid]
  | succ t =>
    obtain ⟨hfirst, hsecond⟩ := hhalves t (by omega)
    rw [if_neg t.succ_ne_zero, Nat.add_sub_cancel, show 63 + (t + 1) = 64 + t by omega, hfirst, hsecond,
      add_self_div_two]

/-- Settles O34: an entry of the estimate by its formula, and the transform of a multiple of `LTS_T` is that multiple
of the reference. -/
theorem channelEstimateRecoversTheGain : Obligations.ChannelEstimateRecoversTheGain := by
  intro rom p w hrom hp h x v
  have hactive : ∀ k ∈ p.active, k ∈ activeIndices := fun k hk => by rwa [← hp.active_eq]
  have hentry : ∀ k ∈ p.active, (realNum.at h k).toComplex =
      (realNum.fft (trainingEstimate realNum w) k).toComplex / (rom.tref k).toComplex := fun k hk => by
    rw [at_estimateChannel_active _ _ _ (lt_of_mem_activeIndices (hactive k hk)) hk, realNum_cdiv]
  refine ⟨tabulate_length _ _, fun k hk => ?_, fun k hk => at_estimateChannel_inactive _ _ _ hk,
    fun g hmid hhalves k hk => Cx.toComplex_injective ?_⟩
  · rw [hentry k hk, (transformsAreInverse _).1]
    simp only [trainingEstimate_toComplex]
    rfl
  · rw [hentry k hk, fft_congr _ (fun t => trainingEstimate_of_gain hmid hhalves), fft_cmul,
      hrom.fft_ltsT (lt_of_mem_activeIndices (hactive k hk)),
      mul_div_cancel_right₀ _ (hrom.tref_ne_zero (hactive k hk))]

/-- Settles O35: the entry of the tabulated quotients. -/
theorem equaliserDividesByTheGain : Obligations.EqualiserDividesByTheGain := by
  intro σ n p h x k hk ha
  rw [equalise, at_tabulate _ _ _ hk, List.contains_iff_mem.2 ha, fft_at_tabulate]
  cases n.isZero (n.at h k) <;> rfl

end Sys2Proof.Machine
end

section
/-! The pilot phase fit (`42_demodulator.md` R193 to R196): unwrapping stays within whole turns of the phases, the line
is the least-squares line, and a line of phases the unwrapping can follow is the line fitted, whole turns apart. -/

namespace Sys2Proof.Machine

section Unwrap

variable {σ : Type} (n : Num σ)

theorem unwrapFrom_length (prev u : σ) (phi : List σ) : (unwrapFrom n prev u phi).length = phi.length := by
  induction phi generalizing prev u with
  | nil => rfl
  | cons a phi ih => simp [unwrapFrom, ih]

theorem unwrap_length (phi : List σ) : (unwrap n phi).length = phi.length := by
  cases phi with
  | nil => rfl
  | cons a phi => simp [unwrap, unwrapFrom_length]

/-- The first phase is kept (R194). -/
theorem unwrap_getD_zero (phi : List σ) (d : σ) : (unwrap n phi).getD 0 d = phi.getD 0 d := by
  cases phi <;> rfl

theorem unwrapFrom_getD_succ (prev u : σ) (phi : List σ) (d : σ) {t : Nat} (ht : t < phi.length) :
    (u :: unwrapFrom n prev u phi).getD (t + 1) d = n.add ((u :: unwrapFrom n prev u phi).getD t d)
      (unwrapStep n (n.sub ((prev :: phi).getD (t + 1) d) ((prev :: phi).getD t d))) := by
  induction phi generalizing prev u t with
  | nil => exact absurd ht t.not_lt_zero
  | cons a phi ih =>
    cases t with
    | zero => rfl
    | succ t => exact ih a _ (Nat.lt_of_succ_lt_succ ht)

/-- Each further phase adds the unwrapped step (R194). -/
theorem unwrap_getD_succ (phi : List σ) (d : σ) {t : Nat} (ht : t + 1 < phi.length) :
    (unwrap n phi).getD (t + 1) d =
      n.add ((unwrap n phi).getD t d) (unwrapStep n (n.sub (phi.getD (t + 1) d) (phi.getD t d))) := by
  cases phi with
  | nil => exact absurd ht (t + 1).not_lt_zero
  | cons a phi => exact unwrapFrom_getD_succ n a a phi d (Nat.lt_of_succ_lt_succ ht)

end Unwrap

section RealUnwrap

/-- A step brought back by a turn from above is not below `-π`, so at most one turn is taken (R194). -/
theorem realNum_unwrapStep (d : ℝ) : unwrapStep realNum d =
    if Real.pi < d then d - 2 * Real.pi else if d < -Real.pi then d + 2 * Real.pi else d := by
  simp only [unwrapStep, realNum_lt, realNum_pi, realNum_neg, realNum_twoPi, realNum_sub, realNum_add]
  by_cases h : Real.pi < d
  · simp only [if_pos h]
    exact if_neg (by linarith)
  · simp only [if_neg h]

theorem exists_unwrapStep_eq (d : ℝ) : ∃ j : ℤ, unwrapStep realNum d = d + 2 * Real.pi * j := by
  rw [realNum_unwrapStep]
  split_ifs
  · exact ⟨-1, by push_cast; ring⟩
  · exact ⟨1, by push_cast; ring⟩
  · exact ⟨0, by push_cast; ring⟩

/-- A step of less than a turn comes back to at most half a turn. -/
theorem abs_unwrapStep_le {d : ℝ} (h : |d| < 2 * Real.pi) : |unwrapStep realNum d| ≤ Real.pi := by
  obtain ⟨hlo, hhi⟩ := abs_lt.1 h
  rw [realNum_unwrapStep, abs_le]
  split_ifs <;> constructor <;> linarith

variable {phi : List ℝ}

/-- The unwrapped phases are the phases up to whole turns. -/
theorem exists_unwrap_getD_eq {t : Nat} (ht : t < phi.length) :
    ∃ j : ℤ, (unwrap realNum phi).getD t 0 = phi.getD t 0 + 2 * Real.pi * j := by
  induction t with
  | zero => exact ⟨0, by rw [unwrap_getD_zero]; simp⟩
  | succ t ih =>
    obtain ⟨i, hi⟩ := ih (Nat.lt_of_succ_lt ht)
    obtain ⟨j, hj⟩ := exists_unwrapStep_eq (phi.getD (t + 1) 0 - phi.getD t 0)
    refine ⟨i + j, ?_⟩
    rw [unwrap_getD_succ _ _ _ ht, realNum_add, realNum_sub, hi, hj]
    push_cast
    ring

/-- From one principal angle to the next the unwrapped phase moves by at most half a turn. -/
theorem abs_unwrap_sub_le (hphi : ∀ a ∈ phi, -Real.pi < a ∧ a ≤ Real.pi) {t : Nat} (ht : t + 1 < phi.length) :
    |(unwrap realNum phi).getD (t + 1) 0 - (unwrap realNum phi).getD t 0| ≤ Real.pi := by
  have hmem : ∀ i < phi.length, -Real.pi < phi.getD i 0 ∧ phi.getD i 0 ≤ Real.pi := fun i hi => by
    rw [List.getD_eq_getElem _ _ hi]; exact hphi _ (List.getElem_mem hi)
  obtain ⟨hlo, hhi⟩ := hmem t (Nat.lt_of_succ_lt ht)
  obtain ⟨hlo', hhi'⟩ := hmem (t + 1) ht
  rw [unwrap_getD_succ _ _ _ ht, realNum_add, realNum_sub, add_sub_cancel_left]
  exact abs_unwrapStep_le (abs_lt.2 ⟨by linarith, by linarith⟩)

/-- A whole number of turns of modulus less than one turn is none. -/
theorem turns_eq_zero {j : ℤ} (h : |2 * Real.pi * j| < 2 * Real.pi) : j = 0 := by
  have hpi := Real.two_pi_pos
  rw [abs_mul, abs_of_pos hpi, mul_lt_iff_lt_one_right hpi] at h
  exact Int.abs_lt_one_iff.1 (by exact_mod_cast h)

/-- Where the phases are those of a sequence with steps below half a turn, unwrapping gives that sequence, up to one
number of whole turns. -/
theorem exists_unwrap_eq_add_turns {θ : Nat → ℝ} (hphi : ∀ a ∈ phi, -Real.pi < a ∧ a ≤ Real.pi)
    (hθ : ∀ t < phi.length, ∃ j : ℤ, phi.getD t 0 = θ t + 2 * Real.pi * j)
    (hstep : ∀ t, t + 1 < phi.length → |θ (t + 1) - θ t| < Real.pi) :
    ∃ j : ℤ, ∀ t < phi.length, (unwrap realNum phi).getD t 0 = θ t + 2 * Real.pi * j := by
  have hu : ∀ t < phi.length, ∃ j : ℤ, (unwrap realNum phi).getD t 0 = θ t + 2 * Real.pi * j := fun t ht => by
    obtain ⟨i, hi⟩ := exists_unwrap_getD_eq ht
    obtain ⟨j, hj⟩ := hθ t ht
    exact ⟨j + i, by rw [hi, hj]; push_cast; ring⟩
  rcases Nat.eq_zero_or_pos phi.length with h0 | hpos
  · exact ⟨0, fun t ht => absurd ht (by omega)⟩
  obtain ⟨j, hj⟩ := hu 0 hpos
  refine ⟨j, fun t => ?_⟩
  induction t with
  | zero => exact fun _ => hj
  | succ t ih =>
    intro ht
    obtain ⟨i, hi⟩ := hu (t + 1) ht
    have hmove := abs_le.1 (abs_unwrap_sub_le hphi ht)
    have hline := abs_lt.1 (hstep t ht)
    rw [hi, ih (Nat.lt_of_succ_lt ht)] at hmove
    have hij : i - j = 0 := turns_eq_zero (abs_lt.2 (by push_cast; constructor <;> linarith))
    rw [hi, sub_eq_zero.1 hij]

end RealUnwrap

section Fit

/-- The sum of the squared distances of the unwrapped phases from a line (R195). -/
def pilotCost (u : List ℝ) (a b : ℝ) : ℝ :=
  (u.getD 0 0 - (a * 7 + b)) ^ 2 + (u.getD 1 0 - (a * 21 + b)) ^ 2 + (u.getD 2 0 - (a * 43 + b)) ^ 2 +
    (u.getD 3 0 - (a * 57 + b)) ^ 2

/-- The mean of the unwrapped phases, `ubar` (R195). -/
noncomputable def pilotMean (u : List ℝ) : ℝ := (u.getD 0 0 + u.getD 1 0 + u.getD 2 0 + u.getD 3 0) / 4

variable {p : Plan ℝ} (hp : p.pilot = pilotSet) (u : List ℝ)
include hp

theorem fitLine_slope : (fitLine realNum p u).slope =
    ((7 - 32) * (u.getD 0 0 - pilotMean u) + (21 - 32) * (u.getD 1 0 - pilotMean u) +
      (43 - 32) * (u.getD 2 0 - pilotMean u) + (57 - 32) * (u.getD 3 0 - pilotMean u)) / 1492 := by
  simp [fitLine, hp, pilotSet, Num.sum, pilotMean]

omit hp in
theorem fitLine_intercept :
    (fitLine realNum p u).intercept = pilotMean u - (fitLine realNum p u).slope * 32 := by
  simp [fitLine, Num.sum, pilotMean]

/-- The cost of a line is that of the fitted one and two squares more: of the difference of the slopes, and of the
difference of the lines at the mean index 32. -/
theorem pilotCost_eq (a b : ℝ) : pilotCost u a b =
    pilotCost u (fitLine realNum p u).slope (fitLine realNum p u).intercept +
      1492 * (a - (fitLine realNum p u).slope) ^ 2 +
      4 * ((a - (fitLine realNum p u).slope) * 32 + (b - (fitLine realNum p u).intercept)) ^ 2 := by
  rw [fitLine_intercept, fitLine_slope hp, pilotCost, pilotCost, pilotMean]
  ring

/-- The fitted line is the unique least-squares line (R195). -/
theorem fitLine_leastSquares (a b : ℝ) :
    pilotCost u (fitLine realNum p u).slope (fitLine realNum p u).intercept ≤ pilotCost u a b ∧
      (pilotCost u a b = pilotCost u (fitLine realNum p u).slope (fitLine realNum p u).intercept →
        a = (fitLine realNum p u).slope ∧ b = (fitLine realNum p u).intercept) := by
  have hslope := sq_nonneg (a - (fitLine realNum p u).slope)
  have hmean := sq_nonneg ((a - (fitLine realNum p u).slope) * 32 + (b - (fitLine realNum p u).intercept))
  rw [pilotCost_eq hp u a b]
  refine ⟨by linarith, fun h => ?_⟩
  have ha : a - (fitLine realNum p u).slope = 0 := pow_eq_zero_iff two_ne_zero |>.1 (by linarith)
  have hb := pow_eq_zero_iff two_ne_zero |>.1 (by linarith :
    ((a - (fitLine realNum p u).slope) * 32 + (b - (fitLine realNum p u).intercept)) ^ 2 = 0)
  exact ⟨sub_eq_zero.1 ha, by linarith⟩

variable {u}

/-- Phases that lie on a line are fitted by it. -/
theorem fitLine_of_line {a b : ℝ} (h : ∀ t < 4, u.getD t 0 = a * pilotSet.getD t 0 + b) :
    fitLine realNum p u = ⟨a, b⟩ := by
  have hcost : pilotCost u a b = 0 := by
    rw [pilotCost, h 0 (by decide), h 1 (by decide), h 2 (by decide), h 3 (by decide)]
    simp [pilotSet]
  have hfit : 0 ≤ pilotCost u (fitLine realNum p u).slope (fitLine realNum p u).intercept := by
    unfold pilotCost; positivity
  obtain ⟨hle, huniq⟩ := fitLine_leastSquares hp u a b
  obtain ⟨ha, hb⟩ := huniq (by linarith)
  rw [ha, hb]

end Fit

section Correction

theorem pilotPhases_eq_map (rom : Rom ℝ) (p : Plan ℝ) (y : List (Cx ℝ)) : pilotPhases realNum rom p y =
    p.pilot.map fun k => ((realNum.at y k).toComplex * (starRingEnd ℂ) (rom.tref k).toComplex).arg := by
  simp only [pilotPhases, realNum_angle, realNum_cmul, realNum_conj]

theorem pilotPhases_getD (rom : Rom ℝ) {p : Plan ℝ} (hp : p.pilot = pilotSet) (y : List (Cx ℝ)) {t : Nat}
    (ht : t < pilotSet.length) : (pilotPhases realNum rom p y).getD t 0 =
      ((realNum.at y (pilotSet.getD t 0)).toComplex *
        (starRingEnd ℂ) (rom.tref (pilotSet.getD t 0)).toComplex).arg := by
  rw [pilotPhases_eq_map, hp, List.getD_eq_getElem _ _ (by rwa [List.length_map]), List.getElem_map,
    List.getD_eq_getElem _ _ ht]

theorem phaseCorrect_toComplex (l : Line ℝ) (y : List (Cx ℝ)) (k : Nat) : (phaseCorrect realNum l y k).toComplex =
    (realNum.at y k).toComplex * Complex.exp (-((l.slope * k + l.intercept : ℝ) : ℂ) * Complex.I) := by
  simp [phaseCorrect]

/-- The angle of a pilot turned by `θ`, against its reference, is `θ` up to whole turns. -/
theorem exists_arg_turned_eq {z : ℂ} (hz : z ≠ 0) (θ : ℝ) : ∃ j : ℤ,
    (z * Complex.exp (θ * Complex.I) * (starRingEnd ℂ) z).arg = θ + 2 * Real.pi * j := by
  have hpos : 0 < Complex.normSq z := Complex.normSq_pos.2 hz
  refine ⟨-toIocDiv Real.two_pi_pos (-Real.pi) θ, ?_⟩
  rw [mul_right_comm, Complex.mul_conj, Complex.arg_real_mul _ hpos, Complex.arg_exp_mul_I, toIocMod]
  push_cast
  rw [zsmul_eq_mul]
  ring

/-- Turning back by the line, up to whole turns, undoes the turn. -/
theorem turned_mul_exp_neg (z : ℂ) (θ : ℝ) (j : ℤ) :
    z * Complex.exp (θ * Complex.I) * Complex.exp (-((θ + 2 * Real.pi * j : ℝ) : ℂ) * Complex.I) = z := by
  rw [mul_assoc, ← Complex.exp_add,
    show (θ : ℂ) * Complex.I + -((θ + 2 * Real.pi * j : ℝ) : ℂ) * Complex.I =
      ((-j : ℤ) : ℂ) * (2 * Real.pi * Complex.I) by push_cast; ring,
    Complex.exp_int_mul_two_pi_mul_I, mul_one]

/-- Neighbouring pilots are at most 22 subcarriers apart (R104). -/
theorem pilotSet_gap : ∀ t < 3, pilotSet.getD t 0 ≤ pilotSet.getD (t + 1) 0 ∧
    pilotSet.getD (t + 1) 0 ≤ pilotSet.getD t 0 + 22 := by decide

theorem pilotSet_subset_activeIndices : ∀ k ∈ pilotSet, k ∈ activeIndices := by decide

/-- From one pilot to the next a line below a 22nd of half a turn moves by less than half a turn. -/
theorem abs_line_pilot_step_lt {a : ℝ} (ha : |a| < Real.pi / 22) (b : ℝ) {t : Nat} (ht : t < 3) :
    |a * pilotSet.getD (t + 1) 0 + b - (a * pilotSet.getD t 0 + b)| < Real.pi := by
  obtain ⟨hle, hgap⟩ := pilotSet_gap t ht
  have hgap' : |(pilotSet.getD (t + 1) 0 : ℝ) - pilotSet.getD t 0| ≤ 22 := by
    rw [abs_of_nonneg (sub_nonneg.2 (by exact_mod_cast hle)), sub_le_iff_le_add']
    exact_mod_cast hgap
  calc |a * pilotSet.getD (t + 1) 0 + b - (a * pilotSet.getD t 0 + b)|
      = |a| * |(pilotSet.getD (t + 1) 0 : ℝ) - pilotSet.getD t 0| := by rw [← abs_mul]; congr 1; ring
    _ ≤ |a| * 22 := mul_le_mul_of_nonneg_left hgap' (abs_nonneg a)
    _ < Real.pi := by linarith

/-- On pilots turned by `a*k + b`, the slope below what unwrapping can follow, the fitted line is that line, up to
whole turns (R193 to R195). -/
theorem exists_fitLine_of_turned {rom : Rom ℝ} {p : Plan ℝ} {y : List (Cx ℝ)} {a b : ℝ}
    (hrom : rom.Legal realNum) (hp : p.pilot = pilotSet) (ha : |a| < Real.pi / 22)
    (hy : ∀ k ∈ pilotSet, (realNum.at y k).toComplex =
      (rom.tref k).toComplex * Complex.exp (((a * k + b : ℝ) : ℂ) * Complex.I)) :
    ∃ j : ℤ, fitLine realNum p (unwrap realNum (pilotPhases realNum rom p y)) = ⟨a, b + 2 * Real.pi * j⟩ := by
  have hl : (pilotPhases realNum rom p y).length = 4 := by rw [pilotPhases, hp]; rfl
  have hprincipal : ∀ x ∈ pilotPhases realNum rom p y, -Real.pi < x ∧ x ≤ Real.pi := fun x hx => by
    rw [pilotPhases_eq_map] at hx
    obtain ⟨k, -, rfl⟩ := List.mem_map.1 hx
    exact Complex.arg_mem_Ioc _
  have hphase : ∀ t < 4, ∃ j : ℤ, (pilotPhases realNum rom p y).getD t 0 =
      (a * pilotSet.getD t 0 + b) + 2 * Real.pi * j := fun t ht => by
    have hmem : pilotSet.getD t 0 ∈ pilotSet := by
      rw [List.getD_eq_getElem _ _ ht]; exact List.getElem_mem ht
    obtain ⟨j, hj⟩ := exists_arg_turned_eq (hrom.tref_ne_zero (pilotSet_subset_activeIndices _ hmem))
      (a * pilotSet.getD t 0 + b)
    exact ⟨j, by rw [pilotPhases_getD rom hp y ht, hy _ hmem, hj]⟩
  obtain ⟨j, hj⟩ := exists_unwrap_eq_add_turns (θ := fun t => a * pilotSet.getD t 0 + b) hprincipal
    (by rwa [hl]) fun t ht => abs_line_pilot_step_lt ha b (by omega)
  exact ⟨j, fitLine_of_line hp fun t ht => by rw [hj t (by omega)]; ring⟩

end Correction

/-- Settles O36: unwrapping step by step, the two squares that any other line costs more, the correction by its
definition, and for a turned symbol the fitted line is the turn up to whole turns. -/
theorem pilotPhaseFitIsLeastSquares : Obligations.PilotPhaseFitIsLeastSquares := by
  refine ⟨fun phi => ⟨unwrap_length _ _, unwrap_getD_zero _ _ _, fun t ht => ?_⟩,
    fun phi hphi => ⟨fun t ht => exists_unwrap_getD_eq ht, fun t ht => abs_unwrap_sub_le hphi ht⟩,
    fun p u0 u1 u2 u3 hp =>
      ⟨fitLine_slope hp _, fitLine_intercept _, fitLine_leastSquares hp [u0, u1, u2, u3]⟩, ?_, ?_⟩
  · rw [unwrap_getD_succ _ _ _ ht, realNum_unwrapStep]; rfl
  · intro rom p h x hp y phi l k
    have hphases : pilotPhases realNum rom p (equalise realNum p h x) = [phi 7, phi 21, phi 43, phi 57] := by
      rw [pilotPhases_eq_map, hp]; rfl
    rw [correctedSymbol, phaseCorrect_toComplex, hphases]
  · intro rom p h x sent a b hrom hp ha hpilot hturned k hk
    have hactive : ∀ k ∈ pilotSet, k ∈ p.active := by rw [hp.active_eq]; exact pilotSet_subset_activeIndices
    obtain ⟨j, hj⟩ := exists_fitLine_of_turned (y := equalise realNum p h x) hrom hp.pilot_eq ha fun k hk => by
      rw [hturned k (hactive k hk), hpilot k (by rw [hp.pilot_eq]; exact hk)]
    rw [correctedSymbol, phaseCorrect_toComplex, hj, hturned k hk, ← add_assoc]
    exact turned_mul_exp_neg _ _ _

end Sys2Proof.Machine
end

section
/-! Decisions (`42_demodulator.md` R199 to R203): the slicer, the nearest points, and the order of the bits. -/

namespace Sys2Proof

/-- Bit `t` of `tobits_k(v)`, MSB-first (R12). -/
theorem toBits_getD {k t : Nat} (v : Nat) (h : t < k) : (toBits k v).getD t false = v.testBit (k - 1 - t) :=
  tabulate_getD k _ false h

end Sys2Proof

namespace Sys2Proof.Machine

/-- Settles O37: the two tests of the slicer are the order's, and at 0 the parity of the draw decides. -/
theorem bpskSlicerDecidesBySign : Obligations.BpskSlicerDecidesBySign := by
  intro σ _ n hlt z
  refine ⟨fun h draw => if_pos ((hlt _ _).2 h), fun h draw => ?_, fun h bit => ⟨bit.toNat, ?_⟩⟩
  · exact (if_neg (mt (hlt _ _).1 h.not_gt)).trans (if_pos ((hlt _ _).2 h))
  · have irrefl : ¬ n.Lt n.zero n.zero := mt (hlt _ _).1 (lt_irrefl _)
    rw [slicer, h, if_neg irrefl, if_neg irrefl]
    cases bit <;> rfl

section Demapper

variable {σ : Type} {n : Num σ} {table : List (Cx σ)} {z : Cx σ}

/-- Whatever is drawn, a nearest index is decided where there is one. -/
theorem demapIndex_mem (h : nearestSet n table z ≠ []) (draw : Nat) :
    demapIndex n table draw z ∈ nearestSet n table z := by
  have hlt := Nat.mod_lt draw (List.length_pos_of_ne_nil h)
  rw [demapIndex, List.getD_eq_getElem _ _ hlt]
  exact List.getElem_mem hlt

/-- Every nearest index is decided at the draw of its place among them. -/
theorem exists_demapIndex_eq {q : Nat} (h : q ∈ nearestSet n table z) : ∃ draw, demapIndex n table draw z = q := by
  obtain ⟨i, hi, rfl⟩ := List.mem_iff_getElem.1 h
  exact ⟨i, by rw [demapIndex, Nat.mod_eq_of_lt hi, List.getD_eq_getElem _ _ hi]⟩

/-- Where `<` is a linear order, the nearest indices are those whose distance is least. -/
theorem mem_nearestSet_iff_le [LinearOrder σ] (hlt : ∀ a b, n.Lt a b ↔ a < b) {q : Nat} :
    q ∈ nearestSet n table z ↔ q < table.length ∧ ∀ q' < table.length,
      n.normSq (n.csub z (n.at table q)) ≤ n.normSq (n.csub z (n.at table q')) := by
  simp only [mem_nearestSet, hlt, not_lt]

/-- Where `<` is a linear order, a table with points has a nearest one. -/
theorem nearestSet_ne_nil [LinearOrder σ] (hlt : ∀ a b, n.Lt a b ↔ a < b) (ht : table ≠ []) :
    nearestSet n table z ≠ [] := by
  obtain ⟨q, hq, hmin⟩ := (Finset.range table.length).exists_min_image
    (fun q => n.normSq (n.csub z (n.at table q))) (Finset.nonempty_range_iff.2 (mt List.length_eq_zero_iff.1 ht))
  exact List.ne_nil_of_mem ((mem_nearestSet_iff_le hlt).2
    ⟨Finset.mem_range.1 hq, fun q' hq' => hmin q' (Finset.mem_range.2 hq')⟩)

end Demapper

/-- Settles O38: the indices that can be drawn are exactly those of least distance, and there is one. -/
theorem qamDecisionIsANearestPoint : Obligations.QamDecisionIsANearestPoint := by
  intro σ _ n hlt table z ht dist
  exact ⟨fun draw => (mem_nearestSet_iff_le hlt).1 (demapIndex_mem (nearestSet_ne_nil hlt ht) draw),
    fun best hbest hleast => exists_demapIndex_eq ((mem_nearestSet_iff_le hlt).2 ⟨hbest, hleast⟩)⟩

section Order

variable {σ : Type} {p : Plan σ}

/-- Bit `b` of one decision (R199, R201). -/
theorem decideBits_getD (hp : p.Sound) (n : Num σ) (draw : Nat) (z : Cx σ) {b : Nat} (hb : b < p.bps) :
    (decideBits n p draw z).getD b false =
      if p.m = 2 then slicer n draw z else (demapIndex n p.table draw z).testBit (p.bps - 1 - b) := by
  rw [decideBits]
  split
  · rename_i hm
    rw [hp.bps_eq_one hm, Nat.lt_one_iff] at hb
    rw [hb]; rfl
  · exact toBits_getD _ hb

theorem demodSymbol_length (hp : p.Sound) (n : Num σ) (rom : Rom σ) (draw : Nat → Nat) (w' : Samples σ)
    (h : List (Cx σ)) (i : Nat) : (demodSymbol n rom p draw w' h i).length = 48 * p.bps := by
  rw [← hp.dataCount_eq]
  exact concatMap_length_of _ _ _ fun _ _ => decideBits_length _ _ _ _ hp.bps_eq_one

/-- Bit `b` of group `t` of a symbol is bit `b` of the decision on data subcarrier `t` (R203). -/
theorem demodSymbol_getD (hp : p.Sound) (n : Num σ) (rom : Rom σ) (draw : Nat → Nat) (w' : Samples σ)
    (h : List (Cx σ)) (i : Nat) {t b : Nat} (ht : t < 48) (hb : b < p.bps) :
    (demodSymbol n rom p draw w' h i).getD (t * p.bps + b) false =
      (decideBits n p (draw (i * 48 + t))
        (correctedSymbol n rom p h (symbolBody n p w' i) (dataIndices.getD t 0))).getD b false := by
  rw [← hp.dataCount_eq] at ht ⊢
  rw [← hp.data_eq]
  exact concatMap_getD (fun _ _ => decideBits_length _ _ _ _ hp.bps_eq_one) _ ht hb

end Order

/-- Settles O40: the symbols have one length and their groups another, so each bit is at its place; the draw of group
`48*i+t` is that of its decision. -/
theorem decodedBitsAreInOrder : Obligations.DecodedBitsAreInOrder := by
  intro σ n rom p draw w hp cfo w' h out
  refine ⟨rfl, decodeWindow_length_of_sound hp n rom draw w, fun i hi t ht => ⟨draw (i * 48 + t), ?_⟩⟩
  intro body z b hb
  have hgroup : t * p.bps + b < 48 * p.bps := by
    have : (t + 1) * p.bps ≤ 48 * p.bps := Nat.mul_le_mul_right _ ht
    rw [Nat.succ_mul] at this
    omega
  calc out.bits.getD ((i * 48 + t) * p.bps + b) false
      = out.bits.getD (i * (48 * p.bps) + (t * p.bps + b)) false := by congr 1; ring
    _ = (demodSymbol n rom p draw w' h i).getD (t * p.bps + b) false :=
        concatMap_getD (fun i _ => demodSymbol_length hp n rom draw w' h i) _ hi hgroup
    _ = (decideBits n p (draw (i * 48 + t)) z).getD b false := demodSymbol_getD hp n rom draw w' h i ht hb
    _ = _ := decideBits_getD hp n _ z hb

end Sys2Proof.Machine
end

section
/-! Bit vectors and their bytes (`00_scope.md` R12, `43_frame_validator.md` R212), bit by bit. -/

namespace Sys2Proof

/-- Bit `i` of `toint(b)` is bit `i` from the end of `b`, 0 past its start. -/
theorem toInt_testBit (b : Bits) (i : Nat) : (toInt b).testBit i = b.reverse.getD i false := by
  induction b using List.reverseRecOn generalizing i with
  | nil => simp [toInt]
  | append_singleton b bit ih =>
    have value : toInt (b ++ [bit]) = Nat.bit bit (toInt b) := by rw [toInt_concat, Nat.bit_val]
    rw [value, List.reverse_concat]
    cases i with
    | zero => rw [Nat.testBit_bit_zero, List.getD_cons_zero]
    | succ i => rw [Nat.testBit_bit_succ, List.getD_cons_succ, ih]

/-- The same from the front: the first bit is the most significant. -/
theorem toInt_testBit_rev {b : Bits} {t : Nat} (h : t < b.length) :
    (toInt b).testBit (b.length - 1 - t) = b.getD t false := by
  rw [toInt_testBit, List.getD_reverse _ (by omega)]
  congr 1
  omega

theorem toInt_lt (b : Bits) : toInt b < 2 ^ b.length :=
  Nat.lt_pow_two_of_testBit _ fun i hi => by
    rw [toInt_testBit, List.getD_eq_default _ _ (by rwa [List.length_reverse])]

theorem toBits_toInt (b : Bits) : toBits b.length (toInt b) = b := by
  refine List.ext_getElem (toBits_length _ _) fun t _ ht => ?_
  rw [← List.getD_eq_getElem _ false, ← List.getD_eq_getElem _ false, toBits_getD _ ht, toInt_testBit_rev ht]

theorem toInt_toBits {k v : Nat} (h : v < 2 ^ k) : toInt (toBits k v) = v := by
  have hlt : toInt (toBits k v) < 2 ^ k := by simpa using toInt_lt (toBits k v)
  refine Nat.eq_of_testBit_eq fun i => ?_
  rcases lt_or_ge i k with hi | hi
  · rw [toInt_testBit, List.getD_reverse _ (by rwa [toBits_length]), toBits_length, toBits_getD _ (by omega)]
    congr 1
    omega
  · have hpow := Nat.pow_le_pow_right two_pos hi
    rw [Nat.testBit_eq_false_of_lt (hlt.trans_le hpow), Nat.testBit_eq_false_of_lt (h.trans_le hpow)]

theorem pack_length (b : Bits) : (pack b).length = (b.length + 7) / 8 := by
  rw [pack, tabulate_length, padTo_length_eq b (by decide), Nat.mul_div_cancel _ (by decide),
    Nat.add_sub_assoc (by decide)]

/-- The bits of a byte, most significant first; those past the end of the vector are 0 (R212). -/
theorem pack_getLsbD (b : Bits) {i j : Nat} (hi : i < (b.length + 7) / 8) (hj : j < 8) :
    ((pack b).getD i 0).getLsbD (7 - j) = b.getD (8 * i + j) false := by
  have hend : 8 * (i + 1) ≤ (padTo 8 b).length := by rw [padTo_length_eq b (by decide)]; omega
  have hl : (slice (padTo 8 b) (8 * i) (8 * (i + 1))).length = 8 := by rw [slice_length_of_le _ hend]; omega
  have bit := toInt_testBit_rev (t := j) (by rwa [hl])
  rw [hl, slice_getD _ _ (by omega), padTo_getD] at bit
  rw [pack, tabulate_getD _ _ _ (by omega), BitVec.getLsbD_ofNat, decide_eq_true (by omega), Bool.true_and, bit]

/-- Settles O43: the bits of `toint(b)` are those of `b`, and a byte is the integer of its eight bits. -/
theorem bitVectorsAreMsbFirst : Obligations.BitVectorsAreMsbFirst :=
  ⟨fun _ _ => toInt_toBits, fun b => ⟨toInt_lt b, toBits_toInt b⟩,
    fun b => ⟨pack_length b, fun _ hi _ hj => pack_getLsbD b hi hj⟩⟩

end Sys2Proof
end

section
/-! `FCS.BUILD` and `FCS.CHECK` (`43_frame_validator.md` R216, R218): the work on the message popped. -/

namespace Sys2Proof.Machine

variable {s : State} {p : Plan Scalar} {msg : Bits} {rest : List Bits}

/-- `FCS.BUILD` in `READY`, with room and a payload. -/
theorem exec_fcsBuild_message (seq : BitVec 16) (hr : s.phase = .ready) (hp : s.plan = some p)
    (ho : s.fcsOut.length < Config.depthFcsOut) (hi : s.fcsIn = msg :: rest) :
    exec (.fcsBuild seq) s = .next
      (if msg.length ≠ p.payload then complete .buffer s
       else complete .ok { s with fcsIn := rest, fcsOut := s.fcsOut ++ [buildFrame p seq.toNat msg] }) :=
  congrArg _ ((withPlan_ready _ hr hp).trans (withHead_cons _ ho hi))

/-- `FCS.CHECK` in `READY`, with room and a message. -/
theorem exec_fcsCheck_message (hr : s.phase = .ready) (hp : s.plan = some p)
    (ho : s.fcsOut.length < Config.depthFcsOut) (hi : s.fcsIn = msg :: rest) :
    exec .fcsCheck s = .next
      (if msg.length < p.frameBits then complete .buffer s
       else if frameIntact p msg then acceptFrame p msg rest s
       else raiseFrameIntegrityError { s with fcsIn := rest }) :=
  congrArg _ ((withPlan_ready _ hr hp).trans (withHead_cons _ ho hi))

/-- The head is what is left of the first `frameBits` bits without their last 32 (R218). -/
theorem checkedHead_eq_take (p : Plan Scalar) (msg : Bits) :
    checkedHead p msg = (msg.take p.frameBits).take (p.frameBits - 32) := by
  rw [checkedHead, slice_zero, List.take_take, min_eq_left (Nat.sub_le _ _)]

/-- The test of R218 on the first `frameBits` bits, cut before the trailer. -/
theorem frameIntact_iff (p : Plan Scalar) (msg : Bits) :
    frameIntact p msg = true ↔ (crc32 (pack ((msg.take p.frameBits).take (p.frameBits - 32)))).toNat =
      toInt ((msg.take p.frameBits).drop (p.frameBits - 32)) := by
  rw [frameIntact, decide_eq_true_iff, frameCrc, checkedHead_eq_take, carriedCrc, slice, List.drop_take]

/-- Settles O44: the plan guard decides by the phase, the FIFO guard by output and input, and the payload's length by
whether there is a frame. -/
theorem fcsBuildFollowsItsRule : Obligations.FcsBuildFollowsItsRule := by
  refine fun seq s => ⟨fun h => congrArg _ (withPlan_of_fatal _ h),
    fun h => congrArg _ (withPlan_of_unconfigured _ h), fun p hr hp => ⟨fun h => ?_, fun payload rest ho hi => ?_⟩⟩
  · exact congrArg _ ((withPlan_ready _ hr hp).trans (withHead_of_full_or_empty _ h))
  · rw [exec_fcsBuild_message seq hr hp ho hi]
    exact ⟨fun hl => by rw [if_pos hl]; rfl, fun hl => by rw [if_neg (not_not.2 hl)]; rfl⟩

/-- Settles O45: the guards decide first, then the message's length, then its CRC. -/
theorem fcsCheckFollowsItsRule : Obligations.FcsCheckFollowsItsRule := by
  refine fun s => ⟨fun h => congrArg _ (withPlan_of_fatal _ h),
    fun h => congrArg _ (withPlan_of_unconfigured _ h), fun p hr hp => ⟨fun h => ?_, fun msg rest ho hi => ?_⟩⟩
  · exact congrArg _ ((withPlan_ready _ hr hp).trans (withHead_of_full_or_empty _ h))
  · intro f head got intact
    rw [exec_fcsCheck_message hr hp ho hi]
    refine ⟨fun hl => by rw [if_pos hl]; rfl, fun hl hc => ?_, fun hl hc => ?_⟩
    · rw [if_neg hl.not_gt, if_pos ((frameIntact_iff p msg).2 hc), acceptFrame, checkedHead_eq_take]
      by_cases ha : p.arq = 1 <;> simp [ha] <;> rfl
    · rw [if_neg hl.not_gt, if_neg (mt (frameIntact_iff p msg).1 hc)]; rfl

end Sys2Proof.Machine
end

section
/-! One inverted bit (`43_frame_validator.md` R222): the inner loop of the CRC loses nothing, so a change in one byte
changes the CRC. -/

namespace Sys2Proof

/-- One turn of the loop puts bit 0 into bit 31, where the polynomial is 1 and the shifted word 0. -/
theorem crcShift_msb (crc : BitVec 32) : (crcShift crc).getLsbD 31 = crc.getLsbD 0 := by
  cases h : crc[0] <;> simp [crcShift, h]

/-- One turn of the loop can be undone. -/
theorem crcShift_injective : Function.Injective crcShift := fun x y h => by
  have low : x.getLsbD 0 = y.getLsbD 0 := by rw [← crcShift_msb, h, crcShift_msb]
  have high : x >>> 1 = y >>> 1 := by
    unfold crcShift at h
    rw [low] at h
    split at h
    · exact (BitVec.xor_left_inj _).1 h
    · exact h
  refine BitVec.eq_of_getLsbD_eq fun i _ => ?_
  cases i with
  | zero => exact low
  | succ i => simpa [Nat.add_comm] using congrArg (BitVec.getLsbD · i) high

theorem crcShifts_injective : ∀ k, Function.Injective (crcShifts k)
  | 0 => Function.injective_id
  | k + 1 => (crcShifts_injective k).comp crcShift_injective

theorem crcByte_left_injective (b : BitVec 8) : Function.Injective (crcByte · b) := fun _ _ h =>
  (BitVec.xor_left_inj _).1 (crcShifts_injective 8 h)

theorem crcByte_right_injective (crc : BitVec 32) : Function.Injective (crcByte crc) := fun x y h => by
  have h' := (BitVec.xor_right_inj crc).1 (crcShifts_injective 8 h)
  simpa using congrArg (BitVec.setWidth 8) h'

theorem foldl_crcByte_injective (bytes : List (BitVec 8)) : Function.Injective (bytes.foldl crcByte) := by
  induction bytes with
  | nil => exact Function.injective_id
  | cons b bytes ih => exact ih.comp (crcByte_left_injective b)

/-- The loop over the bytes tells apart vectors that differ in one byte. -/
theorem set_eq_of_foldl_crcByte_eq {bytes : List (BitVec 8)} {i : Nat} {b : BitVec 8} {crc : BitVec 32}
    (h : (bytes.set i b).foldl crcByte crc = bytes.foldl crcByte crc) : bytes.set i b = bytes := by
  induction bytes generalizing i crc with
  | nil => rfl
  | cons a bytes ih =>
    cases i with
    | zero =>
      have hb : b = a := crcByte_right_injective crc (foldl_crcByte_injective bytes h)
      rw [hb, List.set_cons_zero]
    | succ i => rw [List.set_cons_succ, ih h]

/-- One changed bit changes one byte. -/
theorem exists_pack_set_eq (b : Bits) (j : Nat) (bit : Bool) :
    ∃ byte, pack (b.set j bit) = (pack b).set (j / 8) byte := by
  refine ⟨(pack (b.set j bit)).getD (j / 8) 0, List.ext_getElem (by simp [pack_length]) fun i hi hi' => ?_⟩
  rw [List.getElem_set]
  split
  case isTrue he => subst he; rw [List.getD_eq_getElem _ _ hi]
  case isFalse hne =>
    rw [List.length_set] at hi'
    rw [← List.getD_eq_getElem _ 0 hi, ← List.getD_eq_getElem _ 0 hi']
    rw [pack_length] at hi hi'
    refine BitVec.eq_of_getLsbD_eq fun k hk => ?_
    rw [show k = 7 - (7 - k) by omega, pack_getLsbD _ hi (by omega), pack_getLsbD _ hi' (by omega)]
    simp only [List.getD, List.getElem?_set_ne (show j ≠ 8 * i + (7 - k) by omega)]

/-- Vectors of one length are told apart by their bytes. -/
theorem eq_of_pack_eq {b b' : Bits} (hl : b.length = b'.length) (h : pack b = pack b') : b = b' := by
  refine List.ext_getElem hl fun t ht ht' => ?_
  rw [← List.getD_eq_getElem _ false ht, ← List.getD_eq_getElem _ false ht', ← Nat.div_add_mod t 8,
    ← pack_getLsbD b (by omega) (by omega), ← pack_getLsbD b' (by omega) (by omega), h]

/-- A head with a changed bit has another CRC. -/
theorem set_eq_of_frameCrc_eq {head : Bits} {j : Nat} {bit : Bool} (h : frameCrc (head.set j bit) = frameCrc head) :
    head.set j bit = head := by
  obtain ⟨byte, hb⟩ := exists_pack_set_eq head j bit
  refine eq_of_pack_eq List.length_set ?_
  rw [frameCrc, frameCrc, hb] at h
  rw [hb]
  exact set_eq_of_foldl_crcByte_eq ((BitVec.xor_left_inj _).1 h)

/-- An inverted bit is another vector. -/
theorem set_not_getD_ne_self {b : Bits} {j : Nat} (h : j < b.length) : b.set j (!b.getD j false) ≠ b := fun he => by
  have := congrArg (List.getD · j false) he
  simp [h] at this

end Sys2Proof

namespace Sys2Proof.Machine

section Frames

variable {p : Plan Scalar} {head trailer : Bits}

/-- The CRC test on a head and a trailer: the trailer is the head's (R214, R218). -/
theorem frameIntact_append (hf : p.frameBits = head.length + 32) (ht : trailer.length = 32) :
    frameIntact p (head ++ trailer) = true ↔ trailer = toBits 32 (frameCrc head).toNat := by
  have hall : (head ++ trailer).take p.frameBits = head ++ trailer :=
    List.take_of_length_le (by rw [List.length_append, ht, hf])
  have hcut : p.frameBits - 32 = head.length := by omega
  rw [frameIntact_iff, hall, hcut, List.take_left, List.drop_left, ← frameCrc]
  refine ⟨fun h => ?_, fun h => ?_⟩
  · rw [h, ← ht, toBits_toInt]
  · rw [h, toInt_toBits (BitVec.isLt _)]

/-- One inverted bit, in the head or in the trailer, and the two do not match. -/
theorem frameIntact_set_not (hf : p.frameBits = head.length + 32) {j : Nat} (hj : j < p.frameBits) :
    let frame := head ++ toBits 32 (frameCrc head).toNat
    frameIntact p (frame.set j (!frame.getD j false)) = false := by
  intro frame
  rw [Bool.eq_false_iff]
  rcases lt_or_ge j head.length with hh | hh
  · have cut : frame.set j (!frame.getD j false) =
        head.set j (!head.getD j false) ++ toBits 32 (frameCrc head).toNat := by
      rw [List.set_append_left _ _ hh, List.getD_append _ _ _ _ hh]
    rw [cut, ne_eq, frameIntact_append (by rwa [List.length_set]) (toBits_length _ _)]
    intro h
    have crc : frameCrc (head.set j (!head.getD j false)) = frameCrc head := by
      have := congrArg toInt h
      rw [toInt_toBits (BitVec.isLt _), toInt_toBits (BitVec.isLt _)] at this
      exact (BitVec.eq_of_toNat_eq this).symm
    exact set_not_getD_ne_self hh (set_eq_of_frameCrc_eq crc)
  · have cut : frame.set j (!frame.getD j false) = head ++ (toBits 32 (frameCrc head).toNat).set (j - head.length)
        (!(toBits 32 (frameCrc head).toNat).getD (j - head.length) false) := by
      rw [List.set_append_right _ _ hh, List.getD_append_right _ _ _ _ hh]
    rw [cut, ne_eq, frameIntact_append hf (by rw [List.length_set, toBits_length])]
    exact set_not_getD_ne_self (by rw [toBits_length]; omega)

/-- The bits before the trailer of a frame of a sound plan. -/
theorem frameBits_eq_frameHead_length (hp : p.Sound) (seq : Nat) {payload : Bits} (hl : payload.length = p.payload) :
    p.frameBits = (frameHead p seq payload).length + 32 := by
  rw [← buildFrame_length hp seq hl, buildFrame, List.length_append, toBits_length]

end Frames

/-- `FCS.CHECK` takes the first `frameBits` bits alone (R218). -/
theorem exec_fcsCheck_append {s : State} {p : Plan Scalar} {frame : Bits} (hr : s.phase = .ready) (hp : s.plan = some p)
    (ho : s.fcsOut.length < Config.depthFcsOut) (hf : p.frameBits ≤ frame.length) (extra : Bits) (rest : List Bits) :
    exec .fcsCheck { s with fcsIn := (frame ++ extra) :: rest } =
      exec .fcsCheck { s with fcsIn := frame :: rest } := by
  have run (msg : Bits) := exec_fcsCheck_message (s := { s with fcsIn := msg :: rest }) hr hp ho rfl
  have hlong : ¬ (frame ++ extra).length < p.frameBits := by rw [List.length_append]; omega
  have hhead : checkedHead p (frame ++ extra) = checkedHead p frame := by
    rw [checkedHead, checkedHead, slice_zero, slice_zero, List.take_append_of_le_length (by omega)]
  have hintact : frameIntact p (frame ++ extra) = frameIntact p frame := by
    rw [Bool.eq_iff_iff, frameIntact_iff, frameIntact_iff, List.take_append_of_le_length hf]
  rw [run, run, if_neg hlong, if_neg hf.not_gt,
    hintact]
  simp only [acceptFrame, hhead]

/-- Settles O48: an inverted bit breaks the match of head and trailer, and what follows is not looked at. -/
theorem oneInvertedBitIsDetected : Obligations.OneInvertedBitIsDetected := by
  intro s p seq payload extra rest hs hr hp ho hl frame
  have hlen : frame.length = p.frameBits := buildFrame_length hs _ hl
  refine ⟨hlen, fun j hj => ⟨raiseFrameIntegrityError { s with fcsIn := rest }, ?_, rfl, rfl, rfl⟩, fun extra' => ?_⟩
  · have hset : (frame.set j (!frame.getD j false)).length = p.frameBits := by rw [List.length_set, hlen]
    have broken : frameIntact p (frame.set j (!frame.getD j false)) = false :=
      frameIntact_set_not (frameBits_eq_frameHead_length hs _ hl) hj
    rw [exec_fcsCheck_append hr hp ho hset.ge,
      exec_fcsCheck_message (s := { s with fcsIn := _ :: rest }) hr hp ho rfl, if_neg hset.not_lt, broken]
    rfl
  · rw [exec_fcsCheck_append hr hp ho hlen.ge, exec_fcsCheck_append hr hp ho hlen.ge]

end Sys2Proof.Machine
end

section
/-! The control and read-out commands and the two resets (`45_control_ops.md` R230 to R237, `70_reset_and_hazards.md`
R280): the fields of STATUS, the read-outs by their index, and the reset values. -/

namespace Sys2Proof.Machine

/-- Settles O6: `NOP` is the completion OK and nothing else. -/
theorem nopCompletes : Obligations.NopCompletes := fun _ => rfl

section StatusFields

variable {σ : Type} (s : State σ)

/-! The fields of STATUS (R23), read from the low end: each reading drops the fields below it and those above. -/

theorem statusWord_phase : (statusWord s).extractLsb' 0 2 = s.phase.toBits := by
  rw [statusWord, BitVec.extractLsb'_append_eq_right]

theorem statusWord_demFound : (statusWord s).getLsbD 2 = s.demFound := by
  rw [statusWord, BitVec.getLsbD_append, if_neg (by decide), BitVec.getLsbD_append, if_pos (by decide),
    BitVec.getLsbD_ofBool]
  rfl

theorem statusWord_fcsOk : (statusWord s).getLsbD 3 = s.fcsOk := by
  rw [statusWord, BitVec.getLsbD_append, if_neg (by decide), BitVec.getLsbD_append, if_neg (by decide),
    BitVec.getLsbD_append, if_pos (by decide), BitVec.getLsbD_ofBool]
  rfl

theorem statusWord_last : (statusWord s).extractLsb' 4 4 = s.last.toBits := by
  rw [statusWord, BitVec.extractLsb'_append_eq_of_le (by decide), BitVec.extractLsb'_append_eq_of_le (by decide),
    BitVec.extractLsb'_append_eq_of_le (by decide), BitVec.extractLsb'_append_eq_right]

theorem statusWord_reserved : (statusWord s).extractLsb' 8 24 = 0#24 := by
  rw [statusWord, BitVec.extractLsb'_append_eq_of_le (by decide), BitVec.extractLsb'_append_eq_of_le (by decide),
    BitVec.extractLsb'_append_eq_of_le (by decide), BitVec.extractLsb'_append_eq_left]

/-- STATUS is 0 where each of its fields has its reset value (R39). -/
theorem statusWord_eq_zero {s : State σ} (hl : s.last = .ok) (hf : s.fcsOk = false) (hd : s.demFound = false)
    (hp : s.phase = .unconfigured) : statusWord s = 0 := by
  rw [statusWord, hl, hf, hd, hp]; rfl

end StatusFields

/-- Settles O7: the value is the STATUS word, read field by field. -/
theorem statRdReturnsTheStatusFields : Obligations.StatRdReturnsTheStatusFields := by
  intro s
  refine ⟨statusWord s, rfl, ?_, statusWord_demFound s, statusWord_fcsOk s, ?_, statusWord_reserved s⟩
  · rw [statusWord_phase]; cases s.phase <;> rfl
  · rw [statusWord_last]; cases s.last <;> rfl

/-- A read-out at an unused index is an illegal command (R51). -/
theorem readOut_of_unused {σ : Type} {value : Option (Value σ)} {used : Prop} (hv : value.isSome = true ↔ used)
    (hu : ¬ used) (s : State σ) : readOut value s = complete .illegalCommand s := by
  rw [Option.not_isSome_iff_eq_none.1 (mt hv.1 hu), readOut]

/-- Settles O8: each index in use reads its register, the others read none. -/
theorem resRdReturnsTheRegister : Obligations.ResRdReturnsTheRegister := by
  intro s reg ok
  split_ifs
  case neg => exact congrArg _ (readOut_of_unused (resFile_read_isSome s.res reg) (by bv_omega) s)
  all_goals subst reg; rfl

/-- Settles O9: each index in use reads its counter, the others read none. -/
theorem cntRdReturnsTheCounter : Obligations.CntRdReturnsTheCounter := by
  intro s cnt ok
  split_ifs
  case neg => exact congrArg _ (readOut_of_unused (cntFile_read_isSome s.cnt cnt) (by bv_omega) s)
  all_goals subst cnt; rfl

/-- Settles O10: the two cases of `CNT.CLR` by the phase. -/
theorem cntClrClearsTheCounters : Obligations.CntClrClearsTheCounters := by
  intro s
  obtain ⟨t, ht⟩ := exec_next .cntClr s
  rcases execCntClr_cases ht with ⟨hf, rfl⟩ | ⟨hf, rfl⟩
  · exact ⟨fun _ => ht, absurd hf⟩
  · exact ⟨fun h => absurd h hf, fun _ => ht⟩

/-- The reset values are those of `State.init`, whatever stands at the interface and however many free values have been
drawn (R39; logs 7, 8, 10). -/
theorem init_atResetValues (port : List HostAction) (response : Option Response) (popped : Option Message)
    (draws : Nat) :
    ({ State.init Config.num.zero with port, response, popped, draws } : State).AtResetValues :=
  ⟨rfl, rfl, rfl, statusWord_eq_zero rfl rfl rfl rfl, rfl, rfl, rfl, rfl, rfl, rfl, rfl, rfl⟩

/-- Settles O11: the reset state and the states that both resets lead to are `State.init` but for the interface. -/
theorem bothResetsGiveTheResetValues : Obligations.BothResetsGiveTheResetValues := by
  refine ⟨init_atResetValues .., fun s => ?_, fun s rest => ?_⟩
  · exact ⟨complete .ok (resetBlock Config.num.zero s), rfl, init_atResetValues .., rfl⟩
  · exact ⟨resetBlock Config.num.zero { s with port := rest }, rfl, init_atResetValues ..⟩

end Sys2Proof.Machine
end

section
/-! ConfigError (`60_exceptions.md` R253, R258): when each guard and each command ends in `FATAL`, and what a raise
leaves, for the block over every implementation. -/

namespace Sys2Proof.Machine

variable {σ : Type} {c : Impl σ} {s t : State σ}

section Guards

/-- Where phase and plan agree, the plan guard itself raises in `UNCONFIGURED` alone. -/
theorem withPlan_fatal_iff {work : Plan σ → State σ} {raises : Prop} (hf : s.phase ≠ .fatal)
    (ha : s.phase = .ready → s.plan ≠ none) (hw : ∀ p, s.plan = some p → ((work p).phase = .fatal ↔ raises)) :
    (withPlan s work).phase = .fatal ↔ s.phase = .unconfigured ∨ (s.phase = .ready ∧ raises) := by
  rcases withPlan_cases s work with ⟨h, -⟩ | ⟨hu | ⟨hr, hn⟩, e⟩ | ⟨hr, p, hp, e⟩
  · exact absurd h hf
  · simp [e, hu]
  · exact absurd hn (ha hr)
  · simp [e, hr, hw p hp]

/-- The plan guard around a work that raises nothing. -/
theorem withPlan_fatal_iff_unconfigured {work : Plan σ → State σ} (hf : s.phase ≠ .fatal)
    (ha : s.phase = .ready → s.plan ≠ none) (hw : ∀ p, (work p).phase ≠ .fatal) :
    (withPlan s work).phase = .fatal ↔ s.phase = .unconfigured := by
  simpa using withPlan_fatal_iff (raises := False) hf ha fun p _ => iff_false_intro (hw p)

/-- The configuration guard raises nothing of its own. -/
theorem whileUnconfigured_fatal_iff {work : State σ} (hf : s.phase ≠ .fatal) :
    (whileUnconfigured s work).phase = .fatal ↔ s.phase = .unconfigured ∧ work.phase = .fatal := by
  rcases whileUnconfigured_cases s work with ⟨h, -⟩ | ⟨hr, e⟩ | ⟨hu, e⟩
  · exact absurd h hf
  · simp [e, hr]
  · simp [e, hu]

variable {α β : Type} {capacity : Nat} {out : List α} {input : List β} {work : β → List β → State σ}

/-- The FIFO guard raises nothing of its own. -/
theorem withHead_fatal_iff (hf : s.phase ≠ .fatal) :
    (withHead s capacity out input work).phase = .fatal ↔
      out.length < capacity ∧ ∃ head rest, input = head :: rest ∧ (work head rest).phase = .fatal := by
  rcases withHead_cases s capacity out input work with ⟨hfull | hempty, e⟩ | ⟨ho, head, rest, hi, e⟩ <;> rw [e]
  · simp [hf, hfull.not_gt]
  · simp [hf, hempty]
  · simp [ho, hi]

/-- Behind the FIFO guard a work that leaves the phase alone raises nothing. -/
theorem withHead_not_fatal (hf : s.phase ≠ .fatal) (hw : ∀ head rest, (work head rest).phase = s.phase) :
    (withHead s capacity out input work).phase ≠ .fatal := by
  simp [withHead_fatal_iff hf, hw, hf]

end Guards

section Causes

/-! The rows of R253, command by command. -/

theorem planBuildOf_fatal_iff (hf : s.phase ≠ .fatal) (h : planBuildOf c s = .next t) :
    t.phase = .fatal ↔ s.phase = .unconfigured ∧ ∀ v, cfgValues s.cfg = some v → ¬ v.Legal c.qmax := by
  cases h
  refine (whileUnconfigured_fatal_iff hf).trans (and_congr_right fun _ => ?_)
  cases cfgValues s.cfg with
  | none => simp
  | some v => by_cases hl : v.Legal c.qmax <;> simp [hl, cfgLegal_iff]

theorem modRunOn_fatal_iff {pre : Bool} {p : Plan σ} {bits : Bits} {rest : List Bits} (hf : s.phase ≠ .fatal) :
    (modRunOn c pre s p bits rest).phase = .fatal ↔ bits = [] := by
  rcases modRunOn_cases c pre s p bits rest with ⟨hb, e⟩ | ⟨hb, e⟩ <;> rw [e] <;> simp [hb, hf]

theorem modRunOf_fatal_iff {pre : Bool} (hf : s.phase ≠ .fatal) (ha : s.phase = .ready → s.plan ≠ none)
    (h : modRunOf c pre s = .next t) :
    t.phase = .fatal ↔ s.phase = .unconfigured ∨
      (s.phase = .ready ∧ s.modOut.length < c.depthModOut ∧ ∃ rest, s.modIn = [] :: rest) := by
  cases h
  exact withPlan_fatal_iff hf ha fun p _ => by simp [withHead_fatal_iff hf, modRunOn_fatal_iff hf]

theorem demRunOf_fatal_iff (hf : s.phase ≠ .fatal) (ha : s.phase = .ready → s.plan ≠ none)
    (h : demRunOf c s = .next t) :
    t.phase = .fatal ↔ s.phase = .unconfigured ∨
      (s.phase = .ready ∧ c.demapQam = .refuse ∧ ∃ p, s.plan = some p ∧ 2 < p.m) := by
  cases h
  refine withPlan_fatal_iff hf ha fun p hp => ?_
  split_ifs with hq
  · simp [hp, hq]
  · refine iff_of_false (withHead_not_fatal hf (demRunOn_phase c s p)) ?_
    rintro ⟨href, p', hp', hm⟩
    obtain rfl := Option.some.inj (hp.symm.trans hp')
    exact hq ⟨hm, href⟩

theorem fcsBuildOf_fatal_iff {seq : BitVec 16} (hf : s.phase ≠ .fatal) (ha : s.phase = .ready → s.plan ≠ none)
    (h : fcsBuildOf c seq s = .next t) : t.phase = .fatal ↔ s.phase = .unconfigured := by
  cases h
  exact withPlan_fatal_iff_unconfigured hf ha fun p => withHead_not_fatal hf fun payload rest => by split_ifs <;> rfl

theorem fcsCheckOf_fatal_iff (hf : s.phase ≠ .fatal) (ha : s.phase = .ready → s.plan ≠ none)
    (h : fcsCheckOf c s = .next t) : t.phase = .fatal ↔ s.phase = .unconfigured := by
  cases h
  exact withPlan_fatal_iff_unconfigured hf ha fun p => withHead_not_fatal hf fun msg rest => by split_ifs <;> rfl

theorem readOut_phase (value : Option (Value σ)) (s : State σ) : (readOut value s).phase = s.phase := by
  rw [readOut_frame]

/-- The commands that are not in the table raise nothing. -/
theorem execOf_not_fatal_of_no_row {i : Instr} (hi : processing i = false) (hb : i ≠ .planBuild)
    (hf : s.phase ≠ .fatal) (h : execOf c i s = .next t) : t.phase ≠ .fatal := by
  cases i with
  | modRun _ | demRun | fcsBuild _ | fcsCheck => cases hi
  | planBuild => exact absurd rfl hb
  | nop | statRd => cases h; exact hf
  | cfgWr field value => rcases execCfgWr_cases h with rfl | rfl | ⟨-, -, rfl⟩ <;> exact hf
  | resRd reg => cases h; rwa [readOut_phase]
  | cntRd cnt => cases h; rwa [readOut_phase]
  | cntClr => rcases execCntClr_cases h with ⟨-, rfl⟩ | ⟨-, rfl⟩ <;> exact hf
  | sreset => cases h; exact nofun

end Causes

/-- Settles O50: the table row by row, and the commands that have no row. -/
theorem configErrorCauses : Obligations.ConfigErrorCauses := by
  intro i s t hf ha h
  rw [exec_eq_execOf] at h
  cases i with
  | planBuild => simp [planBuildOf_fatal_iff hf h, processing]
  | modRun pre => simp [modRunOf_fatal_iff hf ha h, processing]
  | demRun => simp [demRunOf_fatal_iff hf ha h, processing]
  | fcsBuild seq => simp [fcsBuildOf_fatal_iff hf ha h, processing]
  | fcsCheck => simp [fcsCheckOf_fatal_iff hf ha h, processing]
  | nop | cfgWr _ _ | resRd _ | cntRd _ | cntClr | statRd | sreset =>
    simp [execOf_not_fatal_of_no_row rfl (by simp) hf h, processing]

/-- A command that ends in `FATAL` has raised ConfigError on the state as it was, or is a `MOD.RUN` that has popped an
empty message first (R258). -/
theorem execOf_raise_cases {i : Instr} (hf : s.phase ≠ .fatal) (h : execOf c i s = .next t) (ht : t.phase = .fatal) :
    t = raiseConfigError s ∨
    ∃ pre rest, i = .modRun pre ∧ s.modIn = [] :: rest ∧ t = raiseConfigError { s with modIn := rest } := by
  cases i with
  | planBuild =>
    rcases planBuildOf_cases h with rfl | rfl | ⟨-, rfl⟩ | ⟨-, _, -, -, rfl⟩
    · exact absurd ht hf
    · exact absurd ht hf
    · exact .inl rfl
    · cases ht
  | modRun pre =>
    rcases modRunOf_cases h with ⟨hs, -⟩ | ⟨-, rfl⟩ | rfl | ⟨-, -, p, bits, rest, -, hi, rfl⟩
    · exact absurd hs hf
    · exact .inl rfl
    · exact absurd ht hf
    · obtain rfl := (modRunOn_fatal_iff hf).1 ht
      exact .inr ⟨pre, rest, rfl, hi, rfl⟩
  | demRun =>
    rcases demRunOf_cases h with ⟨hs, -⟩ | ⟨-, rfl⟩ | rfl | ⟨-, -, p, r, rest, -, -, rfl⟩
    · exact absurd hs hf
    · exact .inl rfl
    · exact absurd ht hf
    · exact absurd ((demRunOn_phase c s p r rest).symm.trans ht) hf
  | fcsBuild seq =>
    rcases fcsBuildOf_cases h with ⟨hs, -⟩ | ⟨-, rfl⟩ | rfl | ⟨-, -, _, _, _, -, -, -, rfl⟩
    · exact absurd hs hf
    · exact .inl rfl
    · exact absurd ht hf
    · exact absurd ht hf
  | fcsCheck =>
    rcases fcsCheckOf_cases h with ⟨hs, -⟩ | ⟨-, rfl⟩ | rfl | ⟨-, -, _, _, _, -, -, -, ⟨-, rfl⟩ | ⟨-, rfl⟩⟩
    · exact absurd hs hf
    · exact .inl rfl
    · exact absurd ht hf
    · exact absurd ht hf
    · exact absurd ht hf
  | nop | cfgWr _ _ | resRd _ | cntRd _ | cntClr | statRd | sreset =>
    exact absurd ht (execOf_not_fatal_of_no_row rfl (by simp) hf h)

/-- Settles O51: a raise is the phase and a completion, on the state as it was but for the popped message. -/
theorem configErrorLeavesTheRest : Obligations.ConfigErrorLeavesTheRest := by
  intro i s t hf h ht
  rw [exec_eq_execOf] at h
  rcases execOf_raise_cases hf h ht with rfl | ⟨pre, rest, rfl, hi, rfl⟩
  · exact ⟨rfl, .inl rfl⟩
  · exact ⟨rfl, .inr ⟨pre, rfl, hi⟩⟩

end Sys2Proof.Machine
end

section
/-! The block in `FATAL` (`60_exceptions.md` R259). -/

namespace Sys2Proof.Machine

variable {s : State}

/-- The plan guard turns every processing command away. -/
theorem exec_processing_of_fatal {i : Instr} (hi : processing i = true) (hf : s.phase = .fatal) :
    exec i s = .next (s.completed .configError) := by
  cases i with
  | modRun _ | demRun | fcsBuild _ | fcsCheck => exact congrArg _ (withPlan_of_fatal _ hf)
  | nop | cfgWr _ _ | planBuild | resRd _ | cntRd _ | cntClr | statRd | sreset => cases hi

/-- The configuration guard and `CNT.CLR` turn the other commands away that are not exempt. -/
theorem exec_configuration_of_fatal {i : Instr} (hw : i.WellFormed) (hf : s.phase = .fatal)
    (hi : i = .planBuild ∨ i = .cntClr ∨ ∃ f v, i = .cfgWr f v) : exec i s = .next (s.completed .configError) := by
  rcases hi with rfl | rfl | ⟨f, v, rfl⟩
  · exact congrArg _ (whileUnconfigured_of_fatal _ hf)
  · exact (cntClrClearsTheCounters s).1 hf
  · exact (congrArg _ (if_pos (wellFormed_cfgWr.1 hw))).trans (congrArg _ (whileUnconfigured_of_fatal _ hf))

/-- A read-out at an index in use answers with its value. -/
theorem exists_readOut_eq {value : Option Value} {used : Prop} (hv : value.isSome = true ↔ used) (hu : used) :
    ∃ v, value = some v ∧ readOut value s = { s with last := .ok, response := some ⟨.ok, v⟩ } := by
  obtain ⟨v, rfl⟩ := Option.isSome_iff_exists.1 (hv.2 hu)
  exact ⟨v, rfl, rfl⟩

/-- `push DEM_IN` is no move outside `READY` (R55). -/
theorem step_pushDemIn_ne_next (hr : s.phase ≠ .ready) (rest : List HostAction) (v : Samples Scalar) (t : State) :
    step { s with port := .pushDemIn v :: rest } ≠ .next t := by
  rw [step_eq_stepOf]
  obtain ⟨admission, -⟩ := demInKeepsTheLastBlocks
  obtain ⟨-, refused⟩ := admission Scalar Config.impl s rest v
  exact refused (.inl hr) t

/-- Settles O52: the guards turn the commands away that work on plan, configuration or counters; the others and the
host's moves do as in every phase. -/
theorem fatalAnswers : Obligations.FatalAnswers := by
  intro s rest hf
  obtain ⟨pushMod, -, pushFcs, -, popMod, popDem, popFcs, -⟩ := hostMovesFollowTheirRules s rest
  obtain ⟨-, sreset, -⟩ := bothResetsGiveTheResetValues
  refine ⟨fun i hw hi => ?_, nopCompletes s, ⟨_, rfl⟩, fun reg hreg => ?_, fun cnt hcnt => ?_, ?_, fun w hw => ?_,
    step_pushDemIn_ne_next (by simp [hf]) rest, fun b hl => ⟨_, pushMod b hl, rfl⟩,
    fun b hl => ⟨_, pushFcs b hl, rfl⟩, fun v more ho => ⟨_, popMod v more ho, rfl⟩,
    fun v more ho => ⟨_, popDem v more ho, rfl⟩, fun v more ho => ⟨_, popFcs v more ho, rfl⟩⟩
  · rcases hi with hi | hi
    · exact exec_processing_of_fatal hi hf
    · exact exec_configuration_of_fatal hw hf hi
  · obtain ⟨v, hv, e⟩ := exists_readOut_eq (s := s) (resFile_read_isSome s.res reg) hreg
    exact ⟨v, hv, congrArg _ e⟩
  · obtain ⟨v, hv, e⟩ := exists_readOut_eq (s := s) (cntFile_read_isSome s.cnt cnt) hcnt
    exact ⟨v, hv, congrArg _ e⟩
  · obtain ⟨t, ht, hreset, -⟩ := sreset s
    exact ⟨t, ht, hreset⟩
  · obtain ⟨refused, effect⟩ := illegalWordsAndTheirEffect w s rest
    exact effect (refused.1 hw)

end Sys2Proof.Machine
end

section
/-! The input FIFO of the frame validator (`70_reset_and_hazards.md` R288): what each command, move and step does to it,
for the block over every implementation. -/

namespace Sys2Proof.Machine

variable {σ : Type} {c : Impl σ} {s t : State σ}

theorem readOut_fcsIn (value : Option (Value σ)) (s : State σ) : (readOut value s).fcsIn = s.fcsIn := by
  rw [readOut_frame]

theorem modRunOn_fcsIn (c : Impl σ) (pre : Bool) (s : State σ) (p : Plan σ) (bits : Bits) (rest : List Bits) :
    (modRunOn c pre s p bits rest).fcsIn = s.fcsIn := by
  rcases modRunOn_cases c pre s p bits rest with ⟨-, e⟩ | ⟨-, e⟩ <;> rw [e] <;> rfl

theorem demRunOn_fcsIn (c : Impl σ) (s : State σ) (p : Plan σ) (r : Samples σ) (rest : List (Samples σ)) :
    (demRunOn c s p r rest).fcsIn = s.fcsIn := by
  rcases demRunOn_cases c s p r rest with e | e | ⟨_, _, _, e⟩ <;> rw [e] <;> rfl

/-- A length that `FCS.BUILD` or `FCS.CHECK` accepts under the plan (R216, R218). -/
def FitsFcsIn (p : Plan σ) (msg : Bits) : Prop := msg.length = p.payload ∨ p.frameBits ≤ msg.length

/-- A command leaves `FCS_IN` alone, or takes a head that fits the plan, or is `SRESET`. -/
theorem execOf_fcsIn_cases {i : Instr} (h : execOf c i s = .next t) :
    t.fcsIn = s.fcsIn ∨ (∃ p msg, s.plan = some p ∧ s.fcsIn = msg :: t.fcsIn ∧ FitsFcsIn p msg) ∨ i = .sreset := by
  cases i with
  | nop => cases h; exact .inl rfl
  | cfgWr field value => rcases execCfgWr_cases h with rfl | rfl | ⟨-, -, rfl⟩ <;> exact .inl rfl
  | planBuild =>
    rcases planBuildOf_cases h with rfl | rfl | ⟨-, rfl⟩ | ⟨-, _, -, -, rfl⟩ <;> exact .inl rfl
  | modRun pre =>
    rcases modRunOf_cases h with ⟨-, rfl⟩ | ⟨-, rfl⟩ | rfl | ⟨-, -, p, bits, rest, -, -, rfl⟩
    · exact .inl rfl
    · exact .inl rfl
    · exact .inl rfl
    · exact .inl (modRunOn_fcsIn c pre s p bits rest)
  | demRun =>
    rcases demRunOf_cases h with ⟨-, rfl⟩ | ⟨-, rfl⟩ | rfl | ⟨-, -, p, r, rest, -, -, rfl⟩
    · exact .inl rfl
    · exact .inl rfl
    · exact .inl rfl
    · exact .inl (demRunOn_fcsIn c s p r rest)
  | fcsBuild seq =>
    rcases fcsBuildOf_cases h with ⟨-, rfl⟩ | ⟨-, rfl⟩ | rfl | ⟨-, -, p, payload, rest, hp, hi, hl, rfl⟩
    · exact .inl rfl
    · exact .inl rfl
    · exact .inl rfl
    · exact .inr (.inl ⟨p, payload, hp, hi, .inl hl⟩)
  | fcsCheck =>
    rcases fcsCheckOf_cases h with
      ⟨-, rfl⟩ | ⟨-, rfl⟩ | rfl | ⟨-, -, p, msg, rest, hp, hi, hl, ⟨-, rfl⟩ | ⟨-, rfl⟩⟩
    · exact .inl rfl
    · exact .inl rfl
    · exact .inl rfl
    · exact .inr (.inl ⟨p, msg, hp, hi, .inr hl⟩)
    · exact .inr (.inl ⟨p, msg, hp, hi, .inr hl⟩)
  | resRd reg => cases h; exact .inl (readOut_fcsIn _ s)
  | cntRd cnt => cases h; exact .inl (readOut_fcsIn _ s)
  | cntClr => rcases execCntClr_cases h with ⟨-, rfl⟩ | ⟨-, rfl⟩ <;> exact .inl rfl
  | statRd => cases h; exact .inl rfl
  | sreset => exact .inr (.inr rfl)

/-- A host action lets `FCS_IN` grow at its tail, if at all, or takes a head that fits the plan, or is a reset. -/
theorem takeAction_fcsIn_cases {a : HostAction σ} (h : takeAction c (execOf c) a s = .next t) :
    (∃ pushed, t.fcsIn = s.fcsIn ++ pushed) ∨
    (∃ p msg, s.plan = some p ∧ s.fcsIn = msg :: t.fcsIn ∧ FitsFcsIn p msg) ∨
    a = .command (encode .sreset) ∨ a = .resetInput := by
  have unchanged (e : t.fcsIn = s.fcsIn) : ∃ pushed, t.fcsIn = s.fcsIn ++ pushed := ⟨[], by simp [e]⟩
  cases a with
  | command w =>
    rcases issueWord_cases h with ⟨i, hd, he⟩ | rfl
    · obtain rfl := encode_of_decode hd
      rcases execOf_fcsIn_cases he with hs | ht | rfl
      · exact .inl (unchanged hs)
      · exact .inr (.inl ht)
      · exact .inr (.inr (.inl rfl))
    · exact .inl (unchanged rfl)
  | pushModIn b => obtain ⟨-, rfl⟩ := pushModIn_eq_next.1 h; exact .inl (unchanged rfl)
  | pushFcsIn b => obtain ⟨-, rfl⟩ := pushFcsIn_eq_next.1 h; exact .inl ⟨[b], rfl⟩
  | pushDemIn v => obtain ⟨-, -, -, rfl⟩ := pushDemIn_cases h; exact .inl (unchanged rfl)
  | pop f =>
    rcases popOut_cases h with ⟨_, _, -, rfl⟩ | ⟨_, _, -, rfl⟩ | ⟨_, _, -, rfl⟩ <;> exact .inl (unchanged rfl)
  | resetInput => exact .inr (.inr (.inr rfl))

/-- A step lets `FCS_IN` grow at its tail, if at all, or takes a head that fits the plan, or is a reset. -/
theorem stepOf_fcsIn_cases (h : stepOf c s = .next t) :
    (∃ pushed, t.fcsIn = s.fcsIn ++ pushed) ∨
    (∃ p msg, s.plan = some p ∧ s.fcsIn = msg :: t.fcsIn ∧ FitsFcsIn p msg) ∨
    (∃ rest, s.port = .command (encode .sreset) :: rest) ∨ ∃ rest, s.port = .resetInput :: rest := by
  rcases stepOf_cases h with ⟨-, rfl⟩ | ⟨a, rest, hq, ha⟩
  · exact .inl ⟨[], by simp⟩
  · rcases takeAction_fcsIn_cases (s := { s with port := rest }) ha with hs | ht | rfl | rfl
    · exact .inl hs
    · exact .inr (.inl ht)
    · exact .inr (.inr (.inl ⟨rest, hq⟩))
    · exact .inr (.inr (.inr ⟨rest, hq⟩))

/-- Outside `UNCONFIGURED` a step that is no reset stays outside. -/
theorem step_phase_configured {s t : State} (hph : s.phase = .ready ∨ s.phase = .fatal)
    (hsreset : ∀ rest, s.port ≠ .command (encode .sreset) :: rest) (hreset : ∀ rest, s.port ≠ .resetInput :: rest)
    (h : step s = .next t) : t.phase = .ready ∨ t.phase = .fatal := by
  by_cases hs : t.phase = s.phase
  · rwa [hs]
  · rcases phaseMovesOnlyAsStated s t h hs with ⟨-, hr, -⟩ | ⟨hf, -⟩ | ⟨-, ⟨rest, hq⟩ | ⟨rest, hq⟩⟩
    · exact .inl hr
    · exact .inr hf
    · exact absurd hq (hsreset rest)
    · exact absurd hq (hreset rest)

/-- Settles O49: only a reset takes away a head that does not fit the plan, and only a reset takes away the plan. -/
theorem unfitMessageBlocksFcsIn : Obligations.UnfitMessageBlocksFcsIn := by
  intro s t p msg rest hph hp hi hshort hne hsreset hreset h
  have hu : s.phase ≠ .unconfigured := by rcases hph with hph | hph <;> simp [hph]
  refine ⟨?_, step_phase_configured hph hsreset hreset h, ?_⟩
  · rw [step_eq_stepOf] at h
    rcases stepOf_fcsIn_cases h with ⟨pushed, e⟩ | ⟨p', msg', hp', hi', hfit⟩ | ⟨later, hq⟩ | ⟨later, hq⟩
    · exact ⟨pushed, by rw [e, hi, List.cons_append]⟩
    · obtain rfl : p = p' := Option.some.inj (hp.symm.trans hp')
      obtain ⟨rfl, -⟩ := List.cons.inj (hi.symm.trans hi')
      rcases hfit with hl | hl
      · exact absurd hl hne
      · exact absurd hshort hl.not_gt
    · exact absurd hq (hsreset later)
    · exact absurd hq (hreset later)
  · rcases planChangesOnlyByReset s t p hu hp h with hplan | ⟨-, ⟨later, hq⟩ | ⟨later, hq⟩⟩
    · exact hplan
    · exact absurd hq (hsreset later)
    · exact absurd hq (hreset later)

end Sys2Proof.Machine
end

section
/-! What each command that works on configuration, samples or frames leaves alone (`20_memory.md` R62, and the Writes of
`40_plan_config.md` section 1, `41_modulator.md` section 1, `42_demodulator.md` section 1, `43_frame_validator.md`
sections 2 and 3). The proofs take the work of a command first; the ends before it only complete or raise. -/

namespace Sys2Proof.Machine

/-- Settles O15: a refused command only completes, a raise moves the phase, and the work writes one register or commits
the plan. -/
theorem configurationCommandsFrame : Obligations.ConfigurationCommandsFrame := by
  refine fun s t => ⟨fun field value h => ?_, fun h => ?_⟩
  · rcases execCfgWr_cases h with rfl | rfl | ⟨-, -, rfl⟩
    · exact ⟨rfl, fun _ _ => rfl⟩
    · exact ⟨rfl, fun _ _ => rfl⟩
    · exact ⟨rfl, fun f hf => s.cfg.read_write_of_ne value hf⟩
  · rcases planBuildOf_cases h with rfl | rfl | ⟨-, rfl⟩ | ⟨-, _, -, -, rfl⟩
    pick_goal 4
    · exact ⟨rfl, fun hne => absurd rfl hne⟩
    all_goals exact ⟨rfl, fun _ => rfl⟩

/-- Settles O26: before its work the command only completes or raises; an empty message is popped and raises, any other
is popped and its frame pushed. -/
theorem modRunFrame : Obligations.ModRunFrame := by
  intro pre s t h
  rcases modRunOf_cases h with ⟨-, rfl⟩ | ⟨-, rfl⟩ | rfl | ⟨-, -, p, bits, rest, -, hi, rfl⟩
  pick_goal 4
  · rcases modRunOn_cases Config.impl pre s p bits rest with ⟨-, e⟩ | ⟨-, e⟩ <;> rw [e]
    · exact ⟨rfl, .inr ⟨bits, hi⟩, nofun, fun _ => ⟨rfl, rfl, rfl⟩⟩
    · exact ⟨rfl, .inr ⟨bits, hi⟩, fun _ => ⟨_, rfl⟩, fun hne => absurd rfl hne⟩
  all_goals exact ⟨rfl, .inl rfl, nofun, fun _ => ⟨rfl, rfl, rfl⟩⟩

/-- Settles O28: before its work the command only completes or raises; without a frame one block goes, without the next
block none, and a decoded window takes one block or two. -/
theorem demRunFrame : Obligations.DemRunFrame := by
  intro s t h
  rcases demRunOf_cases h with ⟨-, rfl⟩ | ⟨-, rfl⟩ | rfl | ⟨-, -, p, r, rest, -, hi, rfl⟩
  pick_goal 4
  · rcases demRunOn_cases Config.impl s p r rest with e | e | ⟨w, blocks, hw, e⟩ <;> rw [e]
    · exact ⟨rfl, ⟨1, by decide, by rw [hi]; rfl⟩, nofun, fun _ => ⟨rfl, rfl, rfl⟩, fun _ hne => absurd rfl hne,
        fun _ hne => absurd rfl hne⟩
    · exact ⟨rfl, ⟨0, by decide, rfl⟩, nofun, fun _ => ⟨rfl, rfl, rfl⟩, fun _ _ => ⟨rfl, rfl⟩,
        fun _ _ hne => absurd rfl hne⟩
    · have hblocks : blocks ≤ 2 := by rcases findWindow_blocks hw with rfl | ⟨rfl, -⟩ <;> decide
      exact ⟨rfl, ⟨blocks, hblocks, rfl⟩, fun _ => ⟨rfl, rfl, _, rfl⟩, fun hne => absurd rfl hne,
        fun hne => absurd rfl hne, fun hne => absurd rfl hne⟩
  all_goals
    exact ⟨rfl, ⟨0, by decide, rfl⟩, nofun, fun _ => ⟨rfl, rfl, rfl⟩, fun _ _ => ⟨rfl, rfl⟩, fun _ _ _ => rfl⟩

/-- An accepted frame writes `FCS_SEQ` of the result registers and nothing else of them (R218). -/
theorem acceptFrame_res {σ : Type} (p : Plan σ) (msg : Bits) (rest : List Bits) (s : State σ) :
    (acceptFrame p msg rest s).res = { s.res with fcsSeq := (acceptFrame p msg rest s).res.fcsSeq } := by
  unfold acceptFrame
  split <;> rfl

/-- What an accepted frame leaves alone (R218). -/
theorem acceptFrame_frame {σ : Type} (p : Plan σ) (msg : Bits) (rest : List Bits) (s : State σ) :
    let t := acceptFrame p msg rest s
    t = { s with
          fcsIn := t.fcsIn, fcsOut := t.fcsOut, fcsOk := t.fcsOk
          cnt := { s.cnt with rxTotal := t.cnt.rxTotal, rxOk := t.cnt.rxOk, rxBad := t.cnt.rxBad }
          res := { s.res with fcsSeq := t.res.fcsSeq }
          last := t.last, response := t.response } := by
  intro t
  rw [← acceptFrame_res]
  rfl

/-- Settles O46: before their work the commands only complete or raise; then `FCS.BUILD` moves one message, and
`FCS.CHECK` accepts it or raises FrameIntegrityError. -/
theorem fcsCommandsFrame : Obligations.FcsCommandsFrame := by
  refine fun s t => ⟨fun seq h => ?_, fun h => ?_⟩
  · rcases fcsBuildOf_cases h with ⟨-, rfl⟩ | ⟨-, rfl⟩ | rfl | ⟨-, -, _, _, _, -, -, -, rfl⟩
    pick_goal 4
    · exact ⟨rfl, fun hne => absurd rfl hne⟩
    all_goals exact ⟨rfl, fun _ => ⟨rfl, rfl⟩⟩
  · rcases fcsCheckOf_cases h with
      ⟨-, rfl⟩ | ⟨-, rfl⟩ | rfl | ⟨-, -, p, msg, rest, -, -, -, ⟨-, rfl⟩ | ⟨-, rfl⟩⟩
    pick_goal 4
    · exact ⟨acceptFrame_frame p msg rest s, fun hne => absurd rfl hne, fun hne => absurd rfl hne⟩
    pick_goal 4
    · exact ⟨rfl, fun _ => ⟨rfl, rfl⟩, fun _ hne => absurd rfl hne⟩
    all_goals exact ⟨rfl, fun _ => ⟨rfl, rfl⟩, fun _ _ => ⟨rfl, rfl, rfl⟩⟩

end Sys2Proof.Machine
end

section
/-! Printed words and check values (`95_test_vectors.md`), and the round trip of a frame (`43_frame_validator.md` R221). -/

namespace Sys2Proof

/-- Settles O4: the decoder run on each word. -/
theorem listedWordsDecodeAsListed : Obligations.ListedWordsDecodeAsListed := by
  unfold Obligations.ListedWordsDecodeAsListed
  decide

/-- Settles O42: the CRC run on each vector. -/
theorem crcCheckValues : Obligations.CrcCheckValues := by
  unfold Obligations.CrcCheckValues
  decide +kernel

end Sys2Proof

namespace Sys2Proof.Machine

section RoundTrip

variable {p : Plan Scalar}

/-- The head of a built frame, whatever follows it, is the head it was built from (R214, R218). -/
theorem checkedHead_buildFrame (hp : p.Sound) (seq : Nat) {payload : Bits} (hl : payload.length = p.payload)
    (extra : Bits) : checkedHead p (buildFrame p seq payload ++ extra) = frameHead p seq payload := by
  have hcut : p.frameBits - 32 = (frameHead p seq payload).length := by
    rw [frameBits_eq_frameHead_length hp seq hl, Nat.add_sub_cancel]
  rw [checkedHead, slice_zero, buildFrame, List.append_assoc, hcut, List.take_left]

/-- A built frame, whatever follows it, passes the CRC test (R218). -/
theorem frameIntact_buildFrame (hp : p.Sound) (seq : Nat) {payload : Bits} (hl : payload.length = p.payload)
    (extra : Bits) : frameIntact p (buildFrame p seq payload ++ extra) = true := by
  have hfirst : (buildFrame p seq payload ++ extra).take p.frameBits =
      (buildFrame p seq payload).take p.frameBits :=
    List.take_append_of_le_length (buildFrame_length hp seq hl).ge
  have alone : frameIntact p (buildFrame p seq payload) = true :=
    (frameIntact_append (frameBits_eq_frameHead_length hp seq hl) (toBits_length _ _)).2 rfl
  rw [frameIntact_iff] at alone ⊢
  rw [hfirst, alone]

/-- The payload of a head (R218). -/
theorem payload_of_frameHead (p : Plan Scalar) (seq : Nat) (payload : Bits) :
    (if p.arq = 1 then (frameHead p seq payload).drop 16 else frameHead p seq payload) = payload := by
  by_cases ha : p.arq = 1
  · rw [if_pos ha, frameHead, if_pos ha, List.drop_left' (toBits_length _ _)]
  · rw [if_neg ha, frameHead, if_neg ha, List.nil_append]

/-- The sequence number of a head in stop-and-wait mode (R218). -/
theorem seq_of_frameHead (ha : p.arq = 1) (seq : BitVec 16) (payload : Bits) :
    BitVec.ofNat 16 (toInt (slice (frameHead p seq.toNat payload) 0 16)) = seq := by
  rw [frameHead, if_pos ha, slice_zero, List.take_left' (toBits_length _ _), toInt_toBits seq.isLt,
    BitVec.ofNat_toNat, BitVec.setWidth_eq]

end RoundTrip

/-- Settles O47: the frame pushed is `buildFrame`, which with any bits behind it passes the test and gives its head. -/
theorem fcsRoundTrip : Obligations.FcsRoundTrip := by
  intro s t p seq payload rest hp hr hs ho hi hl h
  rw [exec_fcsBuild_message seq hr hs ho hi, if_neg (not_not.2 hl)] at h
  cases h
  refine ⟨buildFrame p seq.toNat payload, rfl, fun u extra more hur hus huo hui => ?_⟩
  have hlong : ¬ (buildFrame p seq.toNat payload ++ extra).length < p.frameBits := by
    rw [List.length_append, buildFrame_length hp _ hl]
    omega
  have hhead := checkedHead_buildFrame hp seq.toNat hl extra
  refine ⟨acceptFrame p (buildFrame p seq.toNat payload ++ extra) more u, ?_, rfl, ?_, rfl, fun ha => ?_⟩
  · rw [exec_fcsCheck_message hur hus huo hui, if_neg hlong, frameIntact_buildFrame hp _ hl, if_pos rfl]
  · simp only [acceptFrame, complete_fcsOut, hhead, payload_of_frameHead]
  · simp only [acceptFrame, complete_res, hhead, if_pos ha, seq_of_frameHead ha]

end Sys2Proof.Machine
end

section
/-! Neighbours on the grid (`40_plan_config.md` R112): two cells next to each other in the traversal differ in a run of
low bits of their positions, two cells one above the other too, and the Gray word of a run of low bits is one bit. -/

namespace Sys2Proof.Machine

/-- Gray words add bit by bit as their indices do. -/
theorem gray_xor (i j : Nat) : gray (i ^^^ j) = gray i ^^^ gray j := by
  simp only [gray, Nat.shiftRight_xor_distrib]
  ac_rfl

/-- The Gray word of a run of low bits is its highest bit. -/
theorem gray_two_pow_succ_sub_one (k : Nat) : gray (2 ^ (k + 1) - 1) = 2 ^ k := by
  refine Nat.eq_of_testBit_eq fun j => ?_
  rw [gray, Nat.testBit_xor, Nat.testBit_shiftRight, Nat.testBit_two_pow_sub_one, Nat.testBit_two_pow_sub_one,
    Nat.testBit_two_pow]
  grind

/-- A number and the next one differ in a run of low bits. -/
theorem exists_xor_succ_eq (i : Nat) : ∃ k, i ^^^ (i + 1) = 2 ^ (k + 1) - 1 := by
  induction i using Nat.strong_induction_on with
  | _ i ih =>
    rcases Nat.even_or_odd' i with ⟨m, rfl | rfl⟩
    · exact ⟨0, by rw [← Nat.xor_one_of_even (even_two_mul m), Nat.xor_xor_cancel_left]; rfl⟩
    · obtain ⟨k, hk⟩ := ih m (by omega)
      have double : (2 * m + 1) ^^^ (2 * m + 1 + 1) = 2 * (m ^^^ (m + 1)) + 1 := by
        have := Nat.xor_bit true m false (m + 1)
        simpa [Nat.bit_val, mul_add] using this
      refine ⟨k + 1, ?_⟩
      have hpos : 0 < 2 ^ (k + 1) := by positivity
      rw [double, hk, pow_succ _ (k + 1)]
      omega

/-- A cell and the one above it: the row's bits move on by one, and those of the place in the row are all inverted. -/
theorem row_xor_next_row {q r r' x k : Nat} (hx : x < 2 ^ q) (hr : r ^^^ r' = 2 ^ (k + 1) - 1) :
    (2 ^ q * r + x) ^^^ (2 ^ q * r' + (2 ^ q - (x + 1))) = 2 ^ (k + q + 1) - 1 := by
  refine Nat.eq_of_testBit_eq fun j => ?_
  rw [Nat.testBit_xor, Nat.testBit_two_pow_mul_add _ hx, Nat.testBit_two_pow_mul_add _ (by omega),
    Nat.testBit_two_pow_sub_succ hx, Nat.testBit_two_pow_sub_one]
  split
  case isTrue hj => simp [hj, show j < k + q + 1 by omega]
  case isFalse hj =>
    rw [← Nat.testBit_xor, hr, Nat.testBit_two_pow_sub_one]
    simp only [decide_eq_decide]
    omega

/-- Neighbours in a row are next to each other in the traversal (R111). -/
theorem succ_of_column_succ {s i i' : Nat} (hs : 0 < s) (hr : i / s = i' / s)
    (hc : gridColumn s i + 1 = gridColumn s i') : i + 1 = i' ∨ i' + 1 = i := by
  have hx := Nat.mod_lt i hs
  have hx' := Nat.mod_lt i' hs
  have hi := Nat.div_add_mod i s
  have hi' := Nat.div_add_mod i' s
  rw [gridColumn, gridColumn, ← hr] at hc
  rw [← hr] at hi'
  split at hc <;> omega

/-- Neighbours in a column stand at mirrored places of their rows (R111). -/
theorem mod_of_column_eq {s i i' : Nat} (hs : 0 < s) (hr : i / s + 1 = i' / s)
    (hc : gridColumn s i = gridColumn s i') : i' % s = s - (i % s + 1) := by
  have hx := Nat.mod_lt i hs
  have hx' := Nat.mod_lt i' hs
  rw [gridColumn, gridColumn, ← hr] at hc
  split at hc <;> split at hc <;> omega

/-- The positions of neighbours on the grid differ in a run of low bits. -/
theorem exists_neighbour_xor_eq {q i i' : Nat}
    (h : (i / 2 ^ q = i' / 2 ^ q ∧ gridColumn (2 ^ q) i + 1 = gridColumn (2 ^ q) i') ∨
      (gridColumn (2 ^ q) i = gridColumn (2 ^ q) i' ∧ i / 2 ^ q + 1 = i' / 2 ^ q)) :
    ∃ k, i ^^^ i' = 2 ^ (k + 1) - 1 := by
  have hs : 0 < 2 ^ q := by positivity
  rcases h with ⟨hr, hc⟩ | ⟨hc, hr⟩
  · rcases succ_of_column_succ hs hr hc with rfl | rfl
    · exact exists_xor_succ_eq i
    · rw [Nat.xor_comm]
      exact exists_xor_succ_eq i'
  · obtain ⟨k, hk⟩ := exists_xor_succ_eq (i / 2 ^ q)
    refine ⟨k + q, ?_⟩
    have hxor := row_xor_next_row (Nat.mod_lt i hs) hk
    rwa [← mod_of_column_eq hs hr hc, hr, Nat.div_add_mod, Nat.div_add_mod] at hxor

/-- Settles O18: the positions differ in a run of low bits, so their Gray words differ in the highest bit of the run. -/
theorem gridNeighboursDifferInOneBit : Obligations.GridNeighboursDifferInOneBit := by
  intro q i i' _ hi hi' s row col h
  obtain ⟨k, hk⟩ := exists_neighbour_xor_eq h
  have hbit : gray i ^^^ gray i' = 2 ^ k := by rw [← gray_xor, hk, gray_two_pow_succ_sub_one]
  have hsize : 4 ^ q = 2 ^ (2 * q) := by rw [Nat.pow_mul]
  rw [hsize] at hi hi'
  have hlt := Nat.xor_lt_two_pow (gray_lt_two_pow hi) (gray_lt_two_pow hi')
  rw [hbit] at hlt
  exact ⟨k, (Nat.pow_lt_pow_iff_right (by decide)).1 hlt, hbit⟩

end Sys2Proof.Machine
end

section
/-! The samples of BPSK symbols (`41_modulator.md` R131 to R143): the subcarriers of an assembled symbol summed by kind,
the mean of the bins, and Parseval's relation. -/

namespace Sys2Proof

theorem conj_root64_zpow (m : ℤ) : starRingEnd ℂ (root64 ^ m) = root64 ^ (-m) := by
  rw [root64_zpow, root64_zpow, ← Complex.exp_conj]
  congr 1
  simp [Complex.conj_ofNat, neg_div]

theorem conj_ifft (X : Nat → Cx ℝ) (t : Nat) : starRingEnd ℂ (realNum.ifft X t).toComplex =
    1 / 64 * ∑ k ∈ Finset.range 64, starRingEnd ℂ (X k).toComplex * root64 ^ (-((k * t : Nat) : ℤ)) := by
  simp only [realNum_ifft, map_mul, map_sum, map_div₀, map_one, Complex.conj_ofNat, conj_root64_zpow]

/-- Parseval's relation for the inverse transform (R143): summed over the samples, each bin's factors give its own
transform back. -/
theorem sum_normSq_ifft (X : Nat → Cx ℝ) :
    ∑ t ∈ Finset.range 64, Complex.normSq (realNum.ifft X t).toComplex =
      1 / 64 * ∑ k ∈ Finset.range 64, Complex.normSq (X k).toComplex := by
  have transform {k : Nat} (hk : k ∈ Finset.range 64) :
      ∑ t ∈ Finset.range 64, (realNum.ifft X t).toComplex * root64 ^ (-((k * t : Nat) : ℤ)) = (X k).toComplex := by
    rw [← realNum_fft, fft_ifft X (Finset.mem_range.1 hk)]
  rw [← Complex.ofReal_inj]
  push_cast
  calc ∑ t ∈ Finset.range 64, (Complex.normSq (realNum.ifft X t).toComplex : ℂ)
      = ∑ t ∈ Finset.range 64, ∑ k ∈ Finset.range 64, 1 / 64 * (starRingEnd ℂ (X k).toComplex *
          ((realNum.ifft X t).toComplex * root64 ^ (-((k * t : Nat) : ℤ)))) := by
        refine Finset.sum_congr rfl fun t _ => ?_
        rw [← Complex.mul_conj, conj_ifft, Finset.mul_sum, Finset.mul_sum]
        exact Finset.sum_congr rfl fun k _ => by ring
    _ = ∑ k ∈ Finset.range 64, 1 / 64 * (starRingEnd ℂ (X k).toComplex * (X k).toComplex) := by
        rw [Finset.sum_comm]
        refine Finset.sum_congr rfl fun k hk => ?_
        simp only [← Finset.mul_sum, transform hk]
    _ = 1 / 64 * ∑ k ∈ Finset.range 64, (Complex.normSq (X k).toComplex : ℂ) := by
        simp only [← Finset.mul_sum, ← Complex.mul_conj, mul_comm (starRingEnd ℂ _)]

/-- The first body sample is the mean of the bins (R142). -/
theorem realNum_ifft_zero (X : Nat → Cx ℝ) :
    (realNum.ifft X 0).toComplex = 1 / 64 * ∑ k ∈ Finset.range 64, (X k).toComplex := by
  simp [realNum_ifft]

end Sys2Proof

namespace Sys2Proof.Machine

section Subcarriers

variable {σ : Type} {n : Num σ} {rom : Rom σ} {p : Plan σ}

/-- The subcarrier sets of R75, which every legal table gives. -/
structure Plan.StandardSets (p : Plan σ) : Prop where
  pilot_eq : p.pilot = pilotSet
  data_eq : p.data = dataIndices
  active_eq : p.active = activeIndices
  dataCount_eq : p.dataCount = 48

theorem Plan.Sound.standardSets (hp : p.Sound) : p.StandardSets :=
  ⟨hp.pilot_eq, hp.data_eq, hp.active_eq, hp.dataCount_eq⟩

theorem buildPlan_standardSets (v : CfgValues) (ha : activeOf n rom = activeIndices) :
    (buildPlan n rom v).StandardSets := by
  have hd : dataOf (activeOf n rom) = dataIndices := by rw [ha, dataOf_activeIndices]
  exact ⟨rfl, hd, ha, by simp only [buildPlan, hd, dataIndices_length]⟩

/-- A data subcarrier of a symbol carries the point of its ordinal (R134). -/
theorem Plan.StandardSets.assemble_data (hp : p.StandardSets) (n : Num σ) (rom : Rom σ) (points : List (Cx σ)) (i : Nat)
    {t : Nat} (ht : t < 48) :
    assemble n rom p points i (dataIndices.getD t 0) = n.at points (i * 48 + t) := by
  obtain ⟨hpilot, hord⟩ := dataIndices_ordinal t ht
  rw [Machine.assemble_data n rom points i (by rwa [hp.pilot_eq]) (by rwa [hp.data_eq]), hp.dataCount_eq]

/-- Pilots, data and null subcarriers are the 64 indices, each once (R27). -/
theorem standard_sets_perm : (pilotSet ++ dataIndices ++ nullIndices).Perm (List.range 64) := by decide

theorem dataIndices_eq_map : dataIndices = (List.range 48).map fun t => dataIndices.getD t 0 := by decide

theorem sum_range_eq_list_sum {M : Type} [AddCommMonoid M] (k : Nat) (f : Nat → M) :
    ∑ i ∈ Finset.range k, f i = ((List.range k).map f).sum := by
  rw [← List.toFinset_range, List.sum_toFinset f List.nodup_range]

/-- A sum over the subcarriers of a symbol, by kind (R134): pilots, data and nulls. -/
theorem Plan.StandardSets.sum_assemble {M : Type} [AddCommMonoid M] (hp : p.StandardSets) (n : Num σ) (rom : Rom σ)
    (points : List (Cx σ)) (i : Nat) (f : Cx σ → M) :
    ∑ k ∈ Finset.range 64, f (assemble n rom p points i k) =
      (pilotSet.map fun k => f (rom.tref k)).sum + ∑ t ∈ Finset.range 48, f (n.at points (i * 48 + t)) +
        12 • f n.czero := by
  have pilots : pilotSet.map (fun k => f (assemble n rom p points i k)) = pilotSet.map fun k => f (rom.tref k) :=
    List.map_congr_left fun k hk => by rw [assemble_pilot n rom points i (by rwa [hp.pilot_eq])]
  have data : dataIndices.map (fun k => f (assemble n rom p points i k)) =
      (List.range 48).map fun t => f (n.at points (i * 48 + t)) := by
    rw [dataIndices_eq_map, List.map_map]
    exact List.map_congr_left fun t ht => congrArg f (hp.assemble_data n rom points i (List.mem_range.1 ht))
  have nulls : nullIndices.map (fun k => f (assemble n rom p points i k)) = List.replicate 12 (f n.czero) := by
    refine (List.map_congr_left fun k hk => ?_).trans List.map_const'
    obtain ⟨hpilot, hdata⟩ := nullIndices_disjoint k hk
    rw [assemble_null n rom points i (by rwa [hp.pilot_eq]) (by rwa [hp.data_eq])]
  rw [sum_range_eq_list_sum, sum_range_eq_list_sum, ← (standard_sets_perm.map _).sum_eq, List.map_append,
    List.map_append, List.sum_append, List.sum_append, pilots, data, nulls, List.sum_replicate]

/-- What a BPSK plan is: the standard sets, one bit per subcarrier and the two points of R110. -/
structure Plan.Bpsk (n : Num σ) (p : Plan σ) : Prop extends p.StandardSets where
  m_eq : p.m = 2
  bps_eq : p.bps = 1
  table_eq : p.table = [⟨n.int (-1), n.zero⟩, ⟨n.int 1, n.zero⟩]

theorem buildPlan_bpsk {v : CfgValues} (ha : activeOf n rom = activeIndices) (hq : v.qam = 2) :
    (buildPlan n rom v).Bpsk n where
  toStandardSets := buildPlan_standardSets v ha
  m_eq := hq
  bps_eq := by simp [buildPlan, hq, bitsPerSymbol]
  table_eq := by simp [buildPlan, hq, constellation, bpskTable]

/-- A BPSK message has one point for each of its padded bits (R131, R132). -/
theorem Plan.Bpsk.modPoints_length (hp : p.Bpsk n) (bits : Bits) :
    (modPoints n p bits).length = (padTo 48 bits).length := by
  rw [modPoints, hp.dataCount_eq, qamMap_length n p _ hp.bps_eq.ge, hp.bps_eq]
  simp

/-- The point of a padded bit (R110). -/
theorem Plan.Bpsk.at_modPoints (hp : p.Bpsk n) (bits : Bits) {u : Nat} (hu : u < (padTo 48 bits).length) :
    n.at (modPoints n p bits) u = ⟨n.int (2 * ((bits.getD u false).toNat : Int) - 1), n.zero⟩ := by
  obtain ⟨-, points⟩ := qamMapGroupsTheBits σ n p (padTo 48 bits) hp.bps_eq.ge
  obtain ⟨-, point⟩ := points u (by rwa [hp.bps_eq, Nat.add_sub_cancel, Nat.div_one])
  rw [modPoints, hp.dataCount_eq, point hp.bps_eq hp.table_eq, padTo_getD]

/-- A BPSK message takes one symbol for every 48 bits begun (R133). -/
theorem Plan.Bpsk.modulate_symbols (hp : p.Bpsk n) (rom : Rom σ) (bits : Bits) (pre : Bool) :
    (modulate n rom p bits pre).symbols = (bits.length + 47) / 48 := by
  have padded : (padTo 48 bits).length = (bits.length + 47) / 48 * 48 := padTo_length_eq bits (by decide)
  show symbolsNeeded p (modPoints n p bits).length = _
  rw [symbolsNeeded, hp.modPoints_length, hp.dataCount_eq, padded, ceilDiv]
  omega

end Subcarriers

/-- Sample `t` of symbol `i` of a frame, behind the preamble if there is one (R136, R138). -/
theorem at_modulate_frame {σ : Type} (n : Num σ) (rom : Rom σ) {p : Plan σ} (bits : Bits) (pre : Bool)
    (hc : p.cpLen ≤ 32) {i t : Nat} (hi : i < (modulate n rom p bits pre).symbols) (ht : t < 64 + p.cpLen) :
    n.at (modulate n rom p bits pre).frame ((if pre then p.preamble else []).length + (i * (64 + p.cpLen) + t)) =
      n.ifft (assemble n rom p (modPoints n p bits) i) ((t + 64 - p.cpLen) % 64) := by
  rw [modulate_frame, Num.at, List.getD_append_right _ _ _ _ (Nat.le_add_right _ _), Nat.add_sub_cancel_left,
    concatMap_getD (fun i _ => symbolSamples_length n p _ hc) _ hi ht]
  exact at_symbolSamples n _ hc ht

section DefaultTables

/-- The pilots of the default `TREF` sum to 2 (G1). -/
theorem defaultTref_pilot_sum :
    (pilotSet.map fun k => ((defaultRom realNum).tref k).toComplex).sum = 2 := by
  have values : pilotSet.map (fun k => defaultTrefValues.getD k 0) = [1, 1, 1, -1] := by decide
  have cast : pilotSet.map (fun k => ((defaultRom realNum).tref k).toComplex) =
      (pilotSet.map fun k => defaultTrefValues.getD k 0).map fun x : Int => (x : ℂ) := by
    rw [List.map_map]
    exact List.map_congr_left fun k _ => defaultTref_toComplex k
  rw [cast, values]
  norm_num

/-- The energy of the default `TREF` is 52, one for each active subcarrier (G1). -/
theorem defaultTref_energy : ∑ k ∈ Finset.range 64, Complex.normSq (defaultTref realNum k).toComplex = 52 := by
  have squares : ∑ k ∈ Finset.range 64, defaultTrefValues.getD k 0 * defaultTrefValues.getD k 0 = 52 := by decide
  simp only [defaultTref_toComplex, Complex.normSq_intCast]
  exact_mod_cast squares

/-- The first body sample of a symbol of 48 equal bits under the default `TREF` (R142). -/
theorem first_body_sample_of_equal_bits {qmax : Nat} {v : CfgValues} (hv : v.Legal qmax) (hq : v.qam = 2) (bit : Bool) :
    let rom := defaultRom realNum
    let p := buildPlan realNum rom v
    (realNum.at (modulate realNum rom p (List.replicate 48 bit) false).frame p.cpLen).toComplex =
      1 / 64 * (2 + 48 * (2 * bit.toNat - 1)) := by
  intro rom p
  obtain ⟨-, -, hcp, -⟩ := hv
  have hp : p.Bpsk realNum := buildPlan_bpsk (active_of_legal defaultRom_legal) hq
  have hone : (modulate realNum rom p (List.replicate 48 bit) false).symbols = 1 := by
    rw [hp.modulate_symbols, List.length_replicate]
  have sample := at_modulate_frame realNum rom (p := p) (List.replicate 48 bit) false hcp (i := 0) (t := p.cpLen)
    (by omega) (by omega)
  rw [show p.cpLen + 64 - p.cpLen = 64 by omega] at sample
  have point : ∀ t ∈ Finset.range 48,
      (realNum.at (modPoints realNum p (List.replicate 48 bit)) (0 * 48 + t)).toComplex = 2 * bit.toNat - 1 := by
    intro t ht
    have ht := Finset.mem_range.1 ht
    rw [hp.at_modPoints _ (by rw [padTo_length]; simpa using ht), List.getD_eq_getElem _ _ (by simpa using ht),
      List.getElem_replicate]
    simp [Cx.toComplex, Complex.ext_iff]
  have sum := hp.sum_assemble realNum rom (modPoints realNum p (List.replicate 48 bit)) 0 Cx.toComplex
  rw [defaultTref_pilot_sum, Finset.sum_congr rfl point, realNum_czero] at sum
  simp only [Bool.false_eq_true, if_false, List.length_nil, zero_mul, zero_add] at sample
  rw [sample, realNum_ifft_zero, sum, Finset.sum_const, Finset.card_range, smul_zero, add_zero, nsmul_eq_mul]
  norm_num

end DefaultTables

/-- Settles O24: at sample 0 every factor of the transform is 1, and the bins sum to 2 for the pilots and to 48 or -48
for the data. -/
theorem firstBodySampleIsTheMean : Obligations.FirstBodySampleIsTheMean := by
  refine ⟨realNum_ifft_zero, fun qmax v hv hq => ⟨Cx.toComplex_injective ?_, Cx.toComplex_injective ?_⟩⟩
  · rw [first_body_sample_of_equal_bits hv hq true]
    norm_num [Cx.toComplex, Complex.ext_iff]
  · rw [first_body_sample_of_equal_bits hv hq false]
    norm_num [Cx.toComplex, Complex.ext_iff]

/-- The energy of the bins of a full BPSK symbol with pilots of modulus 1 is 52 (R143). -/
theorem bpsk_symbol_energy {rom : Rom ℝ} {p : Plan ℝ} {points : List (Cx ℝ)} {i : Nat} (hp : p.StandardSets)
    (hpilot : ∀ k ∈ p.pilot, realNum.normSq (rom.tref k) = 1) (hfull : (i + 1) * 48 ≤ points.length)
    (hpoints : ∀ z ∈ points, z = ⟨-1, 0⟩ ∨ z = ⟨1, 0⟩) :
    ∑ k ∈ Finset.range 64, realNum.normSq (assemble realNum rom p points i k) = 52 := by
  have pilots : pilotSet.map (fun k => realNum.normSq (rom.tref k)) = List.replicate 4 1 :=
    (List.map_congr_left fun k hk => hpilot k (by rwa [hp.pilot_eq])).trans List.map_const'
  have data : ∀ t ∈ Finset.range 48, realNum.normSq (realNum.at points (i * 48 + t)) = 1 := by
    intro t ht
    have hlt : i * 48 + t < points.length := by have := Finset.mem_range.1 ht; omega
    rw [Num.at, List.getD_eq_getElem _ _ hlt]
    rcases hpoints _ (List.getElem_mem hlt) with h | h <;> rw [h] <;> simp [Cx.toComplex, Complex.normSq_apply]
  rw [hp.sum_assemble, pilots, Finset.sum_congr rfl data]
  norm_num

/-- Settles O25: the relation, the energy of a symbol by the kinds of its subcarriers, and that of the default
`TREF`. -/
theorem symbolEnergyIsParseval : Obligations.SymbolEnergyIsParseval := by
  have parseval (X : Nat → Cx ℝ) : realNum.sum (fun t => realNum.normSq (realNum.ifft X t)) 64 =
      (1 / 64) * realNum.sum (fun k => realNum.normSq (X k)) 64 := by
    simp only [realNum_sum, realNum_normSq]
    exact sum_normSq_ifft X
  refine ⟨parseval, fun rom p points i hp hpilot hfull hpoints => ?_, ?_⟩
  · rw [parseval, realNum_sum, bpsk_symbol_energy hp.standardSets hpilot hfull hpoints]
    norm_num
  · refine (parseval (defaultTref realNum)).trans ?_
    simp only [realNum_sum, realNum_normSq]
    rw [defaultTref_energy]
    norm_num

end Sys2Proof.Machine
end

section
/-! The metric in exact arithmetic (`42_demodulator.md` R166 to R170): the correlation is an inner product, the energies
are squared norms, so the bounds are those of Cauchy and Schwarz. -/

namespace Sys2Proof

/-- `v[a..a+len)` as a vector of the complex inner product space. -/
noncomputable def vectorAt (v : Samples ℝ) (a len : Nat) : EuclideanSpace ℂ (Fin len) :=
  WithLp.toLp 2 fun t => (realNum.at v (a + t)).toComplex

theorem vectorAt_apply (v : Samples ℝ) (a : Nat) {len : Nat} (t : Fin len) :
    vectorAt v a len t = (realNum.at v (a + t)).toComplex := rfl

theorem norm_vectorAt (v : Samples ℝ) (a len : Nat) : ‖vectorAt v a len‖ =
    Real.sqrt (∑ t ∈ Finset.range len, Complex.normSq (realNum.at v (a + t)).toComplex) := by
  rw [EuclideanSpace.norm_eq, Finset.sum_range]
  simp only [vectorAt_apply, Complex.normSq_eq_norm_sq]

theorem inner_vectorAt (v w : Samples ℝ) (a b len : Nat) : inner ℂ (vectorAt w b len) (vectorAt v a len) =
    ∑ t ∈ Finset.range len, (realNum.at v (a + t)).toComplex * starRingEnd ℂ (realNum.at w (b + t)).toComplex := by
  rw [PiLp.inner_apply, Finset.sum_range]
  rfl

theorem vectorAt_eq_smul_iff {v w : Samples ℝ} {a b len : Nat} {g : ℂ} : vectorAt v a len = g • vectorAt w b len ↔
    ∀ t < len, (realNum.at v (a + t)).toComplex = g * (realNum.at w (b + t)).toComplex := by
  rw [← (WithLp.ofLp_injective 2).eq_iff, funext_iff, Fin.forall_iff]
  rfl

/-- Every sample of a multiple of a vector is that multiple, those outside it too. -/
theorem at_map_cmul (g : Cx ℝ) (v : Samples ℝ) (i : Nat) :
    realNum.at (v.map (realNum.cmul g)) i = realNum.cmul g (realNum.at v i) := by
  have hzero : realNum.cmul g realNum.czero = realNum.czero := Cx.toComplex_injective (by simp)
  rw [Num.at, Num.at, List.getD, List.getD, List.getElem?_map]
  cases v[i]? with
  | none => exact hzero.symm
  | some z => rfl

theorem toComplex_eq_zero {z : Cx ℝ} : z.toComplex = 0 ↔ z = ⟨0, 0⟩ := by
  rw [← Cx.toComplex_injective.eq_iff]
  rfl

end Sys2Proof

namespace Sys2Proof.Machine

section Metric

variable (p : Plan ℝ) (r : Samples ℝ) (i : Nat)

theorem localEnergy_eq : localEnergy realNum p r i =
    ∑ t ∈ Finset.range p.lp, Complex.normSq (realNum.at r (i + t)).toComplex := by
  simp only [localEnergy, realNum_sum, realNum_normSq]

theorem templateEnergy_eq : templateEnergy realNum p =
    ∑ t ∈ Finset.range p.lp, Complex.normSq (realNum.at p.longSection t).toComplex := by
  simp only [templateEnergy, realNum_sum, realNum_normSq]

theorem correlation_toComplex : (correlation realNum p r i).toComplex = ∑ t ∈ Finset.range p.lp,
    (realNum.at r (i + t)).toComplex * starRingEnd ℂ (realNum.at p.longSection t).toComplex := by
  simp only [correlation, realNum_csum, realNum_cmul, realNum_conj]

theorem energy_nonneg (f : Nat → ℂ) (k : Nat) : 0 ≤ ∑ t ∈ Finset.range k, Complex.normSq (f t) :=
  Finset.sum_nonneg fun _ _ => Complex.normSq_nonneg _

/-- The formula of R169 gives 0 for a local energy of 0 as well, the quotient by 0 being 0. -/
theorem metric_eq_div : metric realNum p r i =
    ‖(correlation realNum p r i).toComplex‖ / Real.sqrt (templateEnergy realNum p * localEnergy realNum p r i) := by
  have hnonneg : 0 ≤ localEnergy realNum p r i := by rw [localEnergy_eq]; exact energy_nonneg _ _
  simp only [metric, realNum_lt, realNum_zero, realNum_div, realNum_cabs, realNum_sqrt, realNum_mul]
  split
  case isTrue => rfl
  case isFalse h => rw [le_antisymm (not_lt.1 h) hnonneg, mul_zero, Real.sqrt_zero, div_zero]

/-- The metric as a cosine (R169): inner product over norms. -/
theorem metric_eq_inner : metric realNum p r i =
    ‖inner ℂ (vectorAt p.longSection 0 p.lp) (vectorAt r i p.lp)‖ /
      (‖vectorAt p.longSection 0 p.lp‖ * ‖vectorAt r i p.lp‖) := by
  rw [metric_eq_div, correlation_toComplex, templateEnergy_eq, localEnergy_eq, Real.sqrt_mul (energy_nonneg _ _),
    inner_vectorAt, norm_vectorAt, norm_vectorAt]
  simp only [Nat.zero_add]

theorem metric_nonneg : 0 ≤ metric realNum p r i := by
  rw [metric_eq_inner]
  positivity

theorem metric_le_one : metric realNum p r i ≤ 1 := by
  rw [metric_eq_inner]
  exact div_le_one_of_le₀ (norm_inner_le_norm _ _) (by positivity)

/-- The metric is 1 exactly on a non-zero multiple of the template (R170). -/
theorem metric_eq_one_iff (hE : 0 < templateEnergy realNum p) : metric realNum p r i = 1 ↔
    ∃ g : ℂ, g ≠ 0 ∧ ∀ t < p.lp, (realNum.at r (i + t)).toComplex = g * (realNum.at p.longSection t).toComplex := by
  have hne : vectorAt p.longSection 0 p.lp ≠ 0 := by
    rw [← norm_ne_zero_iff, norm_vectorAt]
    simp only [Nat.zero_add]
    rw [← templateEnergy_eq]
    exact (Real.sqrt_pos.2 hE).ne'
  have cosine := norm_inner_div_norm_mul_norm_eq_one_iff (𝕜 := ℂ) (vectorAt p.longSection 0 p.lp) (vectorAt r i p.lp)
  rw [norm_div, norm_mul, RCLike.norm_ofReal, RCLike.norm_ofReal, abs_norm, abs_norm, ← metric_eq_inner] at cosine
  simpa only [ne_eq, hne, not_false_eq_true, true_and, vectorAt_eq_smul_iff, Nat.zero_add] using cosine

/-- A non-zero factor cancels in the metric (R170). -/
theorem metric_map_cmul {g : Cx ℝ} (hg : g ≠ ⟨0, 0⟩) :
    metric realNum p (r.map (realNum.cmul g)) i = metric realNum p r i := by
  have hpos : ‖g.toComplex‖ ≠ 0 := norm_ne_zero_iff.2 (mt toComplex_eq_zero.1 hg)
  have hvec : vectorAt (r.map (realNum.cmul g)) i p.lp = g.toComplex • vectorAt r i p.lp :=
    vectorAt_eq_smul_iff.2 fun t _ => by rw [at_map_cmul, realNum_cmul]
  rw [metric_eq_inner, metric_eq_inner, hvec, inner_smul_right, norm_smul, norm_mul, mul_left_comm,
    mul_div_mul_left _ _ hpos]

end Metric

/-- Settles O30: the metric is a cosine, so the inequality of Cauchy and Schwarz and its equality case bound it. -/
theorem metricIsANormalisedCorrelation : Obligations.MetricIsANormalisedCorrelation := by
  intro p r i x P e EP m
  have formula : m = ‖∑ t ∈ Finset.range p.lp, x t * (starRingEnd ℂ) (P t)‖ / Real.sqrt (EP * e) :=
    (metric_eq_div p r i).trans (by rw [correlation_toComplex, templateEnergy_eq, localEnergy_eq])
  refine ⟨fun _ => formula, fun he => by simp [formula, he], metric_nonneg p r i, metric_le_one p r i, fun hE => ?_,
    fun g hg => metric_map_cmul p r i hg⟩
  exact metric_eq_one_iff p r i (by rwa [templateEnergy_eq])

end Sys2Proof.Machine
end

section
/-! The window (`42_demodulator.md` R173 to R175): how far it can run over the block, and its samples. -/

namespace Sys2Proof.Machine

section Splice

variable {σ : Type} {p : Plan σ}

/-- The window of a candidate ends at most a frame's symbols behind the block (R168, R173). -/
theorem windowStart_add_window_le (hp : p.Sound) {istar : Nat} (hpos : istar ≤ p.block - p.lp) :
    windowStart p istar + p.window ≤ p.block + p.nsym * p.symLen := by
  have hblock := hp.block_ge
  rw [windowStart, hp.window_eq]
  rw [hp.lp_eq] at hpos hblock
  omega

/-- A sample of a window spliced from two blocks (R175). -/
theorem at_spliced (n : Num σ) {r : Samples σ} (r2 : Samples σ) {start block len j : Nat} (hr : r.length = block)
    (hs : start ≤ block) (hj : start + j < block + len) :
    n.at (slice r start block ++ slice r2 0 len) j =
      if start + j < block then n.at r (start + j) else n.at r2 (start + j - block) := by
  have hl : (slice r start block).length = block - start := slice_length_of_le _ hr.ge
  rw [Num.at]
  split
  case isTrue h =>
    rw [List.getD_append _ _ _ _ (by omega)]
    exact at_slice n r (by omega)
  case isFalse h =>
    rw [List.getD_append_right _ _ _ _ (by omega), hl]
    refine (at_slice n r2 (by omega)).trans ?_
    congr 1
    omega

end Splice

/-- Settles O31: the window ends in the block and is cut from it, or runs over by no more than a block has. -/
theorem windowIsCutFromOneOrTwoBlocks : Obligations.WindowIsCutFromOneOrTwoBlocks := by
  intro σ n p c r r2 hp hpos hr hr2 hpeak start
  have hblock := hp.block_ge
  have hover : start + p.window ≤ p.block + p.nsym * p.symLen := windowStart_add_window_le hp hpos
  have hstart : start ≤ p.block := by
    have : start = c.pos + 2 * p.cpLen + 1 := rfl
    have := hp.lp_eq
    omega
  refine ⟨by omega, by omega, fun h => findWindow_none_of_gt hpeak h.not_ge, ?_⟩
  by_cases hend : start + p.window ≤ p.block
  · refine ⟨slice r start (start + p.window), ?_, fun _ => findWindow_of_le hpeak hend, ?_, fun j hj => ?_⟩
    · rw [if_pos hend]
      exact findWindow_of_le hpeak hend
    · rw [slice_length_of_le _ (by omega), Nat.add_sub_cancel_left]
    · rw [if_pos (by omega)]
      exact at_slice n r (by omega)
  · refine ⟨slice r start p.block ++ slice r2 0 (start + p.window - p.block), ?_, fun h => absurd h hend, ?_,
      fun j hj => at_spliced n r2 hr hstart (by omega)⟩
    · rw [if_neg hend]
      exact findWindow_some_of_gt hpeak hend
    · rw [List.length_append, slice_length_of_le _ hr.ge, slice_length_of_le _ (by omega)]
      omega

end Sys2Proof.Machine
end

section
/-! The bias of the carrier-offset estimate (`42_demodulator.md` R183): the divisor is 63 where the two halves of the
window are 64 samples apart. -/

namespace Sys2Proof.Machine

/-- A sample and the one 64 later of a vector turned by `f` cycles per sample: the turn of 64 samples is left. -/
theorem conj_turned_mul_turned (g u : ℂ) (f : ℝ) (t : Nat) :
    starRingEnd ℂ (g * Complex.exp (2 * Real.pi * f * t * Complex.I) * u) *
        (g * Complex.exp (2 * Real.pi * f * (64 + t : Nat) * Complex.I) * u) =
      Complex.normSq g * Complex.exp (2 * Real.pi * f * 64 * Complex.I) * Complex.normSq u := by
  have hconj : starRingEnd ℂ (Complex.exp (2 * Real.pi * f * t * Complex.I)) =
      Complex.exp (-(2 * Real.pi * f * t * Complex.I)) := by
    rw [← Complex.exp_conj]
    congr 1
    simp [Complex.conj_ofNat]
  have hturn : Complex.exp (2 * Real.pi * f * (64 + t : Nat) * Complex.I) =
      Complex.exp (2 * Real.pi * f * t * Complex.I) * Complex.exp (2 * Real.pi * f * 64 * Complex.I) := by
    rw [← Complex.exp_add]
    congr 1
    push_cast
    ring
  have hcancel : Complex.exp (-(2 * Real.pi * f * t * Complex.I)) *
      Complex.exp (2 * Real.pi * f * t * Complex.I) = 1 := by
    rw [← Complex.exp_add, neg_add_cancel, Complex.exp_zero]
  rw [map_mul, map_mul, hconj, hturn, ← Complex.mul_conj, ← Complex.mul_conj]
  linear_combination (g * starRingEnd ℂ g * Complex.exp (2 * Real.pi * f * 64 * Complex.I) * (u * starRingEnd ℂ u)) *
    hcancel

/-- On an undistorted window turned by `f` cycles per sample the sum of R181 is the turn of 64 samples, weighted by the
energies of gain and window. -/
theorem cfoSum_of_turned {w : Samples ℝ} {u : Nat → ℂ} {g : ℂ} {f : ℝ} (hu : ∀ t < 63, u (64 + t) = u t)
    (hw : ∀ t < 127, (realNum.at w t).toComplex = g * Complex.exp (2 * Real.pi * f * t * Complex.I) * u t) :
    (cfoSum realNum w).toComplex = Complex.normSq g * Complex.exp (2 * Real.pi * f * 64 * Complex.I) *
      ∑ t ∈ Finset.range 63, (Complex.normSq (u t) : ℂ) := by
  rw [cfoSum_toComplex, Finset.mul_sum]
  refine Finset.sum_congr rfl fun t ht => ?_
  have ht := Finset.mem_range.1 ht
  rw [hw t (by omega), hw (64 + t) (by omega), hu t ht, conj_turned_mul_turned]

/-- The argument of a positive multiple of a turn. -/
theorem arg_pos_mul_exp {c : ℝ} (hc : 0 < c) (θ : ℝ) :
    (c * Complex.exp (θ * Complex.I)).arg = toIocMod Real.two_pi_pos (-Real.pi) θ := by
  rw [Complex.arg_real_mul _ hc, Complex.arg_exp_mul_I]

/-- Settles O33: the sum is a positive multiple of the turn of 64 samples, and its angle that turn up to whole turns. -/
theorem cfoEstimateHasTheStatedBias : Obligations.CfoEstimateHasTheStatedBias := by
  intro w u g f hg hu ⟨t0, ht0, hne⟩ hw
  have hsum := cfoSum_of_turned hu hw
  have henergy : 0 < ∑ t ∈ Finset.range 63, Complex.normSq (u t) :=
    Finset.sum_pos' (fun _ _ => Complex.normSq_nonneg _) ⟨t0, Finset.mem_range.2 ht0, Complex.normSq_pos.2 hne⟩
  have hangle : (cfoSum realNum w).toComplex.arg =
      toIocMod Real.two_pi_pos (-Real.pi) (2 * Real.pi * 64 * f) := by
    rw [← arg_pos_mul_exp (mul_pos (Complex.normSq_pos.2 hg) henergy), hsum]
    congr 1
    push_cast
    ring_nf
  have hpi := Real.pi_pos
  refine ⟨hsum, fun hf => ?_, toIocDiv Real.two_pi_pos (-Real.pi) (2 * Real.pi * 64 * f), ?_⟩
  · obtain ⟨hlo, hhi⟩ := abs_lt.1 hf
    have hself : (cfoSum realNum w).toComplex.arg = 2 * Real.pi * 64 * f := by
      rw [hangle, toIocMod_eq_self]
      constructor <;> nlinarith
    refine ⟨by rw [realNum_angle, hself], ?_⟩
    rw [estimateCfo_eq, hself]
    field_simp
  · rw [estimateCfo_eq, hangle, toIocMod, zsmul_eq_mul]
    field_simp

end Sys2Proof.Machine
end

section
/-! The round trip over a perfect path (`42_demodulator.md` R205). The window is the same non-zero multiple of what was
sent at every sample, so each step of the demodulator undoes its step of the modulator: the carrier offset is 0, the
channel estimate is the gain, the equaliser gives the bins back, the fitted line turns nothing, and the slicer reads the
bits. -/

namespace Sys2Proof.Machine

/-- A BPSK plan with the lengths and the training tables that `PLAN.BUILD` gives it (R26, R108). -/
structure Plan.BpskOver (rom : Rom ℝ) (p : Plan ℝ) : Prop extends Plan.Bpsk realNum p where
  cpLen_le : p.cpLen ≤ 32
  symLen_eq : p.symLen = 64 + p.cpLen
  lp_eq : p.lp = 2 * p.cpLen + 128
  window_eq : p.window = 127 + p.nsym * p.symLen
  longSection_eq : p.longSection = longSectionOf rom p.cpLen
  preamble_eq : p.preamble = preambleOf rom p.cpLen

theorem buildPlan_bpskOver {rom : Rom ℝ} {qmax : Nat} {v : CfgValues} (hrom : rom.Legal realNum) (hv : v.Legal qmax)
    (hq : v.qam = 2) : (buildPlan realNum rom v).BpskOver rom := by
  obtain ⟨hn, -, hcp, -⟩ := hv
  exact {
    toBpsk := buildPlan_bpsk (active_of_legal hrom) hq
    cpLen_le := hcp
    symLen_eq := by simp [buildPlan, hn]
    lp_eq := rfl
    window_eq := by simp only [buildPlan, hn]; omega
    longSection_eq := rfl
    preamble_eq := rfl }

/-- `w` is `g` times the undistorted window of a frame that carries `points`: the second half of the long section from
its sample 1 on, and every symbol body at its place (R173, R190). -/
structure UndistortedWindow (rom : Rom ℝ) (p : Plan ℝ) (points : List (Cx ℝ)) (g : Cx ℝ) (w : Samples ℝ) : Prop where
  training : ∀ t < 127, realNum.at w t = realNum.cmul g (rom.ltsT ((t + 1) % 64))
  body : ∀ i < p.nsym, ∀ t < 64,
    symbolBody realNum p w i t = realNum.cmul g (realNum.ifft (assemble realNum rom p points i) t)

section Decoding

variable {rom : Rom ℝ} {p : Plan ℝ} {points : List (Cx ℝ)} {g : Cx ℝ} {w : Samples ℝ}

/-- The two halves of the training are the same, so their products are squared moduli and have no angle. -/
theorem UndistortedWindow.estimateCfo_eq_zero (hw : UndistortedWindow rom p points g w) :
    estimateCfo realNum w = 0 := by
  have hreal : (cfoSum realNum w).toComplex =
      ((∑ t ∈ Finset.range 63, Complex.normSq (realNum.at w t).toComplex : ℝ) : ℂ) := by
    rw [cfoSum_toComplex]
    push_cast
    refine Finset.sum_congr rfl fun t ht => ?_
    have ht := Finset.mem_range.1 ht
    have hsame : realNum.at w (64 + t) = realNum.at w t := by
      rw [hw.training t (by omega), hw.training (64 + t) (by omega)]
      congr 2
      omega
    rw [hsame, mul_comm, Complex.mul_conj]
  rw [estimateCfo_eq, hreal, Complex.arg_ofReal_of_nonneg (energy_nonneg _ _), zero_div]

/-- Compensating an offset of 0 leaves the window (R182). -/
theorem at_compensate_zero (p : Plan ℝ) (w : Samples ℝ) {t : Nat} (ht : t < p.window) :
    realNum.at (compensate realNum p w 0) t = realNum.at w t := by
  obtain ⟨-, -, -, -, compensated⟩ := cfoEstimateAndCompensation p w
  obtain ⟨-, sample⟩ := compensated 0
  exact Cx.toComplex_injective (by simpa using sample t ht)

theorem UndistortedWindow.compensate_zero (hp : p.BpskOver rom) (hw : UndistortedWindow rom p points g w) :
    UndistortedWindow rom p points g (compensate realNum p w 0) where
  training t ht := by
    rw [at_compensate_zero p w (by rw [hp.window_eq]; omega), hw.training t ht]
  body i hi t ht := by
    have hend : (i + 1) * p.symLen ≤ p.nsym * p.symLen := Nat.mul_le_mul_right _ hi
    have hlen := hp.symLen_eq
    rw [Nat.succ_mul] at hend
    rw [← hw.body i hi t ht]
    exact at_compensate_zero p w (by rw [hp.window_eq]; omega)

/-- The channel estimate is the gain (R187). -/
theorem UndistortedWindow.at_estimateChannel (hrom : rom.Legal realNum) (hp : p.BpskOver rom)
    (hw : UndistortedWindow rom p points g w) {k : Nat} (hk : k ∈ activeIndices) :
    realNum.at (estimateChannel realNum rom p w) k = g := by
  have hlt := lt_of_mem_activeIndices hk
  have training : ∀ t < 64, trainingEstimate realNum w t = realNum.cmul g (rom.ltsT t) := fun t ht =>
    trainingEstimate_of_gain (hw.training 63 (by decide)) (fun j hj => ⟨by
      rw [hw.training j (by omega), Nat.mod_eq_of_lt (by omega)], by
      rw [hw.training (64 + j) (by omega), Nat.add_assoc, Nat.add_mod_left, Nat.mod_eq_of_lt (by omega)]⟩) ht
  apply Cx.toComplex_injective
  rw [at_estimateChannel_active _ _ _ hlt (by rwa [hp.active_eq]), realNum_cdiv, fft_congr _ training, fft_cmul,
    hrom.fft_ltsT hlt, mul_div_cancel_right₀ _ (hrom.tref_ne_zero hk)]

/-- The equaliser gives the assembled bins back (R192). -/
theorem UndistortedWindow.at_equalise (hrom : rom.Legal realNum) (hp : p.BpskOver rom) (hg : g.toComplex ≠ 0)
    (hw : UndistortedWindow rom p points g w) {i k : Nat} (hi : i < p.nsym) (hk : k ∈ activeIndices) :
    realNum.at (equalise realNum p (estimateChannel realNum rom p w) (symbolBody realNum p w i)) k =
      assemble realNum rom p points i k := by
  have hlt := lt_of_mem_activeIndices hk
  apply Cx.toComplex_injective
  rw [equaliserDividesByTheGain _ _ _ _ _ _ hlt (by rwa [hp.active_eq]), hw.at_estimateChannel hrom hp hk,
    if_neg (mt (realNum_isZero g).1 hg), realNum_cdiv, fft_congr _ (hw.body i hi), fft_cmul, fft_ifft _ hlt,
    mul_div_cancel_left₀ _ hg]

/-- The pilots are at their reference, so the fitted line is 0 up to whole turns and corrects nothing (R193 to R196). -/
theorem UndistortedWindow.correctedSymbol_eq (hrom : rom.Legal realNum) (hp : p.BpskOver rom) (hg : g.toComplex ≠ 0)
    (hw : UndistortedWindow rom p points g w) {i k : Nat} (hi : i < p.nsym) (hk : k ∈ activeIndices) :
    correctedSymbol realNum rom p (estimateChannel realNum rom p w) (symbolBody realNum p w i) k =
      assemble realNum rom p points i k := by
  obtain ⟨j, hj⟩ := exists_fitLine_of_turned
    (y := equalise realNum p (estimateChannel realNum rom p w) (symbolBody realNum p w i)) (a := 0) (b := 0) hrom
    hp.pilot_eq (by rw [abs_zero]; positivity) fun k hk => by
      rw [hw.at_equalise hrom hp hg hi (pilotSet_subset_activeIndices k hk),
        assemble_pilot _ _ _ _ (by rwa [hp.pilot_eq])]
      simp
  have hback := turned_mul_exp_neg (assemble realNum rom p points i k).toComplex 0 j
  apply Cx.toComplex_injective
  rw [correctedSymbol, phaseCorrect_toComplex, hj, hw.at_equalise hrom hp hg hi hk]
  simpa using hback

/-- The slicer reads the bit of a point (R110, R199). -/
theorem slicer_point (draw : Nat) (bit : Bool) :
    slicer realNum draw ⟨realNum.int (2 * (bit.toNat : Int) - 1), realNum.zero⟩ = bit := by
  obtain ⟨above, below, -⟩ :=
    bpskSlicerDecidesBySign ℝ realNum realNum_lt ⟨realNum.int (2 * (bit.toNat : Int) - 1), realNum.zero⟩
  cases bit
  · exact below (by norm_num) draw
  · exact above (by norm_num) draw

theorem dataIndices_subset_activeIndices : ∀ t < 48, dataIndices.getD t 0 ∈ activeIndices := by decide

theorem decideBits_bpsk {n : Num ℝ} (hp : p.Bpsk n) (draw : Nat) (z : Cx ℝ) :
    decideBits n p draw z = [slicer n draw z] := if_pos hp.m_eq

/-- A symbol demodulates to its 48 padded bits (R203). -/
theorem UndistortedWindow.demodSymbol_getD {bits : Bits} (hrom : rom.Legal realNum) (hp : p.BpskOver rom)
    (hg : g.toComplex ≠ 0) (hw : UndistortedWindow rom p (modPoints realNum p bits) g w) (draw : Nat → Nat)
    {i t : Nat} (hi : i < p.nsym) (ht : t < 48) (hbits : i * 48 + t < (padTo 48 bits).length) :
    (demodSymbol realNum rom p draw w (estimateChannel realNum rom p w) i).getD t false =
      bits.getD (i * 48 + t) false := by
  have decision : (demodSymbol realNum rom p draw w (estimateChannel realNum rom p w) i).getD (t * 1 + 0) false =
      [slicer realNum (draw (i * p.dataCount + t)) (correctedSymbol realNum rom p (estimateChannel realNum rom p w)
        (symbolBody realNum p w i) (p.data.getD t 0))].getD 0 false := by
    rw [← decideBits_bpsk hp.toBpsk]
    exact concatMap_getD (fun _ _ => by rw [decideBits_bpsk hp.toBpsk]; rfl) _ (by rwa [hp.dataCount_eq]) one_pos
  rw [mul_one, add_zero, List.getD_cons_zero, hp.data_eq,
    hw.correctedSymbol_eq hrom hp hg hi (dataIndices_subset_activeIndices t ht), hp.assemble_data _ _ _ _ ht,
    hp.at_modPoints bits hbits, slicer_point] at decision
  exact decision

/-- The window decodes to the padded bits, with no carrier offset (R203, R205). -/
theorem UndistortedWindow.decodeWindow_eq {bits : Bits} (hrom : rom.Legal realNum) (hp : p.BpskOver rom)
    (hg : g.toComplex ≠ 0) (hn : (bits.length + 47) / 48 = p.nsym)
    (hw : UndistortedWindow rom p (modPoints realNum p bits) g w) (draw : Nat → Nat) :
    decodeWindow realNum rom p draw w = ⟨padTo 48 bits, 0⟩ := by
  have hw' := hw.compensate_zero hp
  have hlen : (padTo 48 bits).length = p.nsym * 48 := by rw [← hn]; exact padTo_length_eq bits (by decide)
  have hsym (i : Nat) : (demodSymbol realNum rom p draw (compensate realNum p w 0)
      (estimateChannel realNum rom p (compensate realNum p w 0)) i).length = 48 := by
    rw [demodSymbol, concatMap_length_of _ 1 _ fun _ _ => by rw [decideBits_bpsk hp.toBpsk]; rfl, hp.dataCount_eq]
  simp only [decodeWindow, hw.estimateCfo_eq_zero, Decoded.mk.injEq, and_true]
  refine List.ext_getElem ?_ fun j hj hj' => ?_
  · rw [concatMap_length_of _ 48 _ fun i _ => hsym i, hlen]
  · have hsplit : j / 48 * 48 + j % 48 = j := Nat.div_add_mod' j 48
    have hi : j / 48 < p.nsym := by omega
    have ht : j % 48 < 48 := Nat.mod_lt _ (by decide)
    rw [← List.getD_eq_getElem _ false hj, ← List.getD_eq_getElem _ false hj', padTo_getD, ← hsplit,
      concatMap_getD (fun i _ => hsym i) _ hi ht, hw'.demodSymbol_getD hrom hp hg draw hi ht (by omega)]

end Decoding

section Path

variable {rom : Rom ℝ} {p : Plan ℝ} {bits : Bits} {lead tail : Nat} {g : Cx ℝ}

/-- What comes over the path: silence, the frame, silence, all times the gain (R205). -/
noncomputable def received (lead tail : Nat) (g : Cx ℝ) (frame : Samples ℝ) : Samples ℝ :=
  (List.replicate lead (⟨0, 0⟩ : Cx ℝ) ++ frame ++ List.replicate tail (⟨0, 0⟩ : Cx ℝ)).map (realNum.cmul g)

theorem received_length (lead tail : Nat) (g : Cx ℝ) (frame : Samples ℝ) :
    (received lead tail g frame).length = lead + frame.length + tail := by
  simp [received, Nat.add_assoc]

theorem at_received {frame : Samples ℝ} {j : Nat} (hj : j < frame.length) :
    realNum.at (received lead tail g frame) (lead + j) = realNum.cmul g (realNum.at frame j) := by
  rw [received, at_map_cmul, Num.at, List.append_assoc, List.getD_append_right _ _ _ _ (by simp), List.length_replicate,
    Nat.add_sub_cancel_left, List.getD_append _ _ _ _ hj]
  rfl

theorem Plan.BpskOver.frame_length (hp : p.BpskOver rom) (bits : Bits) : (modulate realNum rom p bits true).frame.length =
    160 + p.lp + (bits.length + 47) / 48 * p.symLen := by
  rw [modulate_length _ _ _ _ _ hp.cpLen_le, hp.modulate_symbols, hp.preamble_eq, preambleOf_length _ hp.cpLen_le,
    hp.lp_eq, hp.symLen_eq, if_pos rfl]

theorem Plan.BpskOver.preamble_length (hp : p.BpskOver rom) : p.preamble.length = 160 + p.lp := by
  rw [hp.preamble_eq, preambleOf_length _ hp.cpLen_le, hp.lp_eq]

/-- The long section stands behind the ten short repetitions (R108). -/
theorem at_frame_longSection (hp : p.BpskOver rom) {t : Nat} (ht : t < p.lp) :
    realNum.at (modulate realNum rom p bits true).frame (160 + t) = realNum.at p.longSection t := by
  rw [modulate_frame, if_pos rfl, Num.at, List.getD_append _ _ _ _ (by rw [hp.preamble_length]; omega),
    hp.longSection_eq, ← preambleOf_drop, ← hp.preamble_eq, Num.at, List.getD_eq_getElem?_getD,
    List.getD_eq_getElem?_getD, List.getElem?_drop]

theorem at_frame_training (hp : p.BpskOver rom) {t : Nat} (ht : t < 127) :
    realNum.at (modulate realNum rom p bits true).frame (160 + (2 * p.cpLen + 1 + t)) = rom.ltsT ((t + 1) % 64) := by
  have hc := hp.cpLen_le
  have hl := hp.lp_eq
  rw [at_frame_longSection hp (by omega), hp.longSection_eq, at_longSectionOf _ _ hc (by omega)]
  congr 1
  omega

theorem at_frame_body (hp : p.BpskOver rom) {i t : Nat} (hi : i < (bits.length + 47) / 48) (ht : t < 64) :
    realNum.at (modulate realNum rom p bits true).frame (160 + p.lp + (i * p.symLen + (p.cpLen + t))) =
      realNum.ifft (assemble realNum rom p (modPoints realNum p bits) i) t := by
  have sample := at_modulate_frame realNum rom bits true hp.cpLen_le (i := i) (t := p.cpLen + t)
    (by rwa [hp.modulate_symbols]) (by omega)
  rw [if_pos rfl, hp.preamble_length, ← hp.symLen_eq] at sample
  rw [sample]
  congr 1
  omega

/-- The window of the frame is the undistorted one times the gain (R173, R174). -/
theorem received_window (hp : p.BpskOver rom) (hn : (bits.length + 47) / 48 = p.nsym) :
    UndistortedWindow rom p (modPoints realNum p bits) g
      (slice (received lead tail g (modulate realNum rom p bits true).frame) (windowStart p (lead + 160))
        (windowStart p (lead + 160) + p.window)) := by
  have hl := hp.lp_eq
  have hwin := hp.window_eq
  have hframe := hp.frame_length bits
  rw [hn] at hframe
  have sample {j k : Nat} (hj : j < p.window) (hk : lead + k = windowStart p (lead + 160) + j) :
      realNum.at (slice (received lead tail g (modulate realNum rom p bits true).frame) (windowStart p (lead + 160))
        (windowStart p (lead + 160) + p.window)) j =
      realNum.cmul g (realNum.at (modulate realNum rom p bits true).frame k) := by
    have hstart : windowStart p (lead + 160) = lead + 160 + 2 * p.cpLen + 1 := rfl
    rw [at_slice _ _ (by omega), ← hk, at_received (by omega)]
  constructor
  · intro t ht
    rw [sample (k := 160 + (2 * p.cpLen + 1 + t)) (by omega) (by rw [windowStart]; omega), at_frame_training hp ht]
  · intro i hi t ht
    have hend : (i + 1) * p.symLen ≤ p.nsym * p.symLen := Nat.mul_le_mul_right _ hi
    have hsym := hp.symLen_eq
    rw [Nat.succ_mul] at hend
    rw [symbolBody, sample (k := 160 + p.lp + (i * p.symLen + (p.cpLen + t))) (by omega) (by rw [windowStart]; omega),
      at_frame_body hp (by rwa [hn]) ht]

/-- The template has energy (R29 e). -/
theorem templateEnergy_pos (hrom : rom.Legal realNum) (hp : p.BpskOver rom) : 0 < templateEnergy realNum p := by
  have h := hrom.energy p.cpLen hp.cpLen_le
  rw [realNum_lt, realNum_zero] at h
  rwa [templateEnergy, hp.longSection_eq, hp.lp_eq]

/-- At the long section the block is a multiple of the template (R170). -/
theorem metric_received (hrom : rom.Legal realNum) (hp : p.BpskOver rom) (hg : g.toComplex ≠ 0) :
    metric realNum p (received lead tail g (modulate realNum rom p bits true).frame) (lead + 160) = 1 := by
  refine (metric_eq_one_iff p _ _ (templateEnergy_pos hrom hp)).2 ⟨g.toComplex, hg, fun t ht => ?_⟩
  rw [Nat.add_assoc, at_received (by rw [hp.frame_length]; omega), realNum_cmul, at_frame_longSection hp ht]

end Path

section Detection

variable {p : Plan ℝ} {r : Samples ℝ} {i : Nat}

/-- A position that reaches 1 makes the peak 1 (R170, R171). -/
theorem detect_peak_eq_one (hi : i ≤ p.block - p.lp) (h : metric realNum p r i = 1) :
    (detect realNum p r).peak = 1 := by
  obtain ⟨-, hpeak, hle, -, -⟩ := detectionIsTheFirstMaximum ℝ realNum realNum_lt p r none
  exact le_antisymm (hpeak.trans_le (metric_le_one p r _)) (h.ge.trans (hle i hi))

/-- The first position that reaches 1 is the one detected (R171). -/
theorem detect_eq_of_first_one (hi : i ≤ p.block - p.lp) (h : metric realNum p r i = 1)
    (hfirst : ∀ j < i, metric realNum p r j ≠ 1) : detect realNum p r = ⟨i, 1⟩ := by
  obtain ⟨-, hpeak, -, hlt, -⟩ := detectionIsTheFirstMaximum ℝ realNum realNum_lt p r none
  have hone := detect_peak_eq_one hi h
  have hpos : (detect realNum p r).pos = i := by
    rcases lt_trichotomy (detect realNum p r).pos i with hbefore | heq | hafter
    · exact absurd (hpeak.symm.trans hone) (hfirst _ hbefore)
    · exact heq
    · exact absurd (hlt i hafter) (by rw [h, hone]; exact lt_irrefl 1)
  rw [← hpos, ← hone]

end Detection

/-- `DEM.RUN` in `READY` with room and a block whose window lies in it (R160). -/
theorem execOf_demRun_of_window {σ : Type} {c : Impl σ} {s : State σ} {p : Plan σ} {r w : Samples σ}
    {rest : List (Samples σ)} (hr : s.phase = .ready) (hp : s.plan = some p) (hm : ¬ 2 < p.m)
    (ho : s.demOut.length < c.depthDemOut) (hi : s.demIn = r :: rest)
    (hw : findWindow c.num p (detect c.num p r) r rest.head? = .window w 1) :
    ∃ t, execOf c .demRun s = .next t ∧ t.last = .ok ∧ t.demIn = rest ∧
      t.demOut = s.demOut ++ [(decodeWindow c.num c.rom p (drawsFrom c s) w).bits] ∧ t.demFound = true ∧
      t.res = { s.res with
        demOffset := BitVec.ofNat 32 (detect c.num p r).pos
        demPeak := (detect c.num p r).peak
        demCfo := (decodeWindow c.num c.rom p (drawsFrom c s) w).cfo } := by
  have run : execOf c .demRun s = .next (demRunOn c s p r rest) := by
    refine congrArg _ ((withPlan_ready _ hr hp).trans ?_)
    rw [if_neg fun h => hm h.1, withHead_cons _ ho hi]
  refine ⟨_, run, ?_⟩
  rw [demRunOn_of_window hw]
  exact ⟨rfl, by simp [hi], rfl, rfl, rfl⟩

/-- Settles O41: the window is the undistorted one times the gain and decodes to the padded bits; the metric is 1 at the
long section, which is the peak, and where it is the first 1 detection ends there and `DEM.RUN` takes that window. -/
theorem perfectPathRoundTrip : Obligations.PerfectPathRoundTrip := by
  intro c v bits lead tail g draw hc hnum hv hq hn hg p frame silence r start w padded hlen
  have hrom : c.rom.Legal realNum := hnum ▸ hc.rom
  have hp : p.BpskOver c.rom := buildPlan_bpskOver hrom hv hq
  have hn : (bits.length + 47) / 48 = p.nsym := hn
  have hg' : g.toComplex ≠ 0 := mt toComplex_eq_zero.1 hg
  have hfits : lead + (160 + p.lp + p.nsym * p.symLen) + tail = p.block := by
    rw [← hlen, ← hn, ← hp.frame_length]
    exact (received_length lead tail g frame).symm
  have hi : lead + 160 ≤ p.block - p.lp := by omega
  have hmetric : metric realNum p r (lead + 160) = 1 := metric_received hrom hp hg'
  have hdecode (draw : Nat → Nat) : decodeWindow realNum c.rom p draw w = ⟨padded, 0⟩ :=
    (received_window hp hn).decodeWindow_eq hrom hp hg' hn draw
  have hfind (next? : Option (Samples ℝ)) : findWindow realNum p ⟨lead + 160, 1⟩ r next? = .window w 1 := by
    refine findWindow_of_le ((realNum_lt _ _).2 ?_) ?_
    · norm_num [detThreshold]
    · have hl := hp.lp_eq
      show lead + 160 + 2 * p.cpLen + 1 + p.window ≤ p.block
      rw [hp.window_eq]
      omega
  refine ⟨hmetric, detect_peak_eq_one hi hmetric, hfind none, hdecode draw, fun hfirst => ?_⟩
  have hdetect := detect_eq_of_first_one hi hmetric hfirst
  refine ⟨hdetect, fun s rest hr hs hin ho => ?_⟩
  have hw : findWindow c.num p (detect c.num p r) r rest.head? = .window w 1 := by
    rw [hnum, hdetect, hfind]
  have hm : ¬ 2 < p.m := hp.m_eq.not_gt
  have run := execOf_demRun_of_window hr hs hm ho hin hw
  rwa [hnum, hdetect, hdecode] at run

end Sys2Proof.Machine
end
